-- ==== Sys2Proof/Word.lean ====
section
/-!
DEFINITION. Word.lean: the 32-bit word of the register port and of the command port (spec 00_scope R3, 30_encoding R50).
-/

namespace Sys2Proof

/-- A register value, a command word, a result word, a byte address of the register port (AW = 32). -/
abbrev Word := BitVec 32

/-- An operand field of a command word, and one byte of memory. -/
abbrev Octet := BitVec 8

end Sys2Proof
end

