-- ==== Sys2Proof/Syntax.lean ====
section
/-!
DEFINITION. Syntax.lean: the thirteen commands of spec 30_encoding R53, one constructor per row of the opcode table,
with the operand types of R51 and R52.
-/

namespace Sys2Proof

/-- A FunctionMode (00_scope glossary, 30_encoding R52), in the order the source lists the values. -/
inductive FunctionMode where
  | input | output | alt0 | alt1 | alt2 | alt3 | alt4 | alt5
  deriving DecidableEq, Repr

/-- A PullState (00_scope glossary, 30_encoding R52), in the order the source lists the values. -/
inductive PullState where
  | off | pullDown | pullUp
  deriving DecidableEq, Repr

/-- A command. A pin operand is any unsigned 8-bit value (R51: 54 to 255 are well formed and fault at execution);
a pattern operand is any unsigned 8-bit value (R52). -/
inductive Instr where
  | resolveFsel (pin : Octet)
  | resolveBit (pin : Octet)
  | resolvePudclk (pin : Octet)
  | encodeFunction (mode : FunctionMode)
  | decodeFunction (pattern : Octet)
  | writeFunction (pin : Octet) (mode : FunctionMode)
  | setPin (pin : Octet)
  | clearPin (pin : Octet)
  | readLevel (pin : Octet)
  | configurePull (pin : Octet) (state : PullState)
  | encodePull (state : PullState)
  | decodePull (pattern : Octet)
  | readFunction (pin : Octet)
  deriving DecidableEq, Repr

end Sys2Proof
end

