-- ==== Sys2Proof/Config.lean ====
section
/-!
DEFINITION. Config.lean: what an implementation fixes (spec 00_scope R4) and the free values. A free value is a
constant with no body: a statement about it holds whatever it is.
-/

namespace Sys2Proof

/-- The thirteen register families of spec 10_state R16. -/
inductive Family where
  | fsel | set | clr | lev | eds | ren | fen | hen | len | aren | afen | pud | pudclk
  deriving DecidableEq, Repr

/-- The pull a pin has latched (20_memory R45, 70_reset R172): a pull state, or an unknown electrical state. -/
inductive PinPull where
  | off | pullDown | pullUp | unknown
  deriving DecidableEq, Repr, Inhabited

/-- The interval a Delay asks for. The block only ever asks for SETTLE, an open parameter of the spec (R124, D19):
its length has no value in the source and no rule depends on it (R176), so it is a name here. Assumption log 7. -/
inductive Interval where
  | settle
  deriving DecidableEq, Repr

/-- The stated default of the parameter BASE (00_scope R4, 20_memory R33; D12). Assumption log 1, PRESUMED: the
spec marks the number as general knowledge. -/
def Config.base : Word := 0x3F200000#32

/-- FREE VALUE (93_implementation_defined U2, 70_reset R172): the pull a pin takes from a broken or unfinished latch
sequence. It is applied to the counter `fresh` of State. Assumption log 9. -/
opaque Config.freePull : Nat → PinPull

/-- FREE VALUE (70_reset R163): the word a read returns at an address where the register block is not. It is applied to
the counter `fresh` of State. Assumption log 8. -/
opaque Config.elsewhere : Nat → Word

end Sys2Proof
end

