-- ==== Sys2Proof/Machine/State.lean ====
section
/-!
DEFINITION. Machine/State.lean: everything spec 10_state gives the block and its register block, and, as plain data, the
inputs of the agents around it (70_reset R170, R177). What is not the spec's state is marked as the model's own.
-/

namespace Sys2Proof.Machine

/-- PHASE, the state of the pull-configuration state machine (10_state R13). -/
inductive Phase where
  | idle | pudWritten | clockAsserted
  deriving DecidableEq, Repr

/-- The values of FAULT other than None (10_state R14, 60_exceptions R140). These are records in the state, not stops
of the model. -/
inductive FaultKind where
  | invalidPin | unknownEncoding | illegalCommand
  deriving DecidableEq, Repr

/-- The names of the response's status codes (30_encoding R56). -/
inductive Status where
  | ok | invalidPin | unknownEncoding | illegalCommand | faulted
  deriving DecidableEq, Repr

/-- What the response port carries (30_encoding R56). -/
structure Response where
  status : Status
  result : Word
  deriving DecidableEq, Repr

/-- The observable events of a command (00_scope section 6): RD(f,b)=v, WR(f,b,v), DLY(d), RSP(status,result). -/
inductive Event where
  | rd (f : Family) (b : Nat) (v : Word)
  | wr (f : Family) (b : Nat) (v : Word)
  | dly (d : Interval)
  | rsp (status : Status) (result : Word)
  deriving DecidableEq, Repr

/-- One thing the command in progress still has to do (00_scope section 8 "the command in progress"). Each performs
one event; a read leaves behind what the command does with the word read. -/
inductive Work where
  /-- WRITE_FUNCTION's read of FSEL[b] (R101); it leaves the write of the changed word and the response. -/
  | readModify (b shift : Nat) (pattern : BitVec 3)
  /-- READ_FUNCTION's read of FSEL[b] (R102); it leaves the response. -/
  | readField (b shift : Nat)
  /-- READ_LEVEL's read of LEV[b] (R105); it leaves the response. -/
  | readBit (b shift : Nat)
  /-- A register write, and what PHASE becomes when it has completed (R122), none where PHASE stays. -/
  | write (f : Family) (b : Nat) (v : Word) (after : Option Phase)
  /-- Delay(SETTLE) (R124). -/
  | delay
  /-- respond(status, result) (R56). -/
  | respond (status : Status) (result : Word)
  /-- raise F(CMD) (R146). -/
  | raise (k : FaultKind)
  deriving DecidableEq, Repr

/-- What another master does between two events of the block (70_reset R170). -/
inductive MasterAccess where
  | read (f : Family) (b : Nat)
  | write (f : Family) (b : Nat) (v : Word)
  /-- It waits at least the settle time. -/
  | settle
  deriving DecidableEq, Repr

/-- Who moves next (70_reset R170, R177). The model's own field of inputs. -/
inductive Input where
  /-- The host issues a command word; the block may perform that many events before the next input moves (none: all). -/
  | command (w : Word) (events : Option Nat)
  /-- The block performs that many more events of the command in progress (none: all that are left). -/
  | resume (events : Option Nat)
  /-- The host asserts and releases reset with this word on the base-address input (R160). -/
  | reset (base : Word)
  | master (a : MasterAccess)
  deriving DecidableEq, Repr

/-- How the delay primitive answers: it waited the settle time of the controller, or less (70_reset R164). -/
inductive DelayAnswer where
  | full | short
  deriving DecidableEq, Repr

/-- The stage of one pin's latch sequence, the conditions of 70_reset R172 in their order. -/
inductive LatchStage where
  /-- The pin's clock bit is 0 and has not been written since the last PUD write. -/
  | ready
  /-- The pin's clock bit is 0 and has been written since the last PUD write. -/
  | touched
  /-- The bit was written 1 under a settled pattern; `held`: the second settle time has passed since. -/
  | clocked (st : PullState) (held : Bool)
  /-- After that, PUD was written 0 and nothing else happened. -/
  | released (st : PullState)
  /-- As `ready`, but another master's write fell into the pull sequence of the command on this pin: no clock may rest on
  it while that command goes on. -/
  | disturbed
  /-- The conditions of R172 are broken for this pin. -/
  | spoiled
  deriving DecidableEq, Repr

/-- One pin's pull (20_memory R45, PULL) and the stage of its latch sequence. -/
structure PinLatch where
  pull : PinPull
  stage : LatchStage
  deriving DecidableEq, Repr

/-- What the last write of PUD is good for (70_reset R172): nothing, a sequence whose settle time has not passed, or a
sequence whose settle time has passed. -/
inductive PudStage where
  | stale | written | settled
  deriving DecidableEq, Repr

/-- The state of the block, of the register block behind its port, and of the inputs around it. -/
structure State where
  /-- BASE (R12). -/
  base : Word
  /-- PHASE (R13). -/
  phase : Phase
  /-- FAULT (R14); none is the value None. -/
  fault : Option FaultKind
  /-- FINFO (R14). -/
  finfo : Word
  /-- BUSY (R15). -/
  busy : Bool
  /-- CMD (R15). -/
  cmd : Word
  /-- The response port (R56): what the last accepted command answered, none from acceptance to response. -/
  response : Option Response
  /-- What the command in progress has still to do; empty while BUSY is 0. -/
  pending : List Work
  /-- The trace (00_scope section 6), oldest event first. -/
  trace : List Event
  /-- Inputs: what the agents do next, first entry first. -/
  inputs : List Input
  /-- Input: the events the block may perform before another agent moves; none is exclusive access (R166). -/
  turn : Option Nat
  /-- Input: the oracle's answers to the coming reads (R44); when there is none left, ENV-REF answers (R45). -/
  answers : List Word
  /-- Input: the delay primitive's answers; when there is none left, every wait is full (R124). -/
  delays : List DelayAnswer
  /-- Input: where the platform maps the register block (R163). -/
  mapped : Word
  /-- The stored registers as bytes (R16 to R20, R35). -/
  mem : List Host.Cell
  /-- OUTL (R45), bit p for pin p. -/
  outl : BitVec 54
  /-- PINS_IN (R45), bit p for pin p. -/
  pinsIn : BitVec 54
  /-- The latched pulls (R22, R45, R172), entry p for pin p. -/
  pins : List PinLatch
  /-- What the last PUD write is good for (R172). -/
  pudStage : PudStage
  /-- The model's own: the next index of the free values. -/
  fresh : Nat
  deriving DecidableEq, Repr

/-- Why the machine stops with a fault. The block's own faults (60_exceptions R140) are not here: they are recorded in
the state and answered, and the machine goes on. -/
inductive Fault where
  /-- Raised by the register port's accessor (Machine/Ops.lean, `perform`) on an access whose bank is not below
  NBANKS of its family: the offset-validated accessor of 00_scope R9 and 20_memory R31 refuses it. Every access of every
  command is well formed (R31), so no command raises it. Safe: the machine stops. -/
  | outsideRegisterBlock
  deriving DecidableEq, Repr

/-- Why the model refuses to go on. -/
inductive Refusal where
  /-- Raised by exec's arm of an instruction that has no meaning yet; no arm is left with it. Safe. -/
  | notModelled (mnemonic : String)
  /-- Raised by the step (Machine/Ops.lean, `advance`, and Machine/Inputs.lean, `takeCommand`) when the block is to work
  with a BASE that breaks 20_memory R32: "A model refuses a configuration that breaks one of these." Safe. -/
  | badConfiguration
  deriving DecidableEq, Repr

/-- The state after reset (R24, R160). DESIGN CHOICE where R24 says unspecified or the field is an input: assumption log
entries 1 to 10. -/
def State.reset : State where
  base := Config.base
  phase := .idle
  fault := none
  finfo := 0#32
  busy := false
  cmd := 0#32
  response := none
  pending := []
  trace := []
  inputs := []
  turn := none
  answers := []
  delays := []
  mapped := Config.base
  mem := []
  outl := 0#54
  pinsIn := 0#54
  pins := List.replicate 54 ⟨.unknown, .touched⟩
  pudStage := .stale
  fresh := 0

end Sys2Proof.Machine
end

