-- ==== Sys2Proof/Machine/Memory.lean ====
section
/-!
DEFINITION. Machine/Memory.lean: the byte cells of the register block and their one canonical form; 32-bit words over
them, little-endian (spec 20_memory R34, R35).
-/

namespace Sys2Proof.Machine

/-- What an unlisted byte reads as. DESIGN CHOICE, unsafe: R24 leaves the register block's contents at reset
unspecified; assumption log 10. -/
def Memory.unlisted : Octet := 0#8

/-- The canonical form: addresses strictly rising and below 2^32, no entry equal to what an unlisted byte reads as. -/
abbrev Memory.wf (m : List Host.Cell) : Prop :=
  m.Pairwise (fun x y => x.1 < y.1) ∧ ∀ c ∈ m, c.1 < 2 ^ 32 ∧ c.2 ≠ Memory.unlisted

/-- The byte at an address. -/
def Memory.read (a : Nat) : List Host.Cell → Octet
  | [] => Memory.unlisted
  | c :: m => if c.1 = a then c.2 else Memory.read a m

/-- Putting a cell at its place in a list that has none at its address. -/
def Memory.place (a : Nat) (v : Octet) : List Host.Cell → List Host.Cell
  | [] => [(a, v)]
  | c :: m => if a < c.1 then (a, v) :: c :: m else c :: Memory.place a v m

/-- Writing a byte; the form stays canonical. -/
def Memory.write (a : Nat) (v : Octet) (m : List Host.Cell) : List Host.Cell :=
  if v = Memory.unlisted then m.filter (fun c => c.1 != a)
  else Memory.place a v (m.filter (fun c => c.1 != a))

/-- The key of byte k of the word at an address (R35). -/
def Memory.key (a : Word) (k : Nat) : Nat := (a + BitVec.ofNat 32 k).toNat

/-- MemRead(addr, 4), little-endian (00_scope section 6, R35). -/
def Memory.readWord (m : List Host.Cell) (a : Word) : Word :=
  (Memory.read (Memory.key a 3) m ++ Memory.read (Memory.key a 2) m
    ++ Memory.read (Memory.key a 1) m ++ Memory.read (Memory.key a 0) m : BitVec 32)

/-- MemWrite(addr, 4, v), little-endian (00_scope section 6, R35). -/
def Memory.writeWord (m : List Host.Cell) (a v : Word) : List Host.Cell :=
  Memory.write (Memory.key a 3) (v.extractLsb' 24 8)
    (Memory.write (Memory.key a 2) (v.extractLsb' 16 8)
      (Memory.write (Memory.key a 1) (v.extractLsb' 8 8)
        (Memory.write (Memory.key a 0) (v.extractLsb' 0 8) m)))

end Sys2Proof.Machine
end

