-- ==== Sys2Proof/Decode.lean ====
section
/-!
DEFINITION. Decode.lean: the command word (spec 30_encoding R50 to R55), the encoder after the decoder, and the text form
of a command (R59).
-/

namespace Sys2Proof

/-- The op field, bits 7:0 (R50). -/
def opField (w : Word) : Octet := w.extractLsb' 0 8

/-- The pin field, bits 15:8 (R50). -/
def pinField (w : Word) : Octet := w.extractLsb' 8 8

/-- The arg field, bits 23:16 (R50). -/
def argField (w : Word) : Octet := w.extractLsb' 16 8

/-- The reserved field, bits 31:24 (R50). -/
def rsvField (w : Word) : Octet := w.extractLsb' 24 8

/-- Why a word is ill formed: the conditions of R54, by name. Every one of them is IllegalCommand (R55). -/
inductive DecodeError where
  /-- R54 (a): bits 31:24 are not 0. -/
  | reservedBitsSet
  /-- R54 (b): the opcode is none of the thirteen. -/
  | reservedOpcode
  /-- R54 (c): a field the row marks "0" is not 0. -/
  | unusedFieldSet
  /-- R54 (d): a mode ordinal above 7. -/
  | modeOrdinal
  /-- R54 (e): a state ordinal above 2. -/
  | stateOrdinal
  deriving DecidableEq, Repr

/-- The FunctionMode an ordinal stands for (R52). -/
def modeOfOrdinal (n : Nat) : Option FunctionMode :=
  match n with
  | 0 => some .input
  | 1 => some .output
  | 2 => some .alt0
  | 3 => some .alt1
  | 4 => some .alt2
  | 5 => some .alt3
  | 6 => some .alt4
  | 7 => some .alt5
  | _ => none

/-- The PullState an ordinal stands for (R52). -/
def stateOfOrdinal (n : Nat) : Option PullState :=
  match n with
  | 0 => some .off
  | 1 => some .pullDown
  | 2 => some .pullUp
  | _ => none

/-- A row whose arg field is marked "0" (R53). -/
def pinOnly (w : Word) (i : Octet → Instr) : Except DecodeError Instr :=
  if argField w = 0#8 then .ok (i (pinField w)) else .error .unusedFieldSet

/-- A row whose pin field is marked "0" and whose arg is a pattern (R53). -/
def patternOnly (w : Word) (i : Octet → Instr) : Except DecodeError Instr :=
  if pinField w = 0#8 then .ok (i (argField w)) else .error .unusedFieldSet

/-- The mode operand of a row that has one (R52, R54 (d)). -/
def withMode (w : Word) (i : FunctionMode → Instr) : Except DecodeError Instr :=
  match modeOfOrdinal (argField w).toNat with
  | some m => .ok (i m)
  | none => .error .modeOrdinal

/-- The state operand of a row that has one (R52, R54 (e)). -/
def withState (w : Word) (i : PullState → Instr) : Except DecodeError Instr :=
  match stateOfOrdinal (argField w).toNat with
  | some st => .ok (i st)
  | none => .error .stateOrdinal

/-- Decoding a word whose reserved field is 0, by its opcode (R53). -/
def decodeByOp (w : Word) : Except DecodeError Instr :=
  match (opField w).toNat with
  | 0x01 => pinOnly w .resolveFsel
  | 0x02 => pinOnly w .resolveBit
  | 0x03 => pinOnly w .resolvePudclk
  | 0x04 => if pinField w = 0#8 then withMode w .encodeFunction else .error .unusedFieldSet
  | 0x05 => patternOnly w .decodeFunction
  | 0x06 => withMode w (.writeFunction (pinField w))
  | 0x07 => pinOnly w .setPin
  | 0x08 => pinOnly w .clearPin
  | 0x09 => pinOnly w .readLevel
  | 0x0A => withState w (.configurePull (pinField w))
  | 0x10 => if pinField w = 0#8 then withState w .encodePull else .error .unusedFieldSet
  | 0x11 => patternOnly w .decodePull
  | 0x12 => pinOnly w .readFunction
  | _ => .error .reservedOpcode

/-- The decoder: total on the 32-bit words (R58); an ill-formed word is refused by the name of the condition it breaks. -/
def decode (w : Word) : Except DecodeError Instr :=
  if rsvField w = 0#8 then decodeByOp w else .error .reservedBitsSet

/-- The ordinal a FunctionMode is carried as (R52). -/
def modeOrdinal (m : FunctionMode) : Nat :=
  match m with
  | .input => 0
  | .output => 1
  | .alt0 => 2
  | .alt1 => 3
  | .alt2 => 4
  | .alt3 => 5
  | .alt4 => 6
  | .alt5 => 7

/-- The ordinal a PullState is carried as (R52). -/
def stateOrdinal (st : PullState) : Nat :=
  match st with
  | .off => 0
  | .pullDown => 1
  | .pullUp => 2

/-- A command word from its fields, rsv 0 (R50). -/
def commandWord (op pin arg : Octet) : Word := (0#8 ++ arg ++ pin ++ op : BitVec 32)

/-- The encoder (R50, R52, R53). -/
def encode (i : Instr) : Word :=
  match i with
  | .resolveFsel pin => commandWord 0x01 pin 0
  | .resolveBit pin => commandWord 0x02 pin 0
  | .resolvePudclk pin => commandWord 0x03 pin 0
  | .encodeFunction m => commandWord 0x04 0 (BitVec.ofNat 8 (modeOrdinal m))
  | .decodeFunction p => commandWord 0x05 0 p
  | .writeFunction pin m => commandWord 0x06 pin (BitVec.ofNat 8 (modeOrdinal m))
  | .setPin pin => commandWord 0x07 pin 0
  | .clearPin pin => commandWord 0x08 pin 0
  | .readLevel pin => commandWord 0x09 pin 0
  | .configurePull pin st => commandWord 0x0A pin (BitVec.ofNat 8 (stateOrdinal st))
  | .encodePull st => commandWord 0x10 0 (BitVec.ofNat 8 (stateOrdinal st))
  | .decodePull p => commandWord 0x11 0 p
  | .readFunction pin => commandWord 0x12 pin 0

/-- The command of a table row: the decoder's answer on the word with the given bits, the bits above nbits 0. A command
is one 32-bit word (R50), so bit 0 of the table's numbering is bit 0 of the word. -/
def decodeTableWord (nbits w : Nat) : Option Instr :=
  match decode (BitVec.ofNat 32 (w % 2 ^ nbits)) with
  | .ok i => some i
  | .error _ => none

/-! The text form of a command (R59): the source's operation name, then the operands separated by a comma. -/

/-- The line up to its comment. -/
def textBody : List Char → List Char
  | [] => []
  | c :: cs => if c = ';' then [] else c :: textBody cs

/-- The tokens of a line: words, and each comma by itself. `acc` is the word being read. -/
def tokens : List Char → List Char → List (List Char)
  | [], acc => if acc.isEmpty then [] else [acc]
  | c :: cs, acc =>
    if c = ' ' then (if acc.isEmpty then tokens cs [] else acc :: tokens cs [])
    else if c = ',' then (if acc.isEmpty then [','] :: tokens cs [] else acc :: [','] :: tokens cs [])
    else tokens cs (acc ++ [c])

/-- Reading a numeral of a radix up to ten, `acc` being the value so far. -/
def digits (radix : Nat) : List Char → Nat → Option Nat
  | [], acc => some acc
  | c :: cs, acc =>
    if '0'.toNat ≤ c.toNat ∧ c.toNat < '0'.toNat + radix
    then digits radix cs (acc * radix + (c.toNat - '0'.toNat)) else none

/-- A decimal number of 0 to 255, the range of an operand field (R59). -/
def decimalText (t : List Char) : Option Octet :=
  if t.isEmpty then none
  else match digits 10 t 0 with
    | some n => if n < 256 then some (BitVec.ofNat 8 n) else none
    | none => none

/-- A raw arg value, written with a number sign (R59). -/
def rawText : List Char → Option Octet
  | '#' :: t => decimalText t
  | _ => none

/-- A pattern: a binary literal or a decimal number, or a raw arg value (R59). -/
def patternText : List Char → Option Octet
  | '0' :: 'b' :: t =>
    if t.isEmpty then none
    else match digits 2 t 0 with
      | some n => if n < 256 then some (BitVec.ofNat 8 n) else none
      | none => none
  | t => if (rawText t).isSome then rawText t else decimalText t

/-- A mode by its name, or a raw arg value (R59). -/
def modeText (t : List Char) : Option Octet :=
  if t = "Input".toList then some 0
  else if t = "Output".toList then some 1
  else if t = "Alt0".toList then some 2
  else if t = "Alt1".toList then some 3
  else if t = "Alt2".toList then some 4
  else if t = "Alt3".toList then some 5
  else if t = "Alt4".toList then some 6
  else if t = "Alt5".toList then some 7
  else rawText t

/-- A pull state by its name, or a raw arg value (R59). -/
def stateText (t : List Char) : Option Octet :=
  if t = "Off".toList then some 0
  else if t = "PullDown".toList then some 1
  else if t = "PullUp".toList then some 2
  else rawText t

/-- The operands that follow a name: pin and arg carriers, in the order of R59. -/
inductive TextForm where
  | pin | mode | state | pattern | pinMode | pinState
  deriving DecidableEq, Repr

/-- The opcode and operand form of each operation name (R53, R59). -/
def textRows : List (String × Octet × TextForm) :=
  [("resolve_function_select", 0x01, .pin), ("resolve_bit_register", 0x02, .pin), ("resolve_pudclk", 0x03, .pin),
   ("encode_function", 0x04, .mode), ("decode_function", 0x05, .pattern), ("write_function", 0x06, .pinMode),
   ("set_pin", 0x07, .pin), ("clear_pin", 0x08, .pin), ("read_level", 0x09, .pin), ("configure_pull", 0x0A, .pinState),
   ("encode_pull", 0x10, .state), ("decode_pull", 0x11, .pattern), ("read_function", 0x12, .pin)]

/-- The pin and arg fields a form's operand tokens stand for. -/
def operandText (form : TextForm) (ts : List (List Char)) : Option (Octet × Octet) :=
  match form, ts with
  | .pin, [p] => (decimalText p).map fun pin => (pin, 0#8)
  | .mode, [a] => (modeText a).map fun arg => (0#8, arg)
  | .state, [a] => (stateText a).map fun arg => (0#8, arg)
  | .pattern, [a] => (patternText a).map fun arg => (0#8, arg)
  | .pinMode, [p, [','], a] => (decimalText p).bind fun pin => (modeText a).map fun arg => (pin, arg)
  | .pinState, [p, [','], a] => (decimalText p).bind fun pin => (stateText a).map fun arg => (pin, arg)
  | _, _ => none

/-- The command word a line of text stands for (R59); none for a line that is not of the form. A raw arg may make the
word ill formed, as R59's table shows. -/
def assemble (line : String) : Option Word :=
  match tokens (textBody line.toList) [] with
  | name :: ts =>
    match textRows.find? (fun r => r.1.toList = name) with
    | some r => (operandText r.2.2 ts).map fun f => commandWord r.2.1 f.1 f.2
    | none => none
  | [] => none

end Sys2Proof
end

