-- ==== Sys2Proof/Machine/Operands.lean ====
section
/-!
DEFINITION. Machine/Operands.lean: the Pin Locator's functions (spec 40_pin_locator), the Field Codec's value tables
(41_field_codec), and the field of a register word.
-/

namespace Sys2Proof.Machine

/-- A resolved location, the source's RegisterField (00_scope glossary). Never held in the state (10_state R23). -/
structure Location where
  bank : Nat
  shift : Nat
  width : Nat
  deriving DecidableEq, Repr

/-- The result word of a locator command (30_encoding R56). -/
def locationWord (l : Location) : Word :=
  (BitVec.ofNat 32 l.width <<< 16) ||| (BitVec.ofNat 32 l.bank <<< 8) ||| BitVec.ofNat 32 l.shift

/-- resolve_function_select (R70). The pin check comes before any arithmetic (R142). -/
def resolveFunctionSelect (pin : Octet) : Except FaultKind Location :=
  if pin.toNat > 53 then .error .invalidPin
  else .ok { bank := pin.toNat / 10, shift := pin.toNat % 10 * 3, width := 3 }

/-- resolve_bit_register (R71, R72). -/
def resolveBitRegister (pin : Octet) : Except FaultKind Location :=
  if pin.toNat > 53 then .error .invalidPin
  else .ok { bank := pin.toNat / 32, shift := pin.toNat % 32, width := 1 }

/-- resolve_pudclk (R73). -/
def resolvePudclk (pin : Octet) : Except FaultKind Location :=
  if pin.toNat > 53 then .error .invalidPin
  else .ok { bank := pin.toNat / 32, shift := pin.toNat % 32, width := 1 }

/-- encode_function, the table of R80 (R81). -/
def encodeFunction (m : FunctionMode) : BitVec 3 :=
  match m with
  | .input => 0b000#3
  | .output => 0b001#3
  | .alt0 => 0b100#3
  | .alt1 => 0b101#3
  | .alt2 => 0b110#3
  | .alt3 => 0b111#3
  | .alt4 => 0b011#3
  | .alt5 => 0b010#3

/-- decode_function (R82): the check stays, although a 3-bit pattern always passes it. -/
def decodeFunction (pattern : Nat) : Except FaultKind FunctionMode :=
  match pattern with
  | 0b000 => .ok .input
  | 0b001 => .ok .output
  | 0b010 => .ok .alt5
  | 0b011 => .ok .alt4
  | 0b100 => .ok .alt0
  | 0b101 => .ok .alt1
  | 0b110 => .ok .alt2
  | 0b111 => .ok .alt3
  | _ => .error .unknownEncoding

/-- encode_pull, the table of R84 (R85). -/
def encodePull (st : PullState) : BitVec 2 :=
  match st with
  | .off => 0b00#2
  | .pullDown => 0b01#2
  | .pullUp => 0b10#2

/-- decode_pull (R86). -/
def decodePull (pattern : Nat) : Except FaultKind PullState :=
  match pattern with
  | 0b00 => .ok .off
  | 0b01 => .ok .pullDown
  | 0b10 => .ok .pullUp
  | _ => .error .unknownEncoding

/-- The 3-bit field of a word at a shift: (v >> shift) & 0b111 (R102). -/
def fieldAt (v : Word) (shift : Nat) : BitVec 3 := v.extractLsb' shift 3

/-- The word with the field at a shift replaced: (old & ~mask) | (pattern << shift) (R101). -/
def insertField (old : Word) (shift : Nat) (pattern : BitVec 3) : Word :=
  (old &&& ~~~(0b111#32 <<< shift)) ||| (pattern.setWidth 32 <<< shift)

/-- The word with a single 1, at a shift (R103, R104, R121). -/
def oneBit (shift : Nat) : Word := 1#32 <<< shift

/-- READ_LEVEL's result: 1 if (v & (1 << shift)) is not 0, else 0 (R105). -/
def levelBit (v : Word) (shift : Nat) : Word := if v &&& oneBit shift ≠ 0#32 then 1#32 else 0#32

/-- The word PUD is given for a state, the pattern zero-extended (R121 (1)). -/
def pullWord (st : PullState) : Word := (encodePull st).setWidth 32

/-- The pin a command word names (R50), as a number. -/
def commandPin (w : Word) : Nat := (pinField w).toNat

/-- The word a CONFIGURE_PULL writes to PUD first, from the state ordinal in its command word (R121 (1)). -/
def commandPattern (w : Word) : Option Word := (stateOfOrdinal (argField w).toNat).map pullWord

end Sys2Proof.Machine
end

