-- ==== Sys2Proof/Machine/Port.lean ====
section
/-!
DEFINITION. Machine/Port.lean: the register port's address map (spec 20_memory R31 to R33) and the check of a
configuration (R32).
-/

namespace Sys2Proof.Machine

/-- NBANKS(f) (R31). -/
def nbanks (f : Family) : Nat :=
  match f with
  | .fsel => 6
  | .pud => 1
  | _ => 2

/-- OFFSET(f), the default table (R33). Assumption log 1. -/
def offset (f : Family) : Nat :=
  match f with
  | .fsel => 0x00
  | .set => 0x1C
  | .clr => 0x28
  | .lev => 0x34
  | .eds => 0x40
  | .ren => 0x4C
  | .fen => 0x58
  | .hen => 0x64
  | .len => 0x70
  | .aren => 0x7C
  | .afen => 0x88
  | .pud => 0x94
  | .pudclk => 0x98

/-- The families, in the order of 10_state R16. -/
def families : List Family :=
  [.fsel, .set, .clr, .lev, .eds, .ren, .fen, .hen, .len, .aren, .afen, .pud, .pudclk]

/-- The 29 registers of the register block (R16, R46). -/
def registers : List (Family × Nat) :=
  families.flatMap fun f => (List.range (nbanks f)).map fun b => (f, b)

/-- ADDR(f, b) = BASE + OFFSET(f) + 4 * b, in 32-bit unsigned arithmetic (R32). -/
def addr (base : Word) (f : Family) (b : Nat) : Word := base + BitVec.ofNat 32 (offset f + 4 * b)

/-- The register at an address, when the register block is mapped at `mapped`; none where it is not (R163). -/
def locate (mapped a : Word) : Option (Family × Nat) :=
  registers.find? fun r => addr mapped r.1 r.2 == a

/-- R32's conditions on a BASE: a multiple of 4, and no family wraps around. -/
def baseOk (base : Word) : Bool :=
  base.toNat % 4 == 0 && families.all fun f => decide (base.toNat + offset f + 4 * nbanks f ≤ 2 ^ 32)

/-- R32's conditions on the table OFFSET: multiples of 4, and the 29 addresses pairwise distinct. -/
def tableOk : Bool :=
  families.all (fun f => offset f % 4 == 0) && decide (registers.map fun r => offset r.1 + 4 * r.2).Nodup

/-- R32: a model refuses a configuration that breaks one of the conditions. -/
def configOk (base : Word) : Bool := baseOk base && tableOk

end Sys2Proof.Machine
end

