-- ==== Sys2Proof/Machine/Controller.lean ====
section
/-!
DEFINITION. Machine/Controller.lean: the register block behind the port. Reads and writes are those of ENV-REF (spec
20_memory R45), which satisfies R40 to R42; the latched pulls follow the conditions of 70_reset R172, which R45 names
for a model with several agents, in the place of ENV-REF's own pull update.
-/

namespace Sys2Proof.Machine

/-- The stored word of a register of a storing family (R45). -/
def stored (f : Family) (b : Nat) (s : State) : Word := Memory.readWord s.mem (addr s.mapped f b)

/-- Storing a word in a register of a storing family (R45). -/
def store (f : Family) (b : Nat) (v : Word) (s : State) : State :=
  { s with mem := Memory.writeWord s.mem (addr s.mapped f b) v }

/-- field(p), the pin's function field (R45). -/
def pinField3 (p : Nat) (s : State) : BitVec 3 := fieldAt (stored .fsel (p / 10) s) (p % 10 * 3)

/-- The level LEV shows of pin p (R45): OUTL for an Output, the outside world otherwise, 0 where there is no pin. -/
def pinLevel (s : State) (p : Nat) : Bool :=
  if p > 53 then false
  else if pinField3 p s = 0b001#3 then s.outl.getLsbD p
  else s.pinsIn.getLsbD p

/-- The word of n bits whose bit i is `g i`. -/
def bitsOf (g : Nat → Bool) : (n : Nat) → BitVec n
  | 0 => 0#0
  | n + 1 => BitVec.cons (g n) (bitsOf g n)

/-- What the register block answers to a read (R45). -/
def ctrlRead (f : Family) (b : Nat) (s : State) : Word :=
  match f with
  | .set => 0#32
  | .clr => 0#32
  | .lev => bitsOf (fun i => pinLevel s (32 * b + i)) 32
  | _ => stored f b s

/-- The pins a written word names in bank b of a single-bit family: bit p for pin p = 32 * b + i with v[i] = 1,
p at most 53 (R18, R45). -/
def pinMask (b : Nat) (v : Word) : BitVec 54 := (v.setWidth 64 <<< (32 * b)).setWidth 54

/-- The pull state a PUD word is the pattern of, bits 31:2 zero (R121 (1), R172); none for the reserved pattern 11 and
for a word with a bit above 1 (93_implementation_defined U1, U8). -/
def pudPattern (v : Word) : Option PullState :=
  if v = pullWord .off then some .off
  else if v = pullWord .pullDown then some .pullDown
  else if v = pullWord .pullUp then some .pullUp
  else none

/-- The pull a pin has when it reliably takes a state (R172). -/
def takenPull (st : PullState) : PinPull :=
  match st with
  | .off => .off
  | .pullDown => .pullDown
  | .pullUp => .pullUp

/-- Changing every pin's entry, `f p` at entry p; `p` is the number of the list's first entry. -/
def mapPins (f : Nat → PinLatch → PinLatch) : Nat → List PinLatch → List PinLatch
  | _, [] => []
  | p, l :: ls => f p l :: mapPins f (p + 1) ls

/-- A pin's clock bit, in the stored PUDCLK words (R20). -/
def clockBit (p : Nat) (s : State) : Bool := (stored .pudclk (p / 32) s).getLsbD (p % 32)

/-- One pin's entry after a write of PUD (R172): `clk` its clock bit, `free` the free value it takes where the sequence
breaks. A pin whose clock is not asserted keeps its pull; a pin whose clock is asserted reliably stays in its sequence
only where PUD goes to 0 after both settle times. -/
def latchOnPud (v : Word) (clk : Bool) (free : PinPull) (l : PinLatch) : PinLatch :=
  match clk, l.stage with
  | false, _ => { l with stage := .ready }
  | true, .clocked st true => if v = 0#32 then { l with stage := .released st } else ⟨free, .spoiled⟩
  | true, _ => ⟨free, .spoiled⟩

/-- One pin's entry after a write of its PUDCLK bit (R172): `bit` the bit written, `pattern` the settled pattern in PUD,
if there is one. Between the assertion of the clock and the end of the sequence the pull is a free value
(91_not_in_source N18). -/
def latchOnClock (bit : Bool) (pattern : Option PullState) (free : PinPull) (l : PinLatch) : PinLatch :=
  match bit, l.stage, pattern with
  | true, .ready, some st => ⟨free, .clocked st false⟩
  | true, _, _ => ⟨free, .spoiled⟩
  | false, .released st, _ => ⟨takenPull st, .touched⟩
  | false, .clocked _ _, _ => ⟨free, .touched⟩
  | false, .spoiled, _ => ⟨free, .touched⟩
  | false, .ready, _ => { l with stage := .touched }
  | false, .disturbed, _ => { l with stage := .touched }
  | false, .touched, _ => l

/-- One pin's entry when the settle time has passed (R172). -/
def latchOnSettle (l : PinLatch) : PinLatch :=
  match l.stage with
  | .clocked st _ => { l with stage := .clocked st true }
  | _ => l

/-- The free pull of pin p for the coming event. -/
def freePull (s : State) (p : Nat) : PinPull := Config.freePull (s.fresh + p)

/-- The latches after a write of PUD. -/
def pudWritten (v : Word) (s : State) : State :=
  { s with
    pins := mapPins (fun p l => latchOnPud v (clockBit p s) (freePull s p) l) 0 s.pins
    pudStage := .written
    fresh := s.fresh + 54 }

/-- The settled pattern in PUD, if its write is one a sequence may rest on (R172). -/
def settledPattern (s : State) : Option PullState :=
  match s.pudStage with
  | .settled => pudPattern (stored .pud 0 s)
  | _ => none

/-- The latches after a write of PUDCLK[b]: the pins of the bank only. -/
def clockWritten (b : Nat) (v : Word) (s : State) : State :=
  { s with
    pins := mapPins (fun p l =>
      if p / 32 = b then latchOnClock (v.getLsbD (p % 32)) (settledPattern s) (freePull s p) l else l) 0 s.pins
    fresh := s.fresh + 54 }

/-- The settle time passes with no write in between (R172). A PUD write no sequence may rest on stays so. -/
def settlePasses (s : State) : State :=
  { s with
    pins := mapPins (fun _ l => latchOnSettle l) 0 s.pins
    pudStage := match s.pudStage with
      | .stale => .stale
      | _ => .settled }

/-- The register block takes a write (R45; R172 for PUD and PUDCLK). -/
def ctrlWrite (f : Family) (b : Nat) (v : Word) (s : State) : State :=
  match f with
  | .set => { s with outl := s.outl ||| pinMask b v }
  | .clr => { s with outl := s.outl &&& ~~~(pinMask b v) }
  | .lev => s
  | .pud => store .pud b v (pudWritten v s)
  | .pudclk => store .pudclk b v (clockWritten b v s)
  | _ => store f b v s

/-- The pins whose clock is asserted are in no latch sequence any more (43_pull_protocol R127): the write of PUD that comes
next leaves their pulls free, whatever word it carries. -/
def staleClocks (s : State) : State :=
  { s with pins := mapPins (fun p l => if clockBit p s then { l with stage := .spoiled } else l) 0 s.pins }

/-- A pin's stage when another master's write falls into the pull sequence (R172): the command's own clock may not rest on
what the sequence has done for the pin. -/
def disturbedStage (l : LatchStage) : LatchStage :=
  match l with
  | .ready => .disturbed
  | .disturbed => .disturbed
  | _ => .spoiled

/-- The stage of the command's pin when reset cuts the sequence (R162): an asserted clock is worth nothing any more; a clock
bit not written since the last PUD write is that again. -/
def cutStage (l : LatchStage) : LatchStage :=
  match l with
  | .ready => .ready
  | .disturbed => .ready
  | _ => .spoiled

/-- The pulls of the pins named become undefined, and their stages `stage` of what they were (R162, R172). -/
def spoilPins (hit : Nat → Bool) (stage : LatchStage → LatchStage) (s : State) : State :=
  { s with
    pins := mapPins (fun p l => if hit p then ⟨freePull s p, stage l.stage⟩ else l) 0 s.pins
    fresh := s.fresh + 54 }

end Sys2Proof.Machine
end

