-- ==== Sys2Proof/Machine/Flags.lean ====
section
/-!
DEFINITION. Machine/Flags.lean: the block has no condition codes, and no successful command sets a flag (spec 10_state
R14). Its only status values are the response's codes (30_encoding R56) and what a fault answers (60_exceptions R140).
-/

namespace Sys2Proof.Machine

/-- The 3-bit status code (R56). -/
def statusCode (s : Status) : BitVec 3 :=
  match s with
  | .ok => 0#3
  | .invalidPin => 1#3
  | .unknownEncoding => 2#3
  | .illegalCommand => 3#3
  | .faulted => 4#3

/-- The status a fault is answered with, code(F) (R140, R146). -/
def faultStatus (k : FaultKind) : Status :=
  match k with
  | .invalidPin => .invalidPin
  | .unknownEncoding => .unknownEncoding
  | .illegalCommand => .illegalCommand

end Sys2Proof.Machine
end

