-- ==== Sys2Proof/Machine/Ops.lean ====
section
/-!
DEFINITION. Machine/Ops.lean: the pseudocode primitives of spec 00_scope section 6 (RegRead, RegWrite, Delay, respond,
raise), the events of a command one by one, the acceptance of a command (30_encoding R57), fault entry (60_exceptions
R146), reset (70_reset R160 to R162) and the other masters (R170 to R172).
-/

namespace Sys2Proof.Machine

/-- Recording an event in the trace (00_scope section 6). -/
def logEvent (e : Event) (s : State) : State := { s with trace := s.trace ++ [e] }

/-- What the command in progress has left to do. -/
def setPending (ws : List Work) (s : State) : State := { s with pending := ws }

/-- The events the block may perform before another agent moves. -/
def setTurn (k : Option Nat) (s : State) : State := { s with turn := k }

/-- The inputs still to come. -/
def setInputs (is : List Input) (s : State) : State := { s with inputs := is }

/-- The word a RegRead returns (R44, R45): the oracle's next answer; where the oracle gives none, what the register
block answers at ADDR(f, b); a free value where BASE points elsewhere (70_reset R163). -/
def answer (f : Family) (b : Nat) (s : State) : Word :=
  match s.answers with
  | v :: _ => v
  | [] =>
    match locate s.mapped (addr s.base f b) with
    | some r => ctrlRead r.1 r.2 s
    | none => Config.elsewhere s.fresh

/-- An answer is given once: the oracle's answer and the free value are used up. A read has no other effect (R42). -/
def answerUsed (s : State) : State := { s with answers := s.answers.tail, fresh := s.fresh + 1 }

/-- RegRead(f, b): one read and its event. The value read is `answer f b s`. -/
def regRead (f : Family) (b : Nat) (s : State) : State := logEvent (.rd f b (answer f b s)) (answerUsed s)

/-- A write arrives at an address of the port: the register there takes it; where the register block is not, nothing of
this state changes (70_reset R163; assumption log 8). -/
def portWrite (a v : Word) (s : State) : State :=
  match locate s.mapped a with
  | some r => ctrlWrite r.1 r.2 v s
  | none => s

/-- RegWrite(f, b, v): one write and its event (R30, R32). -/
def regWrite (f : Family) (b : Nat) (v : Word) (s : State) : State :=
  portWrite (addr s.base f b) v (logEvent (.wr f b v) s)

/-- Delay(SETTLE) (43_pull_protocol R124): the event, then the settle time passes if the primitive waited it out; a
short wait (70_reset R164) lets no settle time pass. -/
def delaySettle (s : State) : State :=
  let waited := { logEvent (.dly .settle) s with delays := s.delays.tail }
  match s.delays with
  | .short :: _ => waited
  | _ => settlePasses waited

/-- respond(status, result) (R56, R57): the event, the response port, BUSY. CMD keeps the word of the command answered: DESIGN
CHOICE, since R15 holds CMD only while BUSY is 1 and R24 calls it meaningless otherwise; assumption log 2. -/
def respond (st : Status) (r : Word) (s : State) : State :=
  { logEvent (.rsp st r) s with response := some ⟨st, r⟩, busy := false }

/-- raise F(CMD) (R146): FAULT, FINFO, then the response with code(F) and result 0. -/
def raiseFault (k : FaultKind) (s : State) : State :=
  respond (faultStatus k) 0#32 { s with fault := some k, finfo := s.cmd }

/-- The command goes on with these. -/
def goOn (ws : List Work) (s : State) : State := setPending (ws ++ s.pending) s

/-- Ending a command that has decoded a field of a register: OK with the ordinal, or the fault (R102). -/
def answerMode (r : Except FaultKind FunctionMode) : Work :=
  match r with
  | .ok m => .respond .ok (BitVec.ofNat 32 (modeOrdinal m))
  | .error k => .raise k

/-- PHASE after an event that may move it (R122). -/
def setPhase (p : Option Phase) (s : State) : State :=
  match p with
  | some ph => { s with phase := ph }
  | none => s

/-- What a command's PUD pattern meets (43_pull_protocol R127). The write after which PHASE is PudWritten is the first of
CONFIGURE_PULL (R122): a pin whose clock is already asserted takes, or half takes, its pattern, where BASE reaches the
register block. -/
def meetClocks (after : Option Phase) (s : State) : State :=
  match after with
  | some .pudWritten => if s.base = s.mapped then staleClocks s else s
  | _ => s

/-- One event of the block (70_reset R170). An access whose bank is outside its family is not made (R9, R31). -/
def perform (w : Work) (s : State) : Host.Outcome State Fault Refusal :=
  match w with
  | .readModify b shift pattern =>
    if b < nbanks .fsel then
      .next (goOn [.write .fsel b (insertField (answer .fsel b s) shift pattern) none, .respond .ok 0#32]
        (regRead .fsel b s))
    else .fault .outsideRegisterBlock
  | .readField b shift =>
    if b < nbanks .fsel then
      .next (goOn [answerMode (decodeFunction (fieldAt (answer .fsel b s) shift).toNat)] (regRead .fsel b s))
    else .fault .outsideRegisterBlock
  | .readBit b shift =>
    if b < nbanks .lev then
      .next (goOn [.respond .ok (levelBit (answer .lev b s) shift)] (regRead .lev b s))
    else .fault .outsideRegisterBlock
  | .write f b v after =>
    if b < nbanks f then .next (setPhase after (regWrite f b v (meetClocks after s))) else .fault .outsideRegisterBlock
  | .delay => .next (delaySettle s)
  | .respond st r => .next (respond st r s)
  | .raise k => .next (raiseFault k s)

/-- How many events a piece of work stands for, the ones it leaves included. -/
def cost (w : Work) : Nat :=
  match w with
  | .readModify _ _ _ => 3
  | .readField _ _ => 2
  | .readBit _ _ => 2
  | _ => 1

/-- The block performs up to n events of the command in progress, in order (R36). -/
def runEvents : Nat → State → Host.Outcome State Fault Refusal
  | 0, s => .next s
  | n + 1, s =>
    match s.pending with
    | [] => .next s
    | w :: ws =>
      match perform w (setPending ws s) with
      | .next t => runEvents n t
      | .fault r => .fault r
      | .refused r => .refused r

/-- The block's turn: all that is left of the command in progress, or the given number of events (R170). -/
def takeTurn (s : State) : Host.Outcome State Fault Refusal :=
  match s.turn with
  | none => runEvents (s.pending.map cost).sum s
  | some k => runEvents k (setTurn none s)

/-- Acceptance of a command word: BUSY, CMD; nothing is answered yet (R57). -/
def accept (w : Word) (s : State) : State := { s with busy := true, cmd := w, response := none }

/-- The host issues a word whose execution is `work`. While BUSY is 1 the block accepts none (R15, R57). An accepted
word is refused with status Faulted when FAULT is not None (R148), and executed otherwise. -/
def issueWord (w : Word) (work : List Work) (s : State) : Host.Outcome State Fault Refusal :=
  if s.busy then .next s
  else
    match s.fault with
    | some _ => takeTurn (setPending [.respond .faulted 0#32] (accept w s))
    | none => takeTurn (setPending work (accept w s))

/-- The host issues a command (R58: its word is the encoder's). -/
def issue (i : Instr) (work : List Work) (s : State) : Host.Outcome State Fault Refusal := issueWord (encode i) work s

/-- The host issues an ill-formed word: IllegalCommand (R55, R57 (2), R144). -/
def issueIllegal (w : Word) (s : State) : Host.Outcome State Fault Refusal := issueWord w [.raise .illegalCommand] s

/-- A command that begins with a locator function: its fault, or the work at the location (R100, R142). -/
def atLocation (r : Except FaultKind Location) (work : Location → List Work) : List Work :=
  match r with
  | .ok l => work l
  | .error k => [.raise k]

/-- The block goes on with a command in progress, if the configuration is one of R32; with none it has nothing to do. -/
def advance (events : Option Nat) (s : State) : Host.Outcome State Fault Refusal :=
  if s.busy then
    if configOk s.base then takeTurn (setTurn events s) else .refused .badConfiguration
  else .next s

/-- Whether PUD still holds the pattern of the CONFIGURE_PULL in progress (R162). -/
def pudHoldsPattern (s : State) : Bool := commandPattern s.cmd == some (stored .pud 0 s)

/-- Reset taken while the pull sequence runs (R162): the pull of the command's pin is undefined, and while PUD still holds
the command's pattern no later clock may rest on it. Where PUD has been written back to 0 or rewritten by another master,
a later clock follows R172. -/
def sequenceCut (s : State) : State :=
  match s.phase with
  | .idle => s
  | _ => { spoilPins (fun p => p == commandPin s.cmd) cutStage s with
      pudStage := if pudHoldsPattern s then .stale else s.pudStage }

/-- Reset with a word on the base-address input (R160): the block's state is as 10_state R24 says and the command in
progress is abandoned; no register access and no delay (R161). -/
def hostReset (base : Word) (s : State) : State :=
  { sequenceCut s with
    base := base
    phase := .idle
    fault := none
    finfo := 0#32
    busy := false
    cmd := 0#32
    response := none
    pending := []
    turn := none }

/-- The pins whose pull another master's write leaves undefined when it falls into the pull sequence (R172): for a pull
register the command's pin, and every pin whose PUDCLK bit the write asserts. -/
def brokenPins (f : Family) (b : Nat) (v : Word) (cmd : Word) (p : Nat) : Bool :=
  p == commandPin cmd || (f == .pudclk && p / 32 == b && v.getLsbD (p % 32))

/-- Whether a CONFIGURE_PULL has made its first event and not yet its last, the response (R172, 43_pull_protocol R120):
PHASE is not Idle, or only the response of a CONFIGURE_PULL is left. -/
def inPullSequence (s : State) : Bool :=
  s.phase != .idle || (s.busy && (opField s.cmd).toNat == 0x0A && s.pending == [.respond .ok 0#32])

/-- Another master's write falls into the pull sequence (R172). -/
def sequenceBroken (f : Family) (b : Nat) (v : Word) (s : State) : State :=
  if inPullSequence s = true ∧ (f = .pud ∨ f = .pudclk) then spoilPins (brokenPins f b v s.cmd) disturbedStage s else s

/-- Another master acts (R170 to R172). It reaches the register block where the platform mapped it; a bank outside the
family is no register of the block. A read changes nothing here (R42; R45 for the other families). -/
def masterAct (a : MasterAccess) (s : State) : State :=
  match a with
  | .read _ _ => s
  | .write f b v => if b < nbanks f then sequenceBroken f b v (ctrlWrite f b v s) else s
  | .settle => settlePasses s

end Sys2Proof.Machine
end

