-- ==== Sys2Proof/Machine/Codec.lean ====
section
/-!
DEFINITION. Machine/Codec.lean: the four pure commands over the value tables (spec 41_field_codec R81, R82, R85, R86).
-/

namespace Sys2Proof.Machine

/-- ENCODE_FUNCTION (R81). -/
def execEncodeFunction (mode : FunctionMode) (s : State) : Host.Outcome State Fault Refusal :=
  issue (.encodeFunction mode) [.respond .ok ((encodeFunction mode).setWidth 32)] s

/-- DECODE_FUNCTION (R82). -/
def execDecodeFunction (pattern : Octet) (s : State) : Host.Outcome State Fault Refusal :=
  issue (.decodeFunction pattern) [answerMode (decodeFunction pattern.toNat)] s

/-- ENCODE_PULL (R85). -/
def execEncodePull (state : PullState) (s : State) : Host.Outcome State Fault Refusal :=
  issue (.encodePull state) [.respond .ok ((encodePull state).setWidth 32)] s

/-- Ending DECODE_PULL: OK with the ordinal, or the fault (R86). -/
def answerPull (r : Except FaultKind PullState) : Work :=
  match r with
  | .ok st => .respond .ok (BitVec.ofNat 32 (stateOrdinal st))
  | .error k => .raise k

/-- DECODE_PULL (R86). -/
def execDecodePull (pattern : Octet) (s : State) : Host.Outcome State Fault Refusal :=
  issue (.decodePull pattern) [answerPull (decodePull pattern.toNat)] s

end Sys2Proof.Machine
end

