-- ==== Sys2Proof/Machine/Locator.lean ====
section
/-!
DEFINITION. Machine/Locator.lean: the three locator commands (spec 40_pin_locator R70, R71, R73). No register access.
-/

namespace Sys2Proof.Machine

/-- RESOLVE_FSEL (R70). -/
def execResolveFsel (pin : Octet) (s : State) : Host.Outcome State Fault Refusal :=
  issue (.resolveFsel pin) (atLocation (resolveFunctionSelect pin) fun l => [.respond .ok (locationWord l)]) s

/-- RESOLVE_BIT (R71). -/
def execResolveBit (pin : Octet) (s : State) : Host.Outcome State Fault Refusal :=
  issue (.resolveBit pin) (atLocation (resolveBitRegister pin) fun l => [.respond .ok (locationWord l)]) s

/-- RESOLVE_PUDCLK (R73). -/
def execResolvePudclk (pin : Octet) (s : State) : Host.Outcome State Fault Refusal :=
  issue (.resolvePudclk pin) (atLocation (resolvePudclk pin) fun l => [.respond .ok (locationWord l)]) s

end Sys2Proof.Machine
end

