-- ==== Sys2Proof/Machine/Pull.lean ====
section
/-!
DEFINITION. Machine/Pull.lean: the pull-configuration latching protocol (spec 43_pull_protocol R120 to R126).
-/

namespace Sys2Proof.Machine

/-- The seven events of CONFIGURE_PULL and its three PHASE transitions (R120, R121, R122). -/
def pullSequence (st : PullState) (l : Location) : List Work :=
  [.write .pud 0 (pullWord st) (some .pudWritten),
   .delay,
   .write .pudclk l.bank (oneBit l.shift) (some .clockAsserted),
   .delay,
   .write .pud 0 0#32 none,
   .write .pudclk l.bank 0#32 (some .idle),
   .respond .ok 0#32]

/-- CONFIGURE_PULL (R120). -/
def execConfigurePull (pin : Octet) (state : PullState) (s : State) : Host.Outcome State Fault Refusal :=
  issue (.configurePull pin state) (atLocation (resolvePudclk pin) (pullSequence state)) s

end Sys2Proof.Machine
end

