-- ==== Sys2Proof/Machine/RegisterOps.lean ====
section
/-!
DEFINITION. Machine/RegisterOps.lean: the commands that touch the register block with at most two accesses (spec
42_register_ops R100 to R105).
-/

namespace Sys2Proof.Machine

/-- WRITE_FUNCTION (R101): one read, then one write of the same register. -/
def execWriteFunction (pin : Octet) (mode : FunctionMode) (s : State) : Host.Outcome State Fault Refusal :=
  issue (.writeFunction pin mode)
    (atLocation (resolveFunctionSelect pin) fun l => [.readModify l.bank l.shift (encodeFunction mode)]) s

/-- READ_FUNCTION (R102): one read. -/
def execReadFunction (pin : Octet) (s : State) : Host.Outcome State Fault Refusal :=
  issue (.readFunction pin) (atLocation (resolveFunctionSelect pin) fun l => [.readField l.bank l.shift]) s

/-- SET_PIN (R103): one blind write. -/
def execSetPin (pin : Octet) (s : State) : Host.Outcome State Fault Refusal :=
  issue (.setPin pin)
    (atLocation (resolveBitRegister pin) fun l => [.write .set l.bank (oneBit l.shift) none, .respond .ok 0#32]) s

/-- CLEAR_PIN (R104): one blind write. -/
def execClearPin (pin : Octet) (s : State) : Host.Outcome State Fault Refusal :=
  issue (.clearPin pin)
    (atLocation (resolveBitRegister pin) fun l => [.write .clr l.bank (oneBit l.shift) none, .respond .ok 0#32]) s

/-- READ_LEVEL (R105): one read. -/
def execReadLevel (pin : Octet) (s : State) : Host.Outcome State Fault Refusal :=
  issue (.readLevel pin) (atLocation (resolveBitRegister pin) fun l => [.readBit l.bank l.shift]) s

end Sys2Proof.Machine
end

