-- ==== Sys2Proof/Machine/Dispatch.lean ====
section
/-!
DEFINITION. Machine/Dispatch.lean: the meaning of each command, one arm per constructor of Instr.
-/

namespace Sys2Proof.Machine

def exec (i : Instr) (s : State) : Host.Outcome State Fault Refusal :=
  match i with
  | .resolveFsel pin => Sys2Proof.Machine.execResolveFsel pin s
  | .resolveBit pin => Sys2Proof.Machine.execResolveBit pin s
  | .resolvePudclk pin => Sys2Proof.Machine.execResolvePudclk pin s
  | .encodeFunction mode => Sys2Proof.Machine.execEncodeFunction mode s
  | .decodeFunction pattern => Sys2Proof.Machine.execDecodeFunction pattern s
  | .writeFunction pin mode => Sys2Proof.Machine.execWriteFunction pin mode s
  | .setPin pin => Sys2Proof.Machine.execSetPin pin s
  | .clearPin pin => Sys2Proof.Machine.execClearPin pin s
  | .readLevel pin => Sys2Proof.Machine.execReadLevel pin s
  | .configurePull pin state => Sys2Proof.Machine.execConfigurePull pin state s
  | .encodePull state => Sys2Proof.Machine.execEncodePull state s
  | .decodePull pattern => Sys2Proof.Machine.execDecodePull pattern s
  | .readFunction pin => Sys2Proof.Machine.execReadFunction pin s

end Sys2Proof.Machine
end

