-- ==== Sys2Proof/Machine/Inputs.lean ====
section
/-!
DEFINITION. Machine/Inputs.lean: what the machine does with its next input (spec 70_reset R170, R177).
-/

namespace Sys2Proof.Machine

/-- A command word arrives while BUSY is 0 (30_encoding R57): it is decoded and executed, an ill-formed one is
IllegalCommand; a configuration that breaks 20_memory R32 is refused. -/
def takeCommand (w : Word) (s : State) : Host.Outcome State Fault Refusal :=
  if configOk s.base then
    match decode w with
    | .ok i => exec i s
    | .error _ => issueIllegal w s
  else .refused .badConfiguration

/-- The next input moves. While BUSY is 1 the host's next word waits and the block runs its command to completion
(00_scope R6, 10_state R15); with nothing to do the machine waits (assumption log 5, 13). -/
def move (s : State) : Host.Outcome State Fault Refusal :=
  match s.inputs with
  | [] => advance none s
  | .command w events :: rest =>
    if s.busy then advance none s else takeCommand w (setTurn events (setInputs rest s))
  | .resume events :: rest => advance events (setInputs rest s)
  | .reset base :: rest => .next (hostReset base (setInputs rest s))
  | .master a :: rest => .next (masterAct a (setInputs rest s))

end Sys2Proof.Machine
end

