-- ==== Sys2Proof/Machine/Step.lean ====
section
/-!
DEFINITION. Machine/Step.lean: one step of the machine.
-/

namespace Sys2Proof.Machine

/-- One step: the next input moves (spec 70_reset R170). -/
def step (s : State) : Host.Outcome State Fault Refusal := move s

/-- The host issues the word as the very next thing, with exclusive access (R166), to a block that is ready for it
(BUSY 0, no command in progress). A command is one 32-bit word (R50). Assumption log 5. -/
def State.withFetchWord (s : State) (nbits w : Nat) : State :=
  { s with
    inputs := .command (BitVec.ofNat 32 (w % 2 ^ nbits)) none :: s.inputs
    busy := false
    pending := [] }

end Sys2Proof.Machine
end

