-- ==== Sys2Proof/WellFormed.lean ====
section
/-!
DEFINITION. WellFormed.lean: when a command word is well formed, conditions (a) to (e) of spec 30_encoding R54, each a
check of its own. It is written from R54 and R53's table, apart from the decoder, so that the two can be held against
each other. The operand types of Instr leave no ill-formed Instr, so the terms these checks refuse are words.
-/

namespace Sys2Proof.WellFormed

/-- Condition (a): rsv, bits 31:24, is 0. -/
def rsvZero (w : Word) : Bool := w.toNat / 16777216 == 0

/-- The thirteen opcodes of R53. -/
def opcodes : List Nat :=
  [0x01, 0x02, 0x03, 0x04, 0x05, 0x06, 0x07, 0x08, 0x09, 0x0A, 0x10, 0x11, 0x12]

/-- The opcode, bits 7:0. -/
def op (w : Word) : Nat := w.toNat % 256

/-- Condition (b): op is one of the thirteen opcodes. -/
def opAssigned (w : Word) : Bool := opcodes.contains (op w)

/-- Condition (c), the pin field: the rows R53 marks "0" in the pin column. -/
def unusedPinZero (w : Word) : Bool :=
  !([0x04, 0x05, 0x10, 0x11].contains (op w)) || (w.toNat / 256 % 256 == 0)

/-- Condition (c), the arg field: the rows R53 marks "0" in the arg column. -/
def unusedArgZero (w : Word) : Bool :=
  !([0x01, 0x02, 0x03, 0x07, 0x08, 0x09, 0x12].contains (op w)) || (w.toNat / 65536 % 256 == 0)

/-- Condition (d): a mode ordinal is at most 7. -/
def modeInRange (w : Word) : Bool :=
  !([0x04, 0x06].contains (op w)) || decide (w.toNat / 65536 % 256 ≤ 7)

/-- Condition (e): a state ordinal is at most 2. -/
def stateInRange (w : Word) : Bool :=
  !([0x0A, 0x10].contains (op w)) || decide (w.toNat / 65536 % 256 ≤ 2)

/-- R54: the word is well formed when all the conditions hold. -/
def wordOk (w : Word) : Bool :=
  rsvZero w && opAssigned w && unusedPinZero w && unusedArgZero w && modeInRange w && stateInRange w

end Sys2Proof.WellFormed
end

