-- ==== Sys2Proof/Safety.lean ====
section
/-!
DEFINITION. Safety.lean: the terms claims are stated in: a block ready for a command, what a command leaves alone, the
invariant of the machine, the accesses the block may make, and a good run (spec 70_reset R178).
-/

namespace Sys2Proof.Safety

open Sys2Proof.Machine

/-- A block that takes a command and runs it with exclusive access: BUSY 0, FAULT None (60_exceptions R148's premise),
no other agent between the command's events (70_reset R166). -/
abbrev Ready (s : State) : Prop := s.busy = false ∧ s.fault = none ∧ s.turn = none

/-- The host's base address is the one the register block is mapped at (70_reset R163). -/
abbrev Reachable (s : State) : Prop := s.base = s.mapped

/-- What no command changes: BASE (10_state R12), where the block is mapped, the outside levels, the inputs to come. -/
abbrev FixedKept (s t : State) : Prop :=
  t.base = s.base ∧ t.mapped = s.mapped ∧ t.pinsIn = s.pinsIn ∧ t.inputs = s.inputs

/-- Every register of the register block as before, byte by byte, and every output value and latched pull. -/
abbrev RegistersKept (s t : State) : Prop :=
  (∀ a, Memory.read a t.mem = Memory.read a s.mem) ∧ t.outl = s.outl ∧ t.pins = s.pins ∧ t.pudStage = s.pudStage

/-- No answer of the environment is used up: no read, no delay, no free value. -/
abbrev AnswersKept (s t : State) : Prop := t.answers = s.answers ∧ t.delays = s.delays ∧ t.fresh = s.fresh

/-- The command has ended with this response (30_encoding R56, R57): its events are `es` and then the response, BUSY is 0,
and nothing of it is left. That CMD still holds its word is the model's choice (assumption log 2): the spec calls CMD
meaningless while BUSY is 0 (10_state R15, R24). -/
abbrev Responded (s t : State) (w : Word) (es : List Event) (st : Status) (r : Word) : Prop :=
  t.trace = s.trace ++ es ++ [.rsp st r] ∧ t.response = some ⟨st, r⟩ ∧ t.cmd = w ∧ t.busy = false ∧ t.pending = [] ∧
    t.turn = none

/-- The command ended OK, FAULT and FINFO as before (10_state R14). -/
abbrev AnsweredOk (s t : State) (i : Instr) (es : List Event) (r : Word) : Prop :=
  Responded s t (encode i) es .ok r ∧ t.fault = s.fault ∧ t.finfo = s.finfo

/-- The word faulted (60_exceptions R146, R147): FAULT and FINFO are set, the response is the fault's with result 0, and
nothing else of the block, the register block or the environment has changed. -/
abbrev Faulted (s t : State) (w : Word) (k : FaultKind) : Prop :=
  Responded s t w [] (faultStatus k) 0#32 ∧ t.fault = some k ∧ t.finfo = w ∧ t.phase = s.phase ∧
    FixedKept s t ∧ RegistersKept s t ∧ AnswersKept s t

/-- The pull of pin q is one of the free values from index `first` on (93_implementation_defined U2; assumption log 9):
where `first` is an earlier state's `fresh`, one that nothing had drawn in that state. -/
abbrev FreelyPulled (first q : Nat) (t : State) : Prop :=
  ∃ n, first ≤ n ∧ (t.pins[q]?).map PinLatch.pull = some (Config.freePull n)

/-- The rest of a pull sequence on pin q by another master, after its write of PUD (70_reset R172): the settle time, the
pin's clock, the settle time, PUD 0, the clock 0. -/
def latchByMaster (q : Nat) : List MasterAccess :=
  [.settle, .write .pudclk (q / 32) (oneBit (q % 32)), .settle, .write .pud 0 0#32, .write .pudclk (q / 32) 0#32]

/-- The pin operand of a command that has one (30_encoding R53). -/
def pinOperand (i : Instr) : Option Octet :=
  match i with
  | .resolveFsel pin => some pin
  | .resolveBit pin => some pin
  | .resolvePudclk pin => some pin
  | .encodeFunction _ => none
  | .decodeFunction _ => none
  | .writeFunction pin _ => some pin
  | .setPin pin => some pin
  | .clearPin pin => some pin
  | .readLevel pin => some pin
  | .configurePull pin _ => some pin
  | .encodePull _ => none
  | .decodePull _ => none
  | .readFunction pin => some pin

/-- The seven pure commands (00_scope R7). -/
def isPure (i : Instr) : Bool :=
  match i with
  | .resolveFsel _ => true
  | .resolveBit _ => true
  | .resolvePudclk _ => true
  | .encodeFunction _ => true
  | .decodeFunction _ => true
  | .encodePull _ => true
  | .decodePull _ => true
  | _ => false

/-- The location of a valid pin in the single-bit families (40_pin_locator R71, R73). -/
def pinBit (p : Nat) : Location := { bank := p / 32, shift := p % 32, width := 1 }

/-- The accesses, delays and responses the block may make (00_scope R9, 10_state R21, 20_memory R31, 43_pull_protocol
R121, 93_implementation_defined U3): reads of FSEL and LEV only; writes of FSEL, SET, CLR, PUD and PUDCLK only, SET and
CLR with the one bit of a pin, PUD with a pattern other than 11, PUDCLK with the one bit of a pin or 0; every bank below
NBANKS. -/
def eventOk (e : Event) : Prop :=
  match e with
  | .rd f b _ => (f = .fsel ∨ f = .lev) ∧ b < nbanks f
  | .wr .fsel b _ => b < 6
  | .wr .set b v => ∃ p, p ≤ 53 ∧ b = p / 32 ∧ v = oneBit (p % 32)
  | .wr .clr b v => ∃ p, p ≤ 53 ∧ b = p / 32 ∧ v = oneBit (p % 32)
  | .wr .pud b v => b = 0 ∧ (v = 0#32 ∨ v = 1#32 ∨ v = 2#32)
  | .wr .pudclk b v => ∃ p, p ≤ 53 ∧ b = p / 32 ∧ (v = oneBit (p % 32) ∨ v = 0#32)
  | .wr _ _ _ => False
  | .dly _ => True
  | .rsp st r => st ≠ .ok → r = 0#32

/-- The word deserves the fault (60_exceptions R140): an ill-formed word, a pin above 53, an undefined pattern. -/
def Deserves (k : FaultKind) (w : Word) : Prop :=
  match k with
  | .illegalCommand => WellFormed.wordOk w = false
  | .invalidPin => ∃ i pin, w = encode i ∧ pinOperand i = some pin ∧ 53 < pin.toNat
  | .unknownEncoding =>
    ∃ p : Octet, (w = encode (.decodeFunction p) ∧ 7 < p.toNat) ∨ (w = encode (.decodePull p) ∧ 2 < p.toNat)

/-- What a command may have left to do while PHASE is Idle and FAULT None. -/
def FreshWork (w : Word) (ws : List Work) : Prop :=
  (∃ r, ws = [.respond .ok r]) ∨
  (∃ k, ws = [.raise k] ∧ Deserves k w) ∨
  (∃ p m, p ≤ 53 ∧ ws = [.readModify (p / 10) (p % 10 * 3) (encodeFunction m)]) ∨
  (∃ p v, p ≤ 53 ∧ ws = [.write .fsel (p / 10) v none, .respond .ok 0#32]) ∨
  (∃ p, p ≤ 53 ∧ ws = [.readField (p / 10) (p % 10 * 3)]) ∨
  (∃ p, p ≤ 53 ∧ ws = [.readBit (p / 32) (p % 32)]) ∨
  (∃ p f, p ≤ 53 ∧ (f = .set ∨ f = .clr) ∧ ws = [.write f (p / 32) (oneBit (p % 32)) none, .respond .ok 0#32]) ∨
  (∃ pin st, pin.toNat ≤ 53 ∧ w = encode (.configurePull pin st) ∧ ws = pullSequence st (pinBit pin.toNat))

/-- A CONFIGURE_PULL between its events: PHASE says how far it is (43_pull_protocol R122). -/
def InSequence (w : Word) (ph : Phase) (ws : List Work) : Prop :=
  ∃ pin st, pin.toNat ≤ 53 ∧ w = encode (.configurePull pin st) ∧
    ((ph = .pudWritten ∧ ∃ n, (n = 1 ∨ n = 2) ∧ ws = (pullSequence st (pinBit pin.toNat)).drop n) ∨
     (ph = .clockAsserted ∧ ∃ n, (n = 3 ∨ n = 4 ∨ n = 5) ∧ ws = (pullSequence st (pinBit pin.toNat)).drop n))

/-- The block's own state is one that commands and resets lead to: between commands PHASE is Idle and nothing is left to
do (10_state R13); in a command what is left fits CMD and PHASE; a faulted block only refuses (60_exceptions R148). -/
def BlockInv (s : State) : Prop :=
  (s.busy = false ∧ s.phase = .idle ∧ s.pending = []) ∨
  (s.busy = true ∧ s.fault ≠ none ∧ s.phase = .idle ∧ s.pending = [.respond .faulted 0#32]) ∨
  (s.busy = true ∧ s.fault = none ∧ s.phase = .idle ∧ FreshWork s.cmd s.pending) ∨
  (s.busy = true ∧ s.fault = none ∧ InSequence s.cmd s.phase s.pending)

/-- FAULT and FINFO fit (10_state R14, 60_exceptions R140): FINFO is 0 while there is no fault, and the word that
faulted deserves the fault. -/
def FaultInv (s : State) : Prop :=
  match s.fault with
  | none => s.finfo = 0#32
  | some k => Deserves k s.finfo

/-- The invariant of the machine. -/
def MachineInv (s : State) : Prop := BlockInv s ∧ FaultInv s ∧ Memory.wf s.mem ∧ s.pins.length = 54

/-- The status a word is answered with, by the order of the checks (60_exceptions R145): the refusal after a fault, then
the form of the word, then the pin, then the pattern. -/
def expectedStatus (fault : Option FaultKind) (w : Word) : Status :=
  if fault ≠ none then .faulted
  else if WellFormed.wordOk w = false then .illegalCommand
  else if (opField w).toNat ∈ [0x01, 0x02, 0x03, 0x06, 0x07, 0x08, 0x09, 0x0A, 0x12] ∧ 53 < (pinField w).toNat then
    .invalidPin
  else if ((opField w).toNat = 0x05 ∧ 7 < (argField w).toNat) ∨ ((opField w).toNat = 0x11 ∧ 2 < (argField w).toNat) then
    .unknownEncoding
  else .ok

/-- What a written FSEL word is, bit by bit (42_register_ops R101, R106): the pin's field holds the pattern, every other
bit is the bit read. -/
def FieldReplaced (old new : Word) (pin : Nat) (pattern : BitVec 3) : Prop :=
  ∀ j, j < 32 → new.getLsbD j =
    if 3 * (pin % 10) ≤ j ∧ j < 3 * (pin % 10) + 3 then pattern.getLsbD (j - 3 * (pin % 10)) else old.getLsbD j

/-- Every byte outside the word of register (f, b) reads as before. -/
def BytesKeptExcept (f : Family) (b : Nat) (s t : State) : Prop :=
  ∀ a, (∀ k, k < 4 → a ≠ Memory.key (addr s.base f b) k) → Memory.read a t.mem = Memory.read a s.mem

/-- The statuses answered in a trace. -/
def statuses (t : List Event) : List Status :=
  t.filterMap fun e =>
    match e with
    | .rsp st _ => some st
    | _ => none

/-- A good run answered every command with OK (70_reset R178). -/
def GoodTrace (t : List Event) : Prop := ∀ st ∈ statuses t, st = .ok

end Sys2Proof.Safety
end

