-- ==== Sys2Proof/Certificates/Slice0/Obligations.lean ====
section
/-!
DEFINITION. Certificates/Slice0/Obligations.lean: the statements for the provers, from the numbered rules of spec/.
-/

open Sys2Proof Sys2Proof.Machine Sys2Proof.Safety

/-! ### Reset, and the step around a command -/

/-- 70_reset R160, R161; 10_state R24: reset sets the block's state, makes no access and no delay, and leaves the register
block as it was; a pull sequence it cuts is HostResetCutsTheSequence. -/
def Obligations.HostResetSetsTheBlock : Prop :=
  ∀ (s : State) (b : Word) (rest : List Input), s.inputs = .reset b :: rest →
    ∃ t, step s = .next t ∧ t.base = b ∧ t.phase = .idle ∧ t.fault = none ∧ t.finfo = 0#32 ∧ t.busy = false ∧
      t.pending = [] ∧ t.inputs = rest ∧ t.trace = s.trace ∧ t.mem = s.mem ∧ t.outl = s.outl ∧ t.pinsIn = s.pinsIn ∧
      t.mapped = s.mapped ∧ (s.phase = .idle → t.pins = s.pins ∧ t.pudStage = s.pudStage)

/-- 70_reset R162; 20_memory R43: reset inside a CONFIGURE_PULL leaves the pull registers as they are and the pull of the
command's pin undefined; no later clock may rest on PUD while it still holds the command's pattern, and where it does not,
what PUD is good for stays as it was. The stages are the model's (log 12). -/
def Obligations.HostResetCutsTheSequence : Prop :=
  ∀ (s : State) (b : Word) (rest : List Input), s.inputs = .reset b :: rest → s.phase ≠ .idle →
    commandPin s.cmd < s.pins.length →
    ∃ t, step s = .next t ∧ t.mem = s.mem ∧
      (commandPattern s.cmd = some (stored .pud 0 s) → t.pudStage = .stale) ∧
      (commandPattern s.cmd ≠ some (stored .pud 0 s) → t.pudStage = s.pudStage) ∧
      t.pins[commandPin s.cmd]? =
        (s.pins[commandPin s.cmd]?).map (fun l => ⟨freePull s (commandPin s.cmd), cutStage l.stage⟩) ∧
      ∀ q, q ≠ commandPin s.cmd → t.pins[q]? = s.pins[q]?

/-- 70_reset R162: after a reset inside a CONFIGURE_PULL, the pull of any pin whose clock is asserted while PUD still holds
the command's pattern is a free value (log 9, 12), whether or not a settle time has passed before. -/
def Obligations.ClockAfterACutIsFree : Prop :=
  ∀ (s : State) (base : Word) (b q : Nat) (v : Word) (settled : Bool), s.phase ≠ .idle →
    commandPattern s.cmd = some (stored .pud 0 s) → s.pins.length = 54 → b < nbanks .pudclk → q ≤ 53 → q / 32 = b →
    v.getLsbD (q % 32) = true →
    ((masterAct (.write .pudclk b v) (if settled then masterAct .settle (hostReset base s) else hostReset base s)).pins[q]?).map
      PinLatch.pull = some (Config.freePull (s.fresh + 54 + q))

/-- 70_reset R162, R172: after a reset inside a CONFIGURE_PULL, where PUD does not hold the command's pattern any more (it was
written back to 0, or rewritten by another master), a pin whose clock bit has not been written since that write takes the
state PUD holds the pattern of, by a sequence that meets all of R172. The stages are the model's (log 12). -/
def Obligations.ClockAfterACutTakesTheState : Prop :=
  ∀ (s : State) (base : Word) (q : Nat) (st : PullState) (l : PinLatch), s.phase ≠ .idle →
    stored .pud 0 s = pullWord st → commandPattern s.cmd ≠ some (pullWord st) → s.pudStage ≠ .stale → q ≤ 53 →
    s.pins[q]? = some l → (l.stage = .ready ∨ (q = commandPin s.cmd ∧ l.stage = .disturbed)) →
    (((latchByMaster q).foldl (fun u a => masterAct a u) (hostReset base s)).pins[q]?).map PinLatch.pull =
      some (takenPull st)

/-- The invariant holds at reset. Where R24 gives no value the reset state is the model's choice (log 1 to 10). -/
def Obligations.ResetStateMeetsTheInvariant : Prop := MachineInv State.reset ∧ Ready State.reset ∧ configOk State.reset.base = true

/-- 30_encoding R57: a well-formed word that arrives at a ready port is executed as the command it decodes to. -/
def Obligations.StepRunsTheDecodedCommand : Prop :=
  ∀ (s : State) (w : Word) (events : Option Nat) (rest : List Input) (i : Instr),
    s.inputs = .command w events :: rest → s.busy = false → configOk s.base = true → decode w = .ok i →
    step s = exec i (setTurn events (setInputs rest s))

/-- 60_exceptions R144; 30_encoding R55: every ill-formed word raises IllegalCommand and does nothing else.
CMD after the response: log 2. -/
def Obligations.IllFormedWordIsIllegalCommand : Prop :=
  ∀ (s : State) (w : Word) (rest : List Input),
    s.inputs = .command w none :: rest → s.busy = false → s.fault = none → configOk s.base = true →
    WellFormed.wordOk w = false →
    ∃ t, step s = .next t ∧ Faulted (setInputs rest s) t w .illegalCommand

/-- 60_exceptions R145: the order of the checks decides the status every word is answered with, and what FAULT is after. -/
def Obligations.StatusFollowsTheOrderOfChecks : Prop :=
  ∀ (s : State) (w : Word) (rest : List Input),
    s.inputs = .command w none :: rest → s.busy = false → configOk s.base = true →
    ∃ t r, step s = .next t ∧ t.response = some ⟨expectedStatus s.fault w, r⟩ ∧
      (expectedStatus s.fault w = .ok ∨ expectedStatus s.fault w = .faulted → t.fault = s.fault) ∧
      ∀ k, expectedStatus s.fault w = faultStatus k → t.fault = some k

/-- 10_state R15; 30_encoding R57: while BUSY is 1 no command is accepted, and the host's word stays with the host. -/
def Obligations.BusyBlockAcceptsNoCommand : Prop :=
  (∀ (i : Instr) (s : State), s.busy = true → exec i s = .next s) ∧
  ∀ (s t : State) (w : Word) (events : Option Nat) (rest : List Input),
    s.busy = true → s.inputs = .command w events :: rest → step s = .next t → t.inputs = s.inputs

/-- 30_encoding R57; 70_reset R178: with nothing issued and nothing in progress the machine waits. -/
def Obligations.IdleBlockWaits : Prop := ∀ s : State, s.inputs = [] → s.busy = false → step s = .next s

/-- 20_memory R32: a configuration that breaks R32 is refused, at a command and inside one, whether the input says how far
the command goes on or there is none. When the refusal comes is the model's choice (log 14). -/
def Obligations.BadConfigurationIsRefused : Prop :=
  ∀ (s : State) (rest : List Input), configOk s.base = false →
    (∀ w events, s.inputs = .command w events :: rest → step s = .refused .badConfiguration) ∧
    (∀ events, s.inputs = .resume events :: rest → s.busy = true → step s = .refused .badConfiguration) ∧
    (s.inputs = [] → s.busy = true → step s = .refused .badConfiguration)

/-- 20_memory R32, on the default table of R33 (PRESUMED, log 1): what a good BASE is. -/
def Obligations.ConfigurationCheckMeansAlignedAndNoWrap : Prop :=
  ∀ base : Word, configOk base = true ↔ base.toNat % 4 = 0 ∧ base.toNat + 0xA0 ≤ 2 ^ 32

/-- 20_memory R31, R32: distinct registers share no byte of the port's address space, wherever BASE points. -/
def Obligations.RegistersShareNoByte : Prop :=
  ∀ (base : Word) (f g : Family) (b c j k : Nat), b < nbanks f → c < nbanks g → j < 4 → k < 4 →
    Memory.key (addr base f b) j = Memory.key (addr base g c) k → f = g ∧ b = c ∧ j = k

/-- 70_reset R170: with exclusive access each command is equivalent to one atomic step: a command stopped after any
number k of its events and then resumed, by an input or without one, ends as it does when run at once; resumed for j events,
it stands where the command stopped after k + j events stands, so it may be cut any number of times. The inputs
that resume it are the model's (log 5). -/
def Obligations.CommandIsOneAtomicStep : Prop :=
  ∀ (i : Instr) (s u : State) (k : Nat), s.busy = false → configOk s.base = true →
    exec i (setTurn (some k) s) = .next u →
    (s.inputs = [] → step u = exec i (setTurn none s)) ∧
    step (setInputs (.resume none :: s.inputs) u) = exec i (setTurn none s) ∧
    ∀ j, step (setInputs (.resume (some j) :: s.inputs) u) = exec i (setTurn (some (k + j)) s)

/-! ### Encoding -/

/-- 30_encoding R50 to R53: decoding an encoded command gives it back. -/
def Obligations.DecodeOfEncode : Prop := ∀ i : Instr, decode (encode i) = .ok i

/-- 30_encoding R58 (with R54): every word is ill formed and rejected, or decodes to exactly one command, whose encoding
is the word. -/
def Obligations.DecodingIsTotalAndUnambiguous : Prop :=
  ∀ w : Word, (WellFormed.wordOk w = false ∧ ∃ e, decode w = .error e) ∨
    (WellFormed.wordOk w = true ∧ ∃ i, decode w = .ok i ∧ encode i = w ∧ ∀ j, encode j = w → j = i)

/-- 30_encoding R53, R59: words of the spec's own table, one of each command. -/
def Obligations.SpecWordsDecode : Prop :=
  decode 0x00002F01#32 = .ok (.resolveFsel 47) ∧ decode 0x00002F02#32 = .ok (.resolveBit 47) ∧
  decode 0x00002F03#32 = .ok (.resolvePudclk 47) ∧ decode 0x00030004#32 = .ok (.encodeFunction .alt1) ∧
  decode 0x00050005#32 = .ok (.decodeFunction 5) ∧ decode 0x00010506#32 = .ok (.writeFunction 5 .output) ∧
  decode 0x00002F07#32 = .ok (.setPin 47) ∧ decode 0x00002F08#32 = .ok (.clearPin 47) ∧
  decode 0x00002F09#32 = .ok (.readLevel 47) ∧ decode 0x00022F0A#32 = .ok (.configurePull 47 .pullUp) ∧
  decode 0x00010010#32 = .ok (.encodePull .pullDown) ∧ decode 0x00020011#32 = .ok (.decodePull 2) ∧
  decode 0x00000512#32 = .ok (.readFunction 5) ∧ decode 0x0000FF07#32 = .ok (.setPin 255)

/-- 30_encoding R56: the five status codes, and that a fault is answered with its own. -/
def Obligations.StatusCodesFollowTheTable : Prop :=
  [Status.ok, .invalidPin, .unknownEncoding, .illegalCommand, .faulted].map statusCode = [0#3, 1#3, 2#3, 3#3, 4#3] ∧
  (∀ a b : Status, statusCode a = statusCode b → a = b) ∧
  ∀ k : FaultKind, statusCode (faultStatus k) ≠ statusCode .ok ∧ statusCode (faultStatus k) ≠ statusCode .faulted

/-! ### The Pin Locator -/

/-- 40_pin_locator R70; 30_encoding R56: RESOLVE_FSEL's result, and that it changes nothing else.
CMD after the response: log 2. -/
def Obligations.ResolveFselResult : Prop :=
  ∀ (s : State) (pin : Octet), Ready s → pin.toNat ≤ 53 →
    ∃ t, exec (.resolveFsel pin) s = .next t ∧
      AnsweredOk s t (.resolveFsel pin) [] (BitVec.ofNat 32 (3 * 65536 + pin.toNat / 10 * 256 + pin.toNat % 10 * 3)) ∧
      t.phase = s.phase ∧ FixedKept s t ∧ RegistersKept s t ∧ AnswersKept s t

/-- 40_pin_locator R71, R73; 30_encoding R56: the results of RESOLVE_BIT and RESOLVE_PUDCLK, and their frame.
CMD after the response: log 2. -/
def Obligations.SingleBitLocatorResults : Prop :=
  ∀ (s : State) (pin : Octet) (i : Instr), Ready s → pin.toNat ≤ 53 → (i = .resolveBit pin ∨ i = .resolvePudclk pin) →
    ∃ t, exec i s = .next t ∧
      AnsweredOk s t i [] (BitVec.ofNat 32 (1 * 65536 + pin.toNat / 32 * 256 + pin.toNat % 32)) ∧
      t.phase = s.phase ∧ FixedKept s t ∧ RegistersKept s t ∧ AnswersKept s t

/-- 40_pin_locator R74: two distinct valid pins of one bank have disjoint bit ranges, for each locator function. -/
def Obligations.LocatedFieldsNeverOverlap : Prop :=
  ∀ locator ∈ [resolveFunctionSelect, resolveBitRegister, resolvePudclk], ∀ (p q : Octet) (l k : Location),
    locator p = .ok l → locator q = .ok k → p ≠ q → l.bank = k.bank →
    l.shift + l.width ≤ k.shift ∨ k.shift + k.width ≤ l.shift

/-- 40_pin_locator R75: the locator is invertible, and every field and every pin bit is the location of exactly one pin. -/
def Obligations.LocatorIsInvertible : Prop :=
  (∀ (p : Octet) (l : Location), resolveFunctionSelect p = .ok l → p.toNat = 10 * l.bank + l.shift / 3) ∧
  (∀ (p : Octet) (l : Location), resolveBitRegister p = .ok l ∨ resolvePudclk p = .ok l →
    p.toNat = 32 * l.bank + l.shift) ∧
  (∀ b k : Nat, k < 10 → 10 * b + k ≤ 53 → ∃ p, resolveFunctionSelect p = .ok ⟨b, 3 * k, 3⟩ ∧
    ∀ q, resolveFunctionSelect q = .ok ⟨b, 3 * k, 3⟩ → q = p) ∧
  (∀ b i : Nat, i < 32 → 32 * b + i ≤ 53 → ∃ p, (resolveBitRegister p = .ok ⟨b, i, 1⟩ ∧ resolvePudclk p = .ok ⟨b, i, 1⟩) ∧
    ∀ q, resolveBitRegister q = .ok ⟨b, i, 1⟩ ∨ resolvePudclk q = .ok ⟨b, i, 1⟩ → q = p)

/-- 40_pin_locator R76: the resolved fields never reach a bit that belongs to no pin. -/
def Obligations.LocatorStaysInsideThePins : Prop :=
  (∀ (p : Octet) (l : Location), resolveFunctionSelect p = .ok l →
    l.width = 3 ∧ l.bank ≤ 5 ∧ l.shift % 3 = 0 ∧ l.shift + l.width ≤ 30 ∧ (l.bank = 5 → l.shift ≤ 9)) ∧
  (∀ (p : Octet) (l : Location), resolveBitRegister p = .ok l ∨ resolvePudclk p = .ok l →
    l.width = 1 ∧ l.bank ≤ 1 ∧ l.shift ≤ 31 ∧ (l.bank = 1 → l.shift ≤ 21))

/-! ### The codec -/

/-- 41_field_codec R80, R81: ENCODE_FUNCTION's result by ordinal, and its frame. CMD after the response: log 2. -/
def Obligations.EncodeFunctionResult : Prop :=
  ∀ (s : State) (m : FunctionMode), Ready s →
    ∃ t, exec (.encodeFunction m) s = .next t ∧
      AnsweredOk s t (.encodeFunction m) [] ([0, 1, 4, 5, 6, 7, 3, 2].getD (modeOrdinal m) 0#32) ∧
      t.phase = s.phase ∧ FixedKept s t ∧ RegistersKept s t ∧ AnswersKept s t

/-- 41_field_codec R80, R82: DECODE_FUNCTION's result by pattern 0 to 7, and its frame. CMD after the response: log 2. -/
def Obligations.DecodeFunctionResult : Prop :=
  ∀ (s : State) (p : Octet), Ready s → p.toNat ≤ 7 →
    ∃ t, exec (.decodeFunction p) s = .next t ∧
      AnsweredOk s t (.decodeFunction p) [] ([0, 1, 7, 6, 2, 3, 4, 5].getD p.toNat 0#32) ∧
      t.phase = s.phase ∧ FixedKept s t ∧ RegistersKept s t ∧ AnswersKept s t

/-- 41_field_codec R84, R85: ENCODE_PULL's result, and its frame. CMD after the response: log 2. -/
def Obligations.EncodePullResult : Prop :=
  ∀ (s : State) (st : PullState), Ready s →
    ∃ t, exec (.encodePull st) s = .next t ∧
      AnsweredOk s t (.encodePull st) [] ([0, 1, 2].getD (stateOrdinal st) 3#32) ∧
      t.phase = s.phase ∧ FixedKept s t ∧ RegistersKept s t ∧ AnswersKept s t

/-- 41_field_codec R84, R86: DECODE_PULL's result by pattern 0 to 2, and its frame. CMD after the response: log 2. -/
def Obligations.DecodePullResult : Prop :=
  ∀ (s : State) (p : Octet), Ready s → p.toNat ≤ 2 →
    ∃ t, exec (.decodePull p) s = .next t ∧
      AnsweredOk s t (.decodePull p) [] ([0, 1, 2].getD p.toNat 3#32) ∧
      t.phase = s.phase ∧ FixedKept s t ∧ RegistersKept s t ∧ AnswersKept s t

/-- 41_field_codec R83: both round trips of the function modes. -/
def Obligations.FunctionModeRoundTrips : Prop :=
  (∀ m, decodeFunction (encodeFunction m).toNat = .ok m) ∧
  ∀ p : Nat, p ≤ 7 → ∃ m, decodeFunction p = .ok m ∧ (encodeFunction m).toNat = p

/-- 41_field_codec R87: both round trips of the pull states, and that the encoder never gives 11. -/
def Obligations.PullStateRoundTrips : Prop :=
  (∀ st, decodePull (encodePull st).toNat = .ok st ∧ encodePull st ≠ 0b11#2) ∧
  ∀ p : Nat, p ≤ 2 → ∃ st, decodePull p = .ok st ∧ (encodePull st).toNat = p

/-- 00_scope R7: the seven pure commands make no access and no delay, change no register, and their response depends on
their operands alone. -/
def Obligations.PureCommandsTouchNothing : Prop :=
  ∀ i : Instr, isPure i = true →
    (∀ s t : State, s.busy = false → exec i s = .next t →
      FixedKept s t ∧ RegistersKept s t ∧ AnswersKept s t ∧
      ∃ es, t.trace = s.trace ++ es ∧ ∀ e ∈ es, ∃ st r, e = .rsp st r) ∧
    (∀ s s' t t' : State, Ready s → Ready s' → exec i s = .next t → exec i s' = .next t' → t.response = t'.response)

/-! ### The register commands -/

/-- 42_register_ops R101: WRITE_FUNCTION reads FSEL once and writes the same register once, the pin's field replaced; what
else changes: no byte outside the word at ADDR(FSEL, bank); where BASE reaches the register block, that register holds the
written word and nothing more changes. CMD after the response: log 2. -/
def Obligations.WriteFunctionReadsThenWrites : Prop :=
  ∀ (s : State) (pin : Octet) (m : FunctionMode), Ready s → pin.toNat ≤ 53 →
    ∃ t new, exec (.writeFunction pin m) s = .next t ∧
      AnsweredOk s t (.writeFunction pin m)
        [.rd .fsel (pin.toNat / 10) (answer .fsel (pin.toNat / 10) s), .wr .fsel (pin.toNat / 10) new] 0#32 ∧
      FieldReplaced (answer .fsel (pin.toNat / 10) s) new pin.toNat (encodeFunction m) ∧
      t.phase = s.phase ∧ FixedKept s t ∧ t.answers = s.answers.tail ∧ t.delays = s.delays ∧
      BytesKeptExcept .fsel (pin.toNat / 10) s t ∧
      (Reachable s → stored .fsel (pin.toNat / 10) t = new ∧ t.outl = s.outl ∧ t.pins = s.pins ∧ t.pudStage = s.pudStage)

/-- 42_register_ops R106: where FSEL stores what is written (ENV-REF, BASE reaching it) a later read of the register
finds the mode in the pin's field and every other bit as it was read, every other pin's field is as before, and
READ_FUNCTION answers the mode. -/
def Obligations.WriteFunctionCorruptsNoOtherPin : Prop :=
  ∀ (s : State) (pin : Octet) (m : FunctionMode), Ready s → Reachable s → s.answers = [] → pin.toNat ≤ 53 →
    ∃ t u, exec (.writeFunction pin m) s = .next t ∧
      FieldReplaced (answer .fsel (pin.toNat / 10) s) (answer .fsel (pin.toNat / 10) t) pin.toNat (encodeFunction m) ∧
      pinField3 pin.toNat t = encodeFunction m ∧
      (∀ q, q ≤ 53 → q ≠ pin.toNat → pinField3 q t = pinField3 q s) ∧
      exec (.readFunction pin) t = .next u ∧ u.response = some ⟨.ok, BitVec.ofNat 32 (modeOrdinal m)⟩

/-- 42_register_ops R102: READ_FUNCTION reads FSEL once and answers the ordinal of the pin's field; no register changes.
CMD after the response: log 2. -/
def Obligations.ReadFunctionResult : Prop :=
  ∀ (s : State) (pin : Octet), Ready s → pin.toNat ≤ 53 →
    ∃ t, exec (.readFunction pin) s = .next t ∧
      AnsweredOk s t (.readFunction pin) [.rd .fsel (pin.toNat / 10) (answer .fsel (pin.toNat / 10) s)]
        ([0, 1, 7, 6, 2, 3, 4, 5].getD
          ((answer .fsel (pin.toNat / 10) s).toNat / 2 ^ (3 * (pin.toNat % 10)) % 8) 0#32) ∧
      t.phase = s.phase ∧ FixedKept s t ∧ RegistersKept s t ∧ t.answers = s.answers.tail ∧ t.delays = s.delays

/-- 42_register_ops R103; 20_memory R41: SET_PIN is one blind write of the pin's bit, and no byte outside the word at
ADDR(SET, bank) changes; where BASE reaches the register block it drives that pin's output value to 1 and changes no other
and no stored register. CMD after the response: log 2. -/
def Obligations.SetPinWritesOneBit : Prop :=
  ∀ (s : State) (pin : Octet), Ready s → pin.toNat ≤ 53 →
    ∃ t, exec (.setPin pin) s = .next t ∧
      AnsweredOk s t (.setPin pin) [.wr .set (pin.toNat / 32) (BitVec.ofNat 32 (2 ^ (pin.toNat % 32)))] 0#32 ∧
      t.phase = s.phase ∧ FixedKept s t ∧ t.answers = s.answers ∧ t.delays = s.delays ∧
      BytesKeptExcept .set (pin.toNat / 32) s t ∧
      (Reachable s → (∀ a, Memory.read a t.mem = Memory.read a s.mem) ∧ t.pins = s.pins ∧ t.pudStage = s.pudStage ∧
        ∀ q, q < 54 → t.outl.getLsbD q = (decide (q = pin.toNat) || s.outl.getLsbD q))

/-- 42_register_ops R104; 20_memory R41: CLEAR_PIN is one blind write of the pin's bit to CLR, and no byte outside the word
at ADDR(CLR, bank) changes; where BASE reaches the register block it drives that pin's output value to 0 and changes no
other and no stored register. CMD after the response: log 2. -/
def Obligations.ClearPinWritesOneBit : Prop :=
  ∀ (s : State) (pin : Octet), Ready s → pin.toNat ≤ 53 →
    ∃ t, exec (.clearPin pin) s = .next t ∧
      AnsweredOk s t (.clearPin pin) [.wr .clr (pin.toNat / 32) (BitVec.ofNat 32 (2 ^ (pin.toNat % 32)))] 0#32 ∧
      t.phase = s.phase ∧ FixedKept s t ∧ t.answers = s.answers ∧ t.delays = s.delays ∧
      BytesKeptExcept .clr (pin.toNat / 32) s t ∧
      (Reachable s → (∀ a, Memory.read a t.mem = Memory.read a s.mem) ∧ t.pins = s.pins ∧ t.pudStage = s.pudStage ∧
        ∀ q, q < 54 → t.outl.getLsbD q = (!decide (q = pin.toNat) && s.outl.getLsbD q))

/-- 42_register_ops R105: READ_LEVEL reads LEV once and answers the pin's bit as 0 or 1; no register changes.
CMD after the response: log 2. -/
def Obligations.ReadLevelResult : Prop :=
  ∀ (s : State) (pin : Octet), Ready s → pin.toNat ≤ 53 →
    ∃ t, exec (.readLevel pin) s = .next t ∧
      AnsweredOk s t (.readLevel pin) [.rd .lev (pin.toNat / 32) (answer .lev (pin.toNat / 32) s)]
        (if (answer .lev (pin.toNat / 32) s).getLsbD (pin.toNat % 32) then 1#32 else 0#32) ∧
      t.phase = s.phase ∧ FixedKept s t ∧ RegistersKept s t ∧ t.answers = s.answers.tail ∧ t.delays = s.delays

/-- 20_memory R42, R45 (ENV-REF): READ_LEVEL of an Output answers the output value, of any other pin the outside level. -/
def Obligations.ReadLevelShowsThePin : Prop :=
  ∀ (s : State) (pin : Octet), Ready s → Reachable s → s.answers = [] → pin.toNat ≤ 53 →
    ∃ t, exec (.readLevel pin) s = .next t ∧ t.response = some ⟨.ok,
      if pinField3 pin.toNat s = 0b001#3 then (if s.outl.getLsbD pin.toNat then 1#32 else 0#32)
      else (if s.pinsIn.getLsbD pin.toNat then 1#32 else 0#32)⟩

/-- 70_reset R171: another master's write to the same FSEL register between the two events of a WRITE_FUNCTION is lost. -/
def Obligations.WriteBetweenReadAndWriteIsLost : Prop :=
  ∀ (s : State) (pin : Octet) (m : FunctionMode) (v : Word), s.busy = false → s.fault = none → Reachable s →
    configOk s.base = true → s.answers = [] → pin.toNat ≤ 53 →
    s.inputs = [.command (encode (.writeFunction pin m)) (some 1), .master (.write .fsel (pin.toNat / 10) v)] →
    ∃ t u w, step s = .next t ∧ step t = .next u ∧ step u = .next w ∧
      stored .fsel (pin.toNat / 10) u = v ∧ w.response = some ⟨.ok, 0#32⟩ ∧
      FieldReplaced (stored .fsel (pin.toNat / 10) s) (stored .fsel (pin.toNat / 10) w) pin.toNat (encodeFunction m)

/-! ### The pull sequence -/

/-- 43_pull_protocol R120, R121: CONFIGURE_PULL's seven events, the same sequence for every state operand; only the bytes at
ADDR(PUD, 0) and at ADDR(PUDCLK, bank) are written, and where BASE reaches the register block no output value changes.
CMD after the response: log 2. -/
def Obligations.ConfigurePullEvents : Prop :=
  ∀ (s : State) (pin : Octet) (st : PullState), Ready s → pin.toNat ≤ 53 →
    ∃ t, exec (.configurePull pin st) s = .next t ∧
      AnsweredOk s t (.configurePull pin st)
        [.wr .pud 0 (BitVec.ofNat 32 (stateOrdinal st)), .dly .settle,
         .wr .pudclk (pin.toNat / 32) (BitVec.ofNat 32 (2 ^ (pin.toNat % 32))), .dly .settle, .wr .pud 0 0#32,
         .wr .pudclk (pin.toNat / 32) 0#32] 0#32 ∧
      t.phase = .idle ∧ FixedKept s t ∧ t.answers = s.answers ∧ t.delays = s.delays.drop 2 ∧
      (Reachable s → t.outl = s.outl) ∧
      ∀ a, (∀ k, k < 4 → a ≠ Memory.key (addr s.base .pud 0) k) →
        (∀ k, k < 4 → a ≠ Memory.key (addr s.base .pudclk (pin.toNat / 32)) k) →
        Memory.read a t.mem = Memory.read a s.mem

/-- 43_pull_protocol R122: PHASE after each number of the seven events; BUSY is 1 until the seventh. -/
def Obligations.ConfigurePullPhases : Prop :=
  ∀ (s : State) (pin : Octet) (st : PullState) (k : Nat), s.busy = false → s.fault = none → s.phase = .idle →
    pin.toNat ≤ 53 → k ≤ 7 →
    ∃ t, exec (.configurePull pin st) (setTurn (some k) s) = .next t ∧
      t.phase = ([.idle, .pudWritten, .pudWritten, .clockAsserted, .clockAsserted, .clockAsserted, .idle, .idle].getD k
        Phase.idle) ∧
      t.busy = decide (k < 7) ∧ ∃ es, t.trace = s.trace ++ es ∧ es.length = k

/-- 43_pull_protocol R125: where the registers store what is written, a completed CONFIGURE_PULL leaves PUD[0] and the
pin's PUDCLK bank at 0, whatever the state operand was. -/
def Obligations.ConfigurePullLeavesThePullRegistersClear : Prop :=
  ∀ (s : State) (pin : Octet) (st : PullState), Ready s → Reachable s → pin.toNat ≤ 53 →
    ∃ t, exec (.configurePull pin st) s = .next t ∧ stored .pud 0 t = 0#32 ∧ stored .pudclk (pin.toNat / 32) t = 0#32 ∧
      stored .pudclk (1 - pin.toNat / 32) t = stored .pudclk (1 - pin.toNat / 32) s

/-- 70_reset R172, R165; 20_memory R43: with no clock asserted at the start, no short wait among the two and exclusive
access, the pin takes the state and every other pin keeps its pull. -/
def Obligations.ConfigurePullTakesTheState : Prop :=
  ∀ (s : State) (pin : Octet) (st : PullState), Ready s → Reachable s → pin.toNat ≤ 53 →
    DelayAnswer.short ∉ s.delays.take 2 →
    stored .pudclk 0 s = 0#32 → stored .pudclk 1 s = 0#32 → s.pins.length = 54 →
    ∃ t, exec (.configurePull pin st) s = .next t ∧
      (t.pins[pin.toNat]?).map PinLatch.pull = some (takenPull st) ∧
      ∀ q, q ≠ pin.toNat → (t.pins[q]?).map PinLatch.pull = (s.pins[q]?).map PinLatch.pull

/-- 70_reset R164, R172; 93_implementation_defined U2: with the first or the second wait shorter than the settle time the
pin's pull is the free value, whatever the state operand was and whatever the waits after it are; the command answers OK. -/
def Obligations.ShortWaitLeavesThePullFree : Prop :=
  ∀ (s : State) (pin : Octet) (st : PullState) (later : List DelayAnswer), Ready s → Reachable s → pin.toNat ≤ 53 →
    (s.delays = .short :: later ∨ s.delays = .full :: .short :: later) → s.pins.length = 54 →
    ∃ t, exec (.configurePull pin st) s = .next t ∧ t.response = some ⟨.ok, 0#32⟩ ∧
      (t.pins[pin.toNat]?).map PinLatch.pull = some (Config.freePull (s.fresh + 162 + pin.toNat))

/-- 70_reset R172: another master's write to a pull register inside the sequence leaves the pull of the command's pin, and of
every pin whose PUDCLK bit it asserts, a free value (log 9, 12); the register holds the word and the command goes on. With
the machine's invariant and no other input, the next step ends the command OK, and those pulls are still free values that
nothing had drawn before the write. Inside: PHASE is not Idle, or only the response of a CONFIGURE_PULL is left. -/
def Obligations.MasterWriteBreaksTheSequence : Prop :=
  ∀ (s : State) (f : Family) (b : Nat) (v : Word) (rest : List Input),
    s.inputs = .master (.write f b v) :: rest →
    (s.phase ≠ .idle ∨ (s.busy = true ∧ (opField s.cmd).toNat = 0x0A ∧ s.pending = [.respond .ok 0#32])) →
    (f = .pud ∨ f = .pudclk) → b < nbanks f →
    ∃ t, step s = .next t ∧ stored f b t = v ∧ t.phase = s.phase ∧ t.pending = s.pending ∧ t.inputs = rest ∧
      (∀ q, q < s.pins.length → (q = commandPin s.cmd ∨ (f = .pudclk ∧ q / 32 = b ∧ v.getLsbD (q % 32) = true)) →
        ∃ stage, t.pins[q]? = some ⟨Config.freePull (s.fresh + 54 + q), stage⟩ ∧
          (stage = .disturbed ∨ stage = .spoiled)) ∧
      (MachineInv s → Reachable s → configOk s.base = true → rest = [] →
        ∃ u, step t = .next u ∧ u.response = some ⟨.ok, 0#32⟩ ∧ u.busy = false ∧ u.phase = .idle ∧
          ∀ q, q ≤ 53 → (q = commandPin s.cmd ∨ (f = .pudclk ∧ q / 32 = b ∧ v.getLsbD (q % 32) = true)) →
            FreelyPulled s.fresh q u)

/-- 70_reset R172: from the first event of a CONFIGURE_PULL to its last, the response, a write of PUD or PUDCLK by another
master leaves the pull of the command's pin, and of every pin whose PUDCLK bit it asserts, a free value (log 9), after each
number of events, one to six; and where BASE reaches the register block it is still a free value drawn no earlier than the
write when the remaining events have been made and the command has ended OK. -/
def Obligations.WriteBeforeTheResponseBreaksTheSequence : Prop :=
  ∀ (s : State) (pin : Octet) (st : PullState) (k : Nat) (f : Family) (b : Nat) (v : Word), s.busy = false →
    s.fault = none → s.phase = .idle → pin.toNat ≤ 53 → 1 ≤ k → k ≤ 6 → (f = .pud ∨ f = .pudclk) → b < nbanks f →
    s.pins.length = 54 →
    ∃ t, exec (.configurePull pin st) (setTurn (some k) s) = .next t ∧
      (∀ q, q ≤ 53 → (q = pin.toNat ∨ (f = .pudclk ∧ q / 32 = b ∧ v.getLsbD (q % 32) = true)) →
        ∃ stage, (masterAct (.write f b v) t).pins[q]? = some ⟨Config.freePull (t.fresh + 54 + q), stage⟩ ∧
          (stage = .disturbed ∨ stage = .spoiled)) ∧
      (Reachable s → configOk s.base = true →
        ∃ u, step (setInputs [] (masterAct (.write f b v) t)) = .next u ∧ u.response = some ⟨.ok, 0#32⟩ ∧
          u.busy = false ∧ u.phase = .idle ∧
          ∀ q, q ≤ 53 → (q = pin.toNat ∨ (f = .pudclk ∧ q / 32 = b ∧ v.getLsbD (q % 32) = true)) →
            FreelyPulled t.fresh q u)

/-- 43_pull_protocol R127: a pin whose PUDCLK bit is already asserted when a CONFIGURE_PULL writes PUD takes, or half takes,
the pattern: its pull is a free value (log 9, 12), in either bank, for every state operand and every answer of the delays. -/
def Obligations.AssertedClocksTakeAFreePull : Prop :=
  ∀ (s : State) (pin : Octet) (st : PullState) (q : Nat), Ready s → Reachable s → pin.toNat ≤ 53 → q ≤ 53 →
    clockBit q s = true → s.pins.length = 54 →
    ∃ t, exec (.configurePull pin st) s = .next t ∧ t.response = some ⟨.ok, 0#32⟩ ∧
      (t.pins[q]?).map PinLatch.pull = some (Config.freePull
        (s.fresh + (if q = pin.toNat then 162 else if q / 32 = pin.toNat / 32 then 54 else 108) + q))

/-! ### Faults -/

/-- 60_exceptions R142, R146, R147: a pin above 53 raises InvalidPin on every command with a pin operand, before anything
else. CMD after the response: log 2. -/
def Obligations.InvalidPinFaults : Prop :=
  ∀ (s : State) (i : Instr) (pin : Octet), Ready s → pinOperand i = some pin → 53 < pin.toNat →
    ∃ t, exec i s = .next t ∧ Faulted s t (encode i) .invalidPin

/-- 60_exceptions R143: an undefined pattern raises UnknownEncoding in DECODE_FUNCTION and DECODE_PULL, and no other
command raises it. CMD after the response: log 2. -/
def Obligations.UndefinedPatternFaults : Prop :=
  (∀ (s : State) (p : Octet), Ready s → 7 < p.toNat →
    ∃ t, exec (.decodeFunction p) s = .next t ∧ Faulted s t (encode (.decodeFunction p)) .unknownEncoding) ∧
  (∀ (s : State) (p : Octet), Ready s → 2 < p.toNat →
    ∃ t, exec (.decodePull p) s = .next t ∧ Faulted s t (encode (.decodePull p)) .unknownEncoding) ∧
  ∀ (s t : State) (i : Instr), Ready s → exec i s = .next t → t.fault = some .unknownEncoding →
    (∃ p, i = .decodeFunction p ∧ 7 < p.toNat) ∨ (∃ p, i = .decodePull p ∧ 2 < p.toNat)

/-- 60_exceptions R148: every word accepted while FAULT is not None is refused with status Faulted and changes nothing.
CMD after the response: log 2. -/
def Obligations.FaultedBlockRefusesEveryWord : Prop :=
  ∀ (s : State) (w : Word) (k : FaultKind) (rest : List Input),
    s.inputs = .command w none :: rest → s.busy = false → s.fault = some k → configOk s.base = true →
    ∃ t, step s = .next t ∧ Responded (setInputs rest s) t w [] .faulted 0#32 ∧ t.fault = some k ∧
      t.finfo = s.finfo ∧ t.phase = s.phase ∧ FixedKept (setInputs rest s) t ∧ RegistersKept s t ∧ AnswersKept s t

/-- 60_exceptions R148; 10_state R14: nothing but reset changes FAULT and FINFO once a fault is recorded, and all the block
does is refuse. -/
def Obligations.OnlyResetEndsAFault : Prop :=
  ∀ (s t : State) (k : FaultKind), MachineInv s → s.fault = some k → (∀ b rest, s.inputs ≠ .reset b :: rest) →
    step s = .next t → t.fault = some k ∧ t.finfo = s.finfo ∧
      ∃ es, t.trace = s.trace ++ es ∧ ∀ e ∈ es, e = .rsp .faulted 0#32

/-! ### Every step -/

/-- The invariant of the machine (10_state R13, R14; 43_pull_protocol R122; the memory's canonical form) is kept by every
step, whatever the inputs are. -/
def Obligations.StepKeepsTheInvariant : Prop := ∀ s t : State, MachineInv s → step s = .next t → MachineInv t

/-- 20_memory R31, R47; 00_scope R9: no access of the block leaves the register block, and no access fails. -/
def Obligations.StepNeverFaults : Prop := ∀ (s : State) (r : Fault), MachineInv s → step s ≠ .fault r

/-- 00_scope R9; 10_state R21; 20_memory R31; 43_pull_protocol R121: every event a step makes is one the block may make. -/
def Obligations.EveryEventIsAllowed : Prop :=
  ∀ s t : State, MachineInv s → step s = .next t → ∃ es, t.trace = s.trace ++ es ∧ ∀ e ∈ es, eventOk e

/-- 20_memory R44: the same command and the same answers give the same trace and response, whatever else differs. -/
def Obligations.TraceFollowsCommandAndAnswers : Prop :=
  ∀ (i : Instr) (s s' : State) (v : Word) (rest rest' : List Word), Ready s → Ready s' →
    s.answers = v :: rest → s'.answers = v :: rest' →
    ∃ t t' es, exec i s = .next t ∧ exec i s' = .next t' ∧ t.trace = s.trace ++ es ∧ t'.trace = s'.trace ++ es ∧
      t.response = t'.response

/-- 70_reset R178: where every response of a step is OK no fault is recorded, and where one is not a fault stands. -/
def Obligations.GoodResponsesMeanNoFault : Prop :=
  ∀ (s t : State) (es : List Event), MachineInv s → s.fault = none → step s = .next t → t.trace = s.trace ++ es →
    (GoodTrace es ↔ t.fault = none)

/-- 10_state R12; 60_exceptions R152: BASE changes by reset only. -/
def Obligations.OnlyResetChangesBase : Prop :=
  ∀ s t : State, (∀ b rest, s.inputs ≠ .reset b :: rest) → step s = .next t → t.base = s.base
end

