-- ==== Sys2Proof/Laws/Decode.lean ====
section
/-!
SUPPORT. Laws/Decode.lean: the fields of a command word, put together and taken apart, and the checks of WellFormed on
the fields.
-/

namespace Sys2Proof

/-- The bits of a command word, field by field (30_encoding R50). -/
theorem commandWord_getLsbD (op pin arg : Octet) (i : Nat) :
    (commandWord op pin arg).getLsbD i =
      if i < 8 then op.getLsbD i else if i < 16 then pin.getLsbD (i - 8) else if i < 24 then arg.getLsbD (i - 16)
      else false := by
  have h : commandWord op pin arg = BitVec.append (BitVec.append (BitVec.append 0#8 arg) pin) op := rfl
  rw [h]
  show ((((0#8 ++ arg : BitVec 16) ++ pin : BitVec 24) ++ op : BitVec 32)).getLsbD i = _
  simp only [BitVec.getLsbD_append, BitVec.getLsbD_zero]
  by_cases h1 : i < 8
  · simp [h1]
  · by_cases h2 : i < 16
    · simp [h1, h2, show i - 8 < 8 by omega]
    · by_cases h3 : i < 24
      · simp [h1, h2, h3, show ¬ i - 8 < 8 by omega, show i - 16 < 8 by omega, show i - 8 - 8 = i - 16 by omega]
      · simp [h1, h2, h3, show ¬ i - 8 < 8 by omega, show ¬ i - 8 - 8 < 8 by omega]

@[simp] theorem opField_commandWord (op pin arg : Octet) : opField (commandWord op pin arg) = op := by
  refine BitVec.eq_of_getLsbD_eq fun i hi => ?_
  simp [opField, commandWord_getLsbD, hi]

@[simp] theorem pinField_commandWord (op pin arg : Octet) : pinField (commandWord op pin arg) = pin := by
  refine BitVec.eq_of_getLsbD_eq fun i hi => ?_
  simp [pinField, commandWord_getLsbD, hi, show ¬ 8 + i < 8 by omega, show 8 + i < 16 by omega]

@[simp] theorem argField_commandWord (op pin arg : Octet) : argField (commandWord op pin arg) = arg := by
  refine BitVec.eq_of_getLsbD_eq fun i hi => ?_
  simp [argField, commandWord_getLsbD, hi, show ¬ 16 + i < 8 by omega, show ¬ 16 + i < 16 by omega,
    show 16 + i < 24 by omega]

@[simp] theorem rsvField_commandWord (op pin arg : Octet) : rsvField (commandWord op pin arg) = 0#8 := by
  refine BitVec.eq_of_getLsbD_eq fun i hi => ?_
  simp [rsvField, commandWord_getLsbD, show ¬ 24 + i < 8 by omega, show ¬ 24 + i < 16 by omega,
    show ¬ 24 + i < 24 by omega]

/-- A word whose reserved field is 0 is the word of its three fields. -/
theorem commandWord_fields (w : Word) (h : rsvField w = 0#8) : commandWord (opField w) (pinField w) (argField w) = w := by
  refine BitVec.eq_of_getLsbD_eq fun i hi => ?_
  rw [commandWord_getLsbD]
  by_cases h1 : i < 8
  · simp [h1, opField]
  · by_cases h2 : i < 16
    · simp [h1, h2, pinField, show i - 8 < 8 by omega, show 8 + (i - 8) = i by omega]
    · by_cases h3 : i < 24
      · simp [h1, h2, h3, argField, show i - 16 < 8 by omega, show 16 + (i - 16) = i by omega]
      · have hr : (rsvField w).getLsbD (i - 24) = w.getLsbD i := by
          simp [rsvField, show i - 24 < 8 by omega, show 24 + (i - 24) = i by omega]
        rw [h] at hr
        simpa [h1, h2, h3] using hr

/-- The fields as numbers. -/
theorem opField_toNat (w : Word) : (opField w).toNat = w.toNat % 256 := by
  simp [opField, BitVec.extractLsb'_toNat]

theorem pinField_toNat (w : Word) : (pinField w).toNat = w.toNat / 256 % 256 := by
  simp [pinField, BitVec.extractLsb'_toNat, Nat.shiftRight_eq_div_pow]

theorem argField_toNat (w : Word) : (argField w).toNat = w.toNat / 65536 % 256 := by
  simp [argField, BitVec.extractLsb'_toNat, Nat.shiftRight_eq_div_pow]

theorem rsvField_toNat (w : Word) : (rsvField w).toNat = w.toNat / 16777216 % 256 := by
  simp [rsvField, BitVec.extractLsb'_toNat, Nat.shiftRight_eq_div_pow]

/-- A mode's ordinal is carried and read back (30_encoding R52). -/
@[simp] theorem modeOfOrdinal_modeOrdinal (m : FunctionMode) :
    modeOfOrdinal (BitVec.ofNat 8 (modeOrdinal m)).toNat = some m := by cases m <;> rfl

@[simp] theorem stateOfOrdinal_stateOrdinal (st : PullState) :
    stateOfOrdinal (BitVec.ofNat 8 (stateOrdinal st)).toNat = some st := by cases st <;> rfl

/-- WellFormed's checks, on the fields. -/
theorem rsvZero_iff (w : Word) : WellFormed.rsvZero w = true ↔ rsvField w = 0#8 := by
  rw [← BitVec.toNat_inj, rsvField_toNat]
  simp [WellFormed.rsvZero]
  omega

theorem wordOk_iff (w : Word) : WellFormed.wordOk w = true ↔
    rsvField w = 0#8 ∧ (opField w).toNat ∈ WellFormed.opcodes ∧
    ((opField w).toNat ∈ [0x04, 0x05, 0x10, 0x11] → pinField w = 0#8) ∧
    ((opField w).toNat ∈ [0x01, 0x02, 0x03, 0x07, 0x08, 0x09, 0x12] → argField w = 0#8) ∧
    ((opField w).toNat ∈ [0x04, 0x06] → (argField w).toNat ≤ 7) ∧
    ((opField w).toNat ∈ [0x0A, 0x10] → (argField w).toNat ≤ 2) := by
  rw [← rsvZero_iff]
  simp only [← BitVec.toNat_inj, pinField_toNat, argField_toNat, opField_toNat]
  simp only [WellFormed.wordOk, WellFormed.opAssigned, WellFormed.unusedPinZero, WellFormed.unusedArgZero,
    WellFormed.modeInRange, WellFormed.stateInRange, WellFormed.op, Bool.and_eq_true, Bool.or_eq_true, Bool.not_eq_true',
    List.contains_iff_mem, decide_eq_true_eq, beq_iff_eq]
  simp only [← Bool.not_eq_true, List.contains_iff_mem, and_assoc]
  simp only [List.mem_cons, List.not_mem_nil, or_false, show (0#8).toNat = 0 from rfl]
  refine and_congr_right fun _ => and_congr_right fun _ => ?_
  omega

end Sys2Proof
end

