-- ==== Sys2Proof/Laws/Memory.lean ====
section
/-!
SUPPORT. Laws/Memory.lean: read after write, writes elsewhere, and that every memory operation keeps the canonical form;
first for bytes, then for words; then that distinct registers have distinct bytes.
-/

namespace Sys2Proof.Machine

/-! ### Bytes -/

theorem read_place_same (a : Nat) (v : Octet) (m : List Host.Cell) (h : ∀ c ∈ m, c.1 ≠ a) :
    Memory.read a (Memory.place a v m) = v := by
  induction m with
  | nil => simp [Memory.place, Memory.read]
  | cons c m ih =>
    have hc : c.1 ≠ a := h c (by simp)
    unfold Memory.place
    split
    · simp [Memory.read]
    · simpa [Memory.read, hc] using ih (fun d hd => h d (by simp [hd]))

theorem read_place_other (a b : Nat) (v : Octet) (m : List Host.Cell) (h : b ≠ a) :
    Memory.read b (Memory.place a v m) = Memory.read b m := by
  induction m with
  | nil => simp [Memory.place, Memory.read, Ne.symm h]
  | cons c m ih =>
    unfold Memory.place
    split
    · simp [Memory.read, Ne.symm h]
    · simp [Memory.read, ih]

theorem read_filter_same (a : Nat) (m : List Host.Cell) :
    Memory.read a (m.filter fun c => c.1 != a) = Memory.unlisted := by
  induction m with
  | nil => rfl
  | cons c m ih => by_cases h : c.1 = a <;> simp [Memory.read, h, ih]

theorem read_filter_other (a b : Nat) (m : List Host.Cell) (h : b ≠ a) :
    Memory.read b (m.filter fun c => c.1 != a) = Memory.read b m := by
  induction m with
  | nil => rfl
  | cons c m ih =>
    by_cases hc : c.1 = a
    · have : c.1 ≠ b := by omega
      simp [Memory.read, hc, ih, Ne.symm h]
    · simp [Memory.read, hc, ih]

/-- Reading the byte just written gives it. -/
@[simp] theorem read_write_same (a : Nat) (v : Octet) (m : List Host.Cell) :
    Memory.read a (Memory.write a v m) = v := by
  unfold Memory.write
  split
  · next h => simp [read_filter_same, h]
  · exact read_place_same a v _ (by simp [List.mem_filter])

/-- Writing a byte leaves every other byte alone. -/
theorem read_write_other (a b : Nat) (v : Octet) (m : List Host.Cell) (h : b ≠ a) :
    Memory.read b (Memory.write a v m) = Memory.read b m := by
  unfold Memory.write
  split
  · exact read_filter_other a b m h
  · rw [read_place_other a b v _ h, read_filter_other a b m h]

theorem mem_place (a : Nat) (v : Octet) (m : List Host.Cell) (c : Host.Cell) :
    c ∈ Memory.place a v m ↔ c = (a, v) ∨ c ∈ m := by
  induction m with
  | nil => simp [Memory.place]
  | cons d m ih =>
    unfold Memory.place
    split
    · simp
    · simp only [List.mem_cons, ih]
      constructor <;> rintro (h | h | h) <;> simp [h]

theorem pairwise_place (a : Nat) (v : Octet) (m : List Host.Cell)
    (hs : m.Pairwise fun x y => x.1 < y.1) (h : ∀ c ∈ m, c.1 ≠ a) :
    (Memory.place a v m).Pairwise fun x y => x.1 < y.1 := by
  induction m with
  | nil => simp [Memory.place]
  | cons c m ih =>
    obtain ⟨hc, hm⟩ := List.pairwise_cons.mp hs
    unfold Memory.place
    split
    · next hlt =>
      refine List.pairwise_cons.mpr ⟨fun d hd => ?_, hs⟩
      rcases List.mem_cons.mp hd with rfl | hd
      · exact hlt
      · exact Nat.lt_trans hlt (hc d hd)
    · next hge =>
      refine List.pairwise_cons.mpr ⟨fun d hd => ?_, ih hm fun d hd => h d (by simp [hd])⟩
      have : c.1 ≠ a := h c (by simp)
      rcases (mem_place a v m d).mp hd with rfl | hd
      · show c.1 < a
        omega
      · exact hc d hd

/-- A byte write below 2^32 keeps the canonical form. -/
theorem write_wf (a : Nat) (v : Octet) (m : List Host.Cell) (ha : a < 2 ^ 32) (h : Memory.wf m) :
    Memory.wf (Memory.write a v m) := by
  have hf : (m.filter fun c => c.1 != a).Pairwise fun x y => x.1 < y.1 := h.1.filter _
  unfold Memory.write
  split
  · exact ⟨hf, fun c hc => h.2 c (List.mem_filter.mp hc).1⟩
  · next hv =>
    refine ⟨pairwise_place a v _ hf (by simp [List.mem_filter]), fun c hc => ?_⟩
    rcases (mem_place a v _ c).mp hc with rfl | hc
    · exact ⟨ha, hv⟩
    · exact h.2 c (List.mem_filter.mp hc).1

/-- Reset's memory has the form. -/
theorem reset_mem_wf : Memory.wf State.reset.mem := by decide

/-! ### Words -/

/-- A word write keeps the canonical form. -/
theorem writeWord_wf (m : List Host.Cell) (a v : Word) (h : Memory.wf m) : Memory.wf (Memory.writeWord m a v) := by
  unfold Memory.writeWord
  iterate 4 refine write_wf _ _ _ (BitVec.isLt _) ?_
  exact h

theorem key_injective (a : Word) (j k : Nat) (hj : j < 4) (hk : k < 4) :
    Memory.key a j = Memory.key a k ↔ j = k := by
  unfold Memory.key
  simp only [BitVec.toNat_add, BitVec.toNat_ofNat]
  omega

/-- The bytes of the word just written. -/
theorem read_writeWord_at (m : List Host.Cell) (a v : Word) (k : Nat) (hk : k < 4) :
    Memory.read (Memory.key a k) (Memory.writeWord m a v) = v.extractLsb' (8 * k) 8 := by
  have hne : ∀ j, j < 4 → j ≠ k → Memory.key a k ≠ Memory.key a j := fun j hj hn he =>
    hn ((key_injective a k j hk hj).mp he).symm
  unfold Memory.writeWord
  obtain rfl | rfl | rfl | rfl : k = 0 ∨ k = 1 ∨ k = 2 ∨ k = 3 := by omega
  · rw [read_write_other _ _ _ _ (hne 3 (by omega) (by omega)), read_write_other _ _ _ _ (hne 2 (by omega) (by omega)),
      read_write_other _ _ _ _ (hne 1 (by omega) (by omega)), read_write_same]
  · rw [read_write_other _ _ _ _ (hne 3 (by omega) (by omega)), read_write_other _ _ _ _ (hne 2 (by omega) (by omega)),
      read_write_same]
  · rw [read_write_other _ _ _ _ (hne 3 (by omega) (by omega)), read_write_same]
  · rw [read_write_same]

/-- A word write leaves every byte outside its four alone. -/
theorem read_writeWord_other (m : List Host.Cell) (a v : Word) (x : Nat) (h : ∀ k, k < 4 → x ≠ Memory.key a k) :
    Memory.read x (Memory.writeWord m a v) = Memory.read x m := by
  unfold Memory.writeWord
  rw [read_write_other _ _ _ _ (h 3 (by omega)), read_write_other _ _ _ _ (h 2 (by omega)),
    read_write_other _ _ _ _ (h 1 (by omega)), read_write_other _ _ _ _ (h 0 (by omega))]

/-- Reading the word just written gives it. -/
@[simp] theorem readWord_writeWord_same (m : List Host.Cell) (a v : Word) :
    Memory.readWord (Memory.writeWord m a v) a = v := by
  unfold Memory.readWord
  rw [read_writeWord_at m a v 3 (by omega), read_writeWord_at m a v 2 (by omega), read_writeWord_at m a v 1 (by omega),
    read_writeWord_at m a v 0 (by omega)]
  ext i hi
  simp only [BitVec.getElem_append, BitVec.getElem_extractLsb']
  (repeat' split) <;> (rw [← BitVec.getLsbD_eq_getElem]; congr 1; omega)

/-- A word write leaves the words that share no byte with it alone. -/
theorem readWord_writeWord_other (m : List Host.Cell) (a b v : Word)
    (h : ∀ j k, j < 4 → k < 4 → Memory.key b j ≠ Memory.key a k) :
    Memory.readWord (Memory.writeWord m a v) b = Memory.readWord m b := by
  unfold Memory.readWord
  rw [read_writeWord_other m a v _ fun k hk => h 3 k (by omega) hk,
    read_writeWord_other m a v _ fun k hk => h 2 k (by omega) hk,
    read_writeWord_other m a v _ fun k hk => h 1 k (by omega) hk,
    read_writeWord_other m a v _ fun k hk => h 0 k (by omega) hk]

/-! ### Registers -/

theorem mem_families (f : Family) : f ∈ families := by cases f <;> decide

theorem mem_registers (f : Family) (b : Nat) : (f, b) ∈ registers ↔ b < nbanks f := by
  simp [registers, mem_families]

theorem registers_apart : ∀ r ∈ registers, ∀ q ∈ registers, r ≠ q →
    offset r.1 + 4 * r.2 + 4 ≤ offset q.1 + 4 * q.2 ∨ offset q.1 + 4 * q.2 + 4 ≤ offset r.1 + 4 * r.2 := by
  decide

theorem registers_low : ∀ r ∈ registers, offset r.1 + 4 * r.2 + 4 ≤ 0xA0 := by decide

/-- Distinct registers share no byte, wherever the register block is mapped (R32). -/
theorem keys_apart (m : Word) (f g : Family) (b c j k : Nat) (hb : b < nbanks f) (hc : c < nbanks g)
    (hne : (f, b) ≠ (g, c)) (hj : j < 4) (hk : k < 4) :
    Memory.key (addr m f b) j ≠ Memory.key (addr m g c) k := by
  have h1 := registers_apart (f, b) ((mem_registers f b).mpr hb) (g, c) ((mem_registers g c).mpr hc) hne
  have h2 := registers_low (f, b) ((mem_registers f b).mpr hb)
  have h3 := registers_low (g, c) ((mem_registers g c).mpr hc)
  unfold Memory.key addr
  simp only [BitVec.toNat_add, BitVec.toNat_ofNat] at *
  omega

theorem find_unique {α : Type} (p : α → Bool) (l : List α) (x : α) (hx : x ∈ l) (hp : p x = true)
    (hu : ∀ r ∈ l, p r = true → r = x) : l.find? p = some x := by
  cases hf : l.find? p with
  | none => exact absurd (List.find?_eq_none.mp hf x hx) (by simp [hp])
  | some r => rw [hu r (List.mem_of_find?_eq_some hf) (List.find?_some hf)]

/-- The register at ADDR(f, b) of the block as it is mapped is (f, b). -/
theorem locate_addr (m : Word) (f : Family) (b : Nat) (hb : b < nbanks f) : locate m (addr m f b) = some (f, b) := by
  have hin := (mem_registers f b).mpr hb
  unfold locate
  have huniq : ∀ r ∈ registers, (addr m r.1 r.2 == addr m f b) = true → r = (f, b) := by
    intro r hr he
    refine Decidable.byContradiction fun hne => ?_
    have h1 := registers_apart r hr (f, b) hin hne
    have h2 := registers_low r hr
    have h3 := registers_low (f, b) hin
    have h4 := congrArg BitVec.toNat (eq_of_beq he)
    unfold addr at h4
    simp only [BitVec.toNat_add, BitVec.toNat_ofNat] at *
    omega
  exact find_unique _ _ _ hin (by simp) huniq

/-- The default table meets R32's conditions on OFFSET. -/
theorem tableOk_default : tableOk = true := by decide

end Sys2Proof.Machine
end

