-- ==== Sys2Proof/Laws/State.lean ====
section
/-!
SUPPORT. Laws/State.lean: one lemma per field per state update, so that no proof unfolds a record update. A field an
update changes in a way of its own (ctrlWrite's memory, say) has no lemma here.
-/

namespace Sys2Proof.Machine

section
variable (ws : List Work) (s : State)

@[simp] theorem setPending_base : (setPending ws s).base = s.base := rfl
@[simp] theorem setPending_phase : (setPending ws s).phase = s.phase := rfl
@[simp] theorem setPending_fault : (setPending ws s).fault = s.fault := rfl
@[simp] theorem setPending_finfo : (setPending ws s).finfo = s.finfo := rfl
@[simp] theorem setPending_busy : (setPending ws s).busy = s.busy := rfl
@[simp] theorem setPending_cmd : (setPending ws s).cmd = s.cmd := rfl
@[simp] theorem setPending_response : (setPending ws s).response = s.response := rfl
@[simp] theorem setPending_pending : (setPending ws s).pending = ws := rfl
@[simp] theorem setPending_trace : (setPending ws s).trace = s.trace := rfl
@[simp] theorem setPending_inputs : (setPending ws s).inputs = s.inputs := rfl
@[simp] theorem setPending_turn : (setPending ws s).turn = s.turn := rfl
@[simp] theorem setPending_answers : (setPending ws s).answers = s.answers := rfl
@[simp] theorem setPending_delays : (setPending ws s).delays = s.delays := rfl
@[simp] theorem setPending_mapped : (setPending ws s).mapped = s.mapped := rfl
@[simp] theorem setPending_mem : (setPending ws s).mem = s.mem := rfl
@[simp] theorem setPending_outl : (setPending ws s).outl = s.outl := rfl
@[simp] theorem setPending_pinsIn : (setPending ws s).pinsIn = s.pinsIn := rfl
@[simp] theorem setPending_pins : (setPending ws s).pins = s.pins := rfl
@[simp] theorem setPending_pudStage : (setPending ws s).pudStage = s.pudStage := rfl
@[simp] theorem setPending_fresh : (setPending ws s).fresh = s.fresh := rfl

end

section
variable (k : Option Nat) (s : State)

@[simp] theorem setTurn_base : (setTurn k s).base = s.base := rfl
@[simp] theorem setTurn_phase : (setTurn k s).phase = s.phase := rfl
@[simp] theorem setTurn_fault : (setTurn k s).fault = s.fault := rfl
@[simp] theorem setTurn_finfo : (setTurn k s).finfo = s.finfo := rfl
@[simp] theorem setTurn_busy : (setTurn k s).busy = s.busy := rfl
@[simp] theorem setTurn_cmd : (setTurn k s).cmd = s.cmd := rfl
@[simp] theorem setTurn_response : (setTurn k s).response = s.response := rfl
@[simp] theorem setTurn_pending : (setTurn k s).pending = s.pending := rfl
@[simp] theorem setTurn_trace : (setTurn k s).trace = s.trace := rfl
@[simp] theorem setTurn_inputs : (setTurn k s).inputs = s.inputs := rfl
@[simp] theorem setTurn_turn : (setTurn k s).turn = k := rfl
@[simp] theorem setTurn_answers : (setTurn k s).answers = s.answers := rfl
@[simp] theorem setTurn_delays : (setTurn k s).delays = s.delays := rfl
@[simp] theorem setTurn_mapped : (setTurn k s).mapped = s.mapped := rfl
@[simp] theorem setTurn_mem : (setTurn k s).mem = s.mem := rfl
@[simp] theorem setTurn_outl : (setTurn k s).outl = s.outl := rfl
@[simp] theorem setTurn_pinsIn : (setTurn k s).pinsIn = s.pinsIn := rfl
@[simp] theorem setTurn_pins : (setTurn k s).pins = s.pins := rfl
@[simp] theorem setTurn_pudStage : (setTurn k s).pudStage = s.pudStage := rfl
@[simp] theorem setTurn_fresh : (setTurn k s).fresh = s.fresh := rfl

end

section
variable (is : List Input) (s : State)

@[simp] theorem setInputs_base : (setInputs is s).base = s.base := rfl
@[simp] theorem setInputs_phase : (setInputs is s).phase = s.phase := rfl
@[simp] theorem setInputs_fault : (setInputs is s).fault = s.fault := rfl
@[simp] theorem setInputs_finfo : (setInputs is s).finfo = s.finfo := rfl
@[simp] theorem setInputs_busy : (setInputs is s).busy = s.busy := rfl
@[simp] theorem setInputs_cmd : (setInputs is s).cmd = s.cmd := rfl
@[simp] theorem setInputs_response : (setInputs is s).response = s.response := rfl
@[simp] theorem setInputs_pending : (setInputs is s).pending = s.pending := rfl
@[simp] theorem setInputs_trace : (setInputs is s).trace = s.trace := rfl
@[simp] theorem setInputs_inputs : (setInputs is s).inputs = is := rfl
@[simp] theorem setInputs_turn : (setInputs is s).turn = s.turn := rfl
@[simp] theorem setInputs_answers : (setInputs is s).answers = s.answers := rfl
@[simp] theorem setInputs_delays : (setInputs is s).delays = s.delays := rfl
@[simp] theorem setInputs_mapped : (setInputs is s).mapped = s.mapped := rfl
@[simp] theorem setInputs_mem : (setInputs is s).mem = s.mem := rfl
@[simp] theorem setInputs_outl : (setInputs is s).outl = s.outl := rfl
@[simp] theorem setInputs_pinsIn : (setInputs is s).pinsIn = s.pinsIn := rfl
@[simp] theorem setInputs_pins : (setInputs is s).pins = s.pins := rfl
@[simp] theorem setInputs_pudStage : (setInputs is s).pudStage = s.pudStage := rfl
@[simp] theorem setInputs_fresh : (setInputs is s).fresh = s.fresh := rfl

end

section
variable (e : Event) (s : State)

@[simp] theorem logEvent_base : (logEvent e s).base = s.base := rfl
@[simp] theorem logEvent_phase : (logEvent e s).phase = s.phase := rfl
@[simp] theorem logEvent_fault : (logEvent e s).fault = s.fault := rfl
@[simp] theorem logEvent_finfo : (logEvent e s).finfo = s.finfo := rfl
@[simp] theorem logEvent_busy : (logEvent e s).busy = s.busy := rfl
@[simp] theorem logEvent_cmd : (logEvent e s).cmd = s.cmd := rfl
@[simp] theorem logEvent_response : (logEvent e s).response = s.response := rfl
@[simp] theorem logEvent_pending : (logEvent e s).pending = s.pending := rfl
@[simp] theorem logEvent_trace : (logEvent e s).trace = s.trace ++ [e] := rfl
@[simp] theorem logEvent_inputs : (logEvent e s).inputs = s.inputs := rfl
@[simp] theorem logEvent_turn : (logEvent e s).turn = s.turn := rfl
@[simp] theorem logEvent_answers : (logEvent e s).answers = s.answers := rfl
@[simp] theorem logEvent_delays : (logEvent e s).delays = s.delays := rfl
@[simp] theorem logEvent_mapped : (logEvent e s).mapped = s.mapped := rfl
@[simp] theorem logEvent_mem : (logEvent e s).mem = s.mem := rfl
@[simp] theorem logEvent_outl : (logEvent e s).outl = s.outl := rfl
@[simp] theorem logEvent_pinsIn : (logEvent e s).pinsIn = s.pinsIn := rfl
@[simp] theorem logEvent_pins : (logEvent e s).pins = s.pins := rfl
@[simp] theorem logEvent_pudStage : (logEvent e s).pudStage = s.pudStage := rfl
@[simp] theorem logEvent_fresh : (logEvent e s).fresh = s.fresh := rfl

end

section
variable  (s : State)

@[simp] theorem answerUsed_base : (answerUsed s).base = s.base := rfl
@[simp] theorem answerUsed_phase : (answerUsed s).phase = s.phase := rfl
@[simp] theorem answerUsed_fault : (answerUsed s).fault = s.fault := rfl
@[simp] theorem answerUsed_finfo : (answerUsed s).finfo = s.finfo := rfl
@[simp] theorem answerUsed_busy : (answerUsed s).busy = s.busy := rfl
@[simp] theorem answerUsed_cmd : (answerUsed s).cmd = s.cmd := rfl
@[simp] theorem answerUsed_response : (answerUsed s).response = s.response := rfl
@[simp] theorem answerUsed_pending : (answerUsed s).pending = s.pending := rfl
@[simp] theorem answerUsed_trace : (answerUsed s).trace = s.trace := rfl
@[simp] theorem answerUsed_inputs : (answerUsed s).inputs = s.inputs := rfl
@[simp] theorem answerUsed_turn : (answerUsed s).turn = s.turn := rfl
@[simp] theorem answerUsed_answers : (answerUsed s).answers = s.answers.tail := rfl
@[simp] theorem answerUsed_delays : (answerUsed s).delays = s.delays := rfl
@[simp] theorem answerUsed_mapped : (answerUsed s).mapped = s.mapped := rfl
@[simp] theorem answerUsed_mem : (answerUsed s).mem = s.mem := rfl
@[simp] theorem answerUsed_outl : (answerUsed s).outl = s.outl := rfl
@[simp] theorem answerUsed_pinsIn : (answerUsed s).pinsIn = s.pinsIn := rfl
@[simp] theorem answerUsed_pins : (answerUsed s).pins = s.pins := rfl
@[simp] theorem answerUsed_pudStage : (answerUsed s).pudStage = s.pudStage := rfl
@[simp] theorem answerUsed_fresh : (answerUsed s).fresh = s.fresh + 1 := rfl

end

section
variable (f : Family) (b : Nat) (s : State)

@[simp] theorem regRead_base : (regRead f b s).base = s.base := rfl
@[simp] theorem regRead_phase : (regRead f b s).phase = s.phase := rfl
@[simp] theorem regRead_fault : (regRead f b s).fault = s.fault := rfl
@[simp] theorem regRead_finfo : (regRead f b s).finfo = s.finfo := rfl
@[simp] theorem regRead_busy : (regRead f b s).busy = s.busy := rfl
@[simp] theorem regRead_cmd : (regRead f b s).cmd = s.cmd := rfl
@[simp] theorem regRead_response : (regRead f b s).response = s.response := rfl
@[simp] theorem regRead_pending : (regRead f b s).pending = s.pending := rfl
@[simp] theorem regRead_trace : (regRead f b s).trace = s.trace ++ [.rd f b (answer f b s)] := rfl
@[simp] theorem regRead_inputs : (regRead f b s).inputs = s.inputs := rfl
@[simp] theorem regRead_turn : (regRead f b s).turn = s.turn := rfl
@[simp] theorem regRead_answers : (regRead f b s).answers = s.answers.tail := rfl
@[simp] theorem regRead_delays : (regRead f b s).delays = s.delays := rfl
@[simp] theorem regRead_mapped : (regRead f b s).mapped = s.mapped := rfl
@[simp] theorem regRead_mem : (regRead f b s).mem = s.mem := rfl
@[simp] theorem regRead_outl : (regRead f b s).outl = s.outl := rfl
@[simp] theorem regRead_pinsIn : (regRead f b s).pinsIn = s.pinsIn := rfl
@[simp] theorem regRead_pins : (regRead f b s).pins = s.pins := rfl
@[simp] theorem regRead_pudStage : (regRead f b s).pudStage = s.pudStage := rfl
@[simp] theorem regRead_fresh : (regRead f b s).fresh = s.fresh + 1 := rfl

end

section
variable (st : Status) (r : Word) (s : State)

@[simp] theorem respond_base : (respond st r s).base = s.base := rfl
@[simp] theorem respond_phase : (respond st r s).phase = s.phase := rfl
@[simp] theorem respond_fault : (respond st r s).fault = s.fault := rfl
@[simp] theorem respond_finfo : (respond st r s).finfo = s.finfo := rfl
@[simp] theorem respond_busy : (respond st r s).busy = false := rfl
@[simp] theorem respond_cmd : (respond st r s).cmd = s.cmd := rfl
@[simp] theorem respond_response : (respond st r s).response = some ⟨st, r⟩ := rfl
@[simp] theorem respond_pending : (respond st r s).pending = s.pending := rfl
@[simp] theorem respond_trace : (respond st r s).trace = s.trace ++ [.rsp st r] := rfl
@[simp] theorem respond_inputs : (respond st r s).inputs = s.inputs := rfl
@[simp] theorem respond_turn : (respond st r s).turn = s.turn := rfl
@[simp] theorem respond_answers : (respond st r s).answers = s.answers := rfl
@[simp] theorem respond_delays : (respond st r s).delays = s.delays := rfl
@[simp] theorem respond_mapped : (respond st r s).mapped = s.mapped := rfl
@[simp] theorem respond_mem : (respond st r s).mem = s.mem := rfl
@[simp] theorem respond_outl : (respond st r s).outl = s.outl := rfl
@[simp] theorem respond_pinsIn : (respond st r s).pinsIn = s.pinsIn := rfl
@[simp] theorem respond_pins : (respond st r s).pins = s.pins := rfl
@[simp] theorem respond_pudStage : (respond st r s).pudStage = s.pudStage := rfl
@[simp] theorem respond_fresh : (respond st r s).fresh = s.fresh := rfl

end

section
variable (k : FaultKind) (s : State)

@[simp] theorem raiseFault_base : (raiseFault k s).base = s.base := rfl
@[simp] theorem raiseFault_phase : (raiseFault k s).phase = s.phase := rfl
@[simp] theorem raiseFault_fault : (raiseFault k s).fault = some k := rfl
@[simp] theorem raiseFault_finfo : (raiseFault k s).finfo = s.cmd := rfl
@[simp] theorem raiseFault_busy : (raiseFault k s).busy = false := rfl
@[simp] theorem raiseFault_cmd : (raiseFault k s).cmd = s.cmd := rfl
@[simp] theorem raiseFault_response : (raiseFault k s).response = some ⟨faultStatus k, 0#32⟩ := rfl
@[simp] theorem raiseFault_pending : (raiseFault k s).pending = s.pending := rfl
@[simp] theorem raiseFault_trace : (raiseFault k s).trace = s.trace ++ [.rsp (faultStatus k) 0#32] := rfl
@[simp] theorem raiseFault_inputs : (raiseFault k s).inputs = s.inputs := rfl
@[simp] theorem raiseFault_turn : (raiseFault k s).turn = s.turn := rfl
@[simp] theorem raiseFault_answers : (raiseFault k s).answers = s.answers := rfl
@[simp] theorem raiseFault_delays : (raiseFault k s).delays = s.delays := rfl
@[simp] theorem raiseFault_mapped : (raiseFault k s).mapped = s.mapped := rfl
@[simp] theorem raiseFault_mem : (raiseFault k s).mem = s.mem := rfl
@[simp] theorem raiseFault_outl : (raiseFault k s).outl = s.outl := rfl
@[simp] theorem raiseFault_pinsIn : (raiseFault k s).pinsIn = s.pinsIn := rfl
@[simp] theorem raiseFault_pins : (raiseFault k s).pins = s.pins := rfl
@[simp] theorem raiseFault_pudStage : (raiseFault k s).pudStage = s.pudStage := rfl
@[simp] theorem raiseFault_fresh : (raiseFault k s).fresh = s.fresh := rfl

end

section
variable (ws : List Work) (s : State)

@[simp] theorem goOn_base : (goOn ws s).base = s.base := rfl
@[simp] theorem goOn_phase : (goOn ws s).phase = s.phase := rfl
@[simp] theorem goOn_fault : (goOn ws s).fault = s.fault := rfl
@[simp] theorem goOn_finfo : (goOn ws s).finfo = s.finfo := rfl
@[simp] theorem goOn_busy : (goOn ws s).busy = s.busy := rfl
@[simp] theorem goOn_cmd : (goOn ws s).cmd = s.cmd := rfl
@[simp] theorem goOn_response : (goOn ws s).response = s.response := rfl
@[simp] theorem goOn_pending : (goOn ws s).pending = ws ++ s.pending := rfl
@[simp] theorem goOn_trace : (goOn ws s).trace = s.trace := rfl
@[simp] theorem goOn_inputs : (goOn ws s).inputs = s.inputs := rfl
@[simp] theorem goOn_turn : (goOn ws s).turn = s.turn := rfl
@[simp] theorem goOn_answers : (goOn ws s).answers = s.answers := rfl
@[simp] theorem goOn_delays : (goOn ws s).delays = s.delays := rfl
@[simp] theorem goOn_mapped : (goOn ws s).mapped = s.mapped := rfl
@[simp] theorem goOn_mem : (goOn ws s).mem = s.mem := rfl
@[simp] theorem goOn_outl : (goOn ws s).outl = s.outl := rfl
@[simp] theorem goOn_pinsIn : (goOn ws s).pinsIn = s.pinsIn := rfl
@[simp] theorem goOn_pins : (goOn ws s).pins = s.pins := rfl
@[simp] theorem goOn_pudStage : (goOn ws s).pudStage = s.pudStage := rfl
@[simp] theorem goOn_fresh : (goOn ws s).fresh = s.fresh := rfl

end

section
variable (w : Word) (s : State)

@[simp] theorem accept_base : (accept w s).base = s.base := rfl
@[simp] theorem accept_phase : (accept w s).phase = s.phase := rfl
@[simp] theorem accept_fault : (accept w s).fault = s.fault := rfl
@[simp] theorem accept_finfo : (accept w s).finfo = s.finfo := rfl
@[simp] theorem accept_busy : (accept w s).busy = true := rfl
@[simp] theorem accept_cmd : (accept w s).cmd = w := rfl
@[simp] theorem accept_response : (accept w s).response = none := rfl
@[simp] theorem accept_pending : (accept w s).pending = s.pending := rfl
@[simp] theorem accept_trace : (accept w s).trace = s.trace := rfl
@[simp] theorem accept_inputs : (accept w s).inputs = s.inputs := rfl
@[simp] theorem accept_turn : (accept w s).turn = s.turn := rfl
@[simp] theorem accept_answers : (accept w s).answers = s.answers := rfl
@[simp] theorem accept_delays : (accept w s).delays = s.delays := rfl
@[simp] theorem accept_mapped : (accept w s).mapped = s.mapped := rfl
@[simp] theorem accept_mem : (accept w s).mem = s.mem := rfl
@[simp] theorem accept_outl : (accept w s).outl = s.outl := rfl
@[simp] theorem accept_pinsIn : (accept w s).pinsIn = s.pinsIn := rfl
@[simp] theorem accept_pins : (accept w s).pins = s.pins := rfl
@[simp] theorem accept_pudStage : (accept w s).pudStage = s.pudStage := rfl
@[simp] theorem accept_fresh : (accept w s).fresh = s.fresh := rfl

end

section
variable (p : Option Phase) (s : State)

@[simp] theorem setPhase_base : (setPhase p s).base = s.base := by cases p <;> rfl
@[simp] theorem setPhase_fault : (setPhase p s).fault = s.fault := by cases p <;> rfl
@[simp] theorem setPhase_finfo : (setPhase p s).finfo = s.finfo := by cases p <;> rfl
@[simp] theorem setPhase_busy : (setPhase p s).busy = s.busy := by cases p <;> rfl
@[simp] theorem setPhase_cmd : (setPhase p s).cmd = s.cmd := by cases p <;> rfl
@[simp] theorem setPhase_response : (setPhase p s).response = s.response := by cases p <;> rfl
@[simp] theorem setPhase_pending : (setPhase p s).pending = s.pending := by cases p <;> rfl
@[simp] theorem setPhase_trace : (setPhase p s).trace = s.trace := by cases p <;> rfl
@[simp] theorem setPhase_inputs : (setPhase p s).inputs = s.inputs := by cases p <;> rfl
@[simp] theorem setPhase_turn : (setPhase p s).turn = s.turn := by cases p <;> rfl
@[simp] theorem setPhase_answers : (setPhase p s).answers = s.answers := by cases p <;> rfl
@[simp] theorem setPhase_delays : (setPhase p s).delays = s.delays := by cases p <;> rfl
@[simp] theorem setPhase_mapped : (setPhase p s).mapped = s.mapped := by cases p <;> rfl
@[simp] theorem setPhase_mem : (setPhase p s).mem = s.mem := by cases p <;> rfl
@[simp] theorem setPhase_outl : (setPhase p s).outl = s.outl := by cases p <;> rfl
@[simp] theorem setPhase_pinsIn : (setPhase p s).pinsIn = s.pinsIn := by cases p <;> rfl
@[simp] theorem setPhase_pins : (setPhase p s).pins = s.pins := by cases p <;> rfl
@[simp] theorem setPhase_pudStage : (setPhase p s).pudStage = s.pudStage := by cases p <;> rfl
@[simp] theorem setPhase_fresh : (setPhase p s).fresh = s.fresh := by cases p <;> rfl

end

section
variable (f : Family) (b : Nat) (v : Word) (s : State)

@[simp] theorem store_base : (store f b v s).base = s.base := rfl
@[simp] theorem store_phase : (store f b v s).phase = s.phase := rfl
@[simp] theorem store_fault : (store f b v s).fault = s.fault := rfl
@[simp] theorem store_finfo : (store f b v s).finfo = s.finfo := rfl
@[simp] theorem store_busy : (store f b v s).busy = s.busy := rfl
@[simp] theorem store_cmd : (store f b v s).cmd = s.cmd := rfl
@[simp] theorem store_response : (store f b v s).response = s.response := rfl
@[simp] theorem store_pending : (store f b v s).pending = s.pending := rfl
@[simp] theorem store_trace : (store f b v s).trace = s.trace := rfl
@[simp] theorem store_inputs : (store f b v s).inputs = s.inputs := rfl
@[simp] theorem store_turn : (store f b v s).turn = s.turn := rfl
@[simp] theorem store_answers : (store f b v s).answers = s.answers := rfl
@[simp] theorem store_delays : (store f b v s).delays = s.delays := rfl
@[simp] theorem store_mapped : (store f b v s).mapped = s.mapped := rfl
@[simp] theorem store_mem : (store f b v s).mem = Memory.writeWord s.mem (addr s.mapped f b) v := rfl
@[simp] theorem store_outl : (store f b v s).outl = s.outl := rfl
@[simp] theorem store_pinsIn : (store f b v s).pinsIn = s.pinsIn := rfl
@[simp] theorem store_pins : (store f b v s).pins = s.pins := rfl
@[simp] theorem store_pudStage : (store f b v s).pudStage = s.pudStage := rfl
@[simp] theorem store_fresh : (store f b v s).fresh = s.fresh := rfl

end

section
variable (v : Word) (s : State)

@[simp] theorem pudWritten_base : (pudWritten v s).base = s.base := rfl
@[simp] theorem pudWritten_phase : (pudWritten v s).phase = s.phase := rfl
@[simp] theorem pudWritten_fault : (pudWritten v s).fault = s.fault := rfl
@[simp] theorem pudWritten_finfo : (pudWritten v s).finfo = s.finfo := rfl
@[simp] theorem pudWritten_busy : (pudWritten v s).busy = s.busy := rfl
@[simp] theorem pudWritten_cmd : (pudWritten v s).cmd = s.cmd := rfl
@[simp] theorem pudWritten_response : (pudWritten v s).response = s.response := rfl
@[simp] theorem pudWritten_pending : (pudWritten v s).pending = s.pending := rfl
@[simp] theorem pudWritten_trace : (pudWritten v s).trace = s.trace := rfl
@[simp] theorem pudWritten_inputs : (pudWritten v s).inputs = s.inputs := rfl
@[simp] theorem pudWritten_turn : (pudWritten v s).turn = s.turn := rfl
@[simp] theorem pudWritten_answers : (pudWritten v s).answers = s.answers := rfl
@[simp] theorem pudWritten_delays : (pudWritten v s).delays = s.delays := rfl
@[simp] theorem pudWritten_mapped : (pudWritten v s).mapped = s.mapped := rfl
@[simp] theorem pudWritten_mem : (pudWritten v s).mem = s.mem := rfl
@[simp] theorem pudWritten_outl : (pudWritten v s).outl = s.outl := rfl
@[simp] theorem pudWritten_pinsIn : (pudWritten v s).pinsIn = s.pinsIn := rfl
@[simp] theorem pudWritten_pins : (pudWritten v s).pins = mapPins (fun p l => latchOnPud v (clockBit p s) (freePull s p) l) 0 s.pins := rfl
@[simp] theorem pudWritten_pudStage : (pudWritten v s).pudStage = .written := rfl
@[simp] theorem pudWritten_fresh : (pudWritten v s).fresh = s.fresh + 54 := rfl

end

section
variable (b : Nat) (v : Word) (s : State)

@[simp] theorem clockWritten_base : (clockWritten b v s).base = s.base := rfl
@[simp] theorem clockWritten_phase : (clockWritten b v s).phase = s.phase := rfl
@[simp] theorem clockWritten_fault : (clockWritten b v s).fault = s.fault := rfl
@[simp] theorem clockWritten_finfo : (clockWritten b v s).finfo = s.finfo := rfl
@[simp] theorem clockWritten_busy : (clockWritten b v s).busy = s.busy := rfl
@[simp] theorem clockWritten_cmd : (clockWritten b v s).cmd = s.cmd := rfl
@[simp] theorem clockWritten_response : (clockWritten b v s).response = s.response := rfl
@[simp] theorem clockWritten_pending : (clockWritten b v s).pending = s.pending := rfl
@[simp] theorem clockWritten_trace : (clockWritten b v s).trace = s.trace := rfl
@[simp] theorem clockWritten_inputs : (clockWritten b v s).inputs = s.inputs := rfl
@[simp] theorem clockWritten_turn : (clockWritten b v s).turn = s.turn := rfl
@[simp] theorem clockWritten_answers : (clockWritten b v s).answers = s.answers := rfl
@[simp] theorem clockWritten_delays : (clockWritten b v s).delays = s.delays := rfl
@[simp] theorem clockWritten_mapped : (clockWritten b v s).mapped = s.mapped := rfl
@[simp] theorem clockWritten_mem : (clockWritten b v s).mem = s.mem := rfl
@[simp] theorem clockWritten_outl : (clockWritten b v s).outl = s.outl := rfl
@[simp] theorem clockWritten_pinsIn : (clockWritten b v s).pinsIn = s.pinsIn := rfl
@[simp] theorem clockWritten_pudStage : (clockWritten b v s).pudStage = s.pudStage := rfl
@[simp] theorem clockWritten_fresh : (clockWritten b v s).fresh = s.fresh + 54 := rfl

end

section
variable  (s : State)

@[simp] theorem settlePasses_base : (settlePasses s).base = s.base := rfl
@[simp] theorem settlePasses_phase : (settlePasses s).phase = s.phase := rfl
@[simp] theorem settlePasses_fault : (settlePasses s).fault = s.fault := rfl
@[simp] theorem settlePasses_finfo : (settlePasses s).finfo = s.finfo := rfl
@[simp] theorem settlePasses_busy : (settlePasses s).busy = s.busy := rfl
@[simp] theorem settlePasses_cmd : (settlePasses s).cmd = s.cmd := rfl
@[simp] theorem settlePasses_response : (settlePasses s).response = s.response := rfl
@[simp] theorem settlePasses_pending : (settlePasses s).pending = s.pending := rfl
@[simp] theorem settlePasses_trace : (settlePasses s).trace = s.trace := rfl
@[simp] theorem settlePasses_inputs : (settlePasses s).inputs = s.inputs := rfl
@[simp] theorem settlePasses_turn : (settlePasses s).turn = s.turn := rfl
@[simp] theorem settlePasses_answers : (settlePasses s).answers = s.answers := rfl
@[simp] theorem settlePasses_delays : (settlePasses s).delays = s.delays := rfl
@[simp] theorem settlePasses_mapped : (settlePasses s).mapped = s.mapped := rfl
@[simp] theorem settlePasses_mem : (settlePasses s).mem = s.mem := rfl
@[simp] theorem settlePasses_outl : (settlePasses s).outl = s.outl := rfl
@[simp] theorem settlePasses_pinsIn : (settlePasses s).pinsIn = s.pinsIn := rfl
@[simp] theorem settlePasses_pins : (settlePasses s).pins = mapPins (fun _ l => latchOnSettle l) 0 s.pins := rfl
@[simp] theorem settlePasses_fresh : (settlePasses s).fresh = s.fresh := rfl

end

section
variable (hit : Nat → Bool) (stage : LatchStage → LatchStage) (s : State)

@[simp] theorem spoilPins_base : (spoilPins hit stage s).base = s.base := rfl
@[simp] theorem spoilPins_phase : (spoilPins hit stage s).phase = s.phase := rfl
@[simp] theorem spoilPins_fault : (spoilPins hit stage s).fault = s.fault := rfl
@[simp] theorem spoilPins_finfo : (spoilPins hit stage s).finfo = s.finfo := rfl
@[simp] theorem spoilPins_busy : (spoilPins hit stage s).busy = s.busy := rfl
@[simp] theorem spoilPins_cmd : (spoilPins hit stage s).cmd = s.cmd := rfl
@[simp] theorem spoilPins_response : (spoilPins hit stage s).response = s.response := rfl
@[simp] theorem spoilPins_pending : (spoilPins hit stage s).pending = s.pending := rfl
@[simp] theorem spoilPins_trace : (spoilPins hit stage s).trace = s.trace := rfl
@[simp] theorem spoilPins_inputs : (spoilPins hit stage s).inputs = s.inputs := rfl
@[simp] theorem spoilPins_turn : (spoilPins hit stage s).turn = s.turn := rfl
@[simp] theorem spoilPins_answers : (spoilPins hit stage s).answers = s.answers := rfl
@[simp] theorem spoilPins_delays : (spoilPins hit stage s).delays = s.delays := rfl
@[simp] theorem spoilPins_mapped : (spoilPins hit stage s).mapped = s.mapped := rfl
@[simp] theorem spoilPins_mem : (spoilPins hit stage s).mem = s.mem := rfl
@[simp] theorem spoilPins_outl : (spoilPins hit stage s).outl = s.outl := rfl
@[simp] theorem spoilPins_pinsIn : (spoilPins hit stage s).pinsIn = s.pinsIn := rfl
@[simp] theorem spoilPins_pudStage : (spoilPins hit stage s).pudStage = s.pudStage := rfl
@[simp] theorem spoilPins_fresh : (spoilPins hit stage s).fresh = s.fresh + 54 := rfl

end

section
variable (f : Family) (b : Nat) (v : Word) (s : State)

@[simp] theorem ctrlWrite_base : (ctrlWrite f b v s).base = s.base := by cases f <;> rfl
@[simp] theorem ctrlWrite_phase : (ctrlWrite f b v s).phase = s.phase := by cases f <;> rfl
@[simp] theorem ctrlWrite_fault : (ctrlWrite f b v s).fault = s.fault := by cases f <;> rfl
@[simp] theorem ctrlWrite_finfo : (ctrlWrite f b v s).finfo = s.finfo := by cases f <;> rfl
@[simp] theorem ctrlWrite_busy : (ctrlWrite f b v s).busy = s.busy := by cases f <;> rfl
@[simp] theorem ctrlWrite_cmd : (ctrlWrite f b v s).cmd = s.cmd := by cases f <;> rfl
@[simp] theorem ctrlWrite_response : (ctrlWrite f b v s).response = s.response := by cases f <;> rfl
@[simp] theorem ctrlWrite_pending : (ctrlWrite f b v s).pending = s.pending := by cases f <;> rfl
@[simp] theorem ctrlWrite_trace : (ctrlWrite f b v s).trace = s.trace := by cases f <;> rfl
@[simp] theorem ctrlWrite_inputs : (ctrlWrite f b v s).inputs = s.inputs := by cases f <;> rfl
@[simp] theorem ctrlWrite_turn : (ctrlWrite f b v s).turn = s.turn := by cases f <;> rfl
@[simp] theorem ctrlWrite_answers : (ctrlWrite f b v s).answers = s.answers := by cases f <;> rfl
@[simp] theorem ctrlWrite_delays : (ctrlWrite f b v s).delays = s.delays := by cases f <;> rfl
@[simp] theorem ctrlWrite_mapped : (ctrlWrite f b v s).mapped = s.mapped := by cases f <;> rfl
@[simp] theorem ctrlWrite_pinsIn : (ctrlWrite f b v s).pinsIn = s.pinsIn := by cases f <;> rfl

end

section
variable (a v : Word) (s : State)

@[simp] theorem portWrite_base : (portWrite a v s).base = s.base := by unfold portWrite; split <;> simp
@[simp] theorem portWrite_phase : (portWrite a v s).phase = s.phase := by unfold portWrite; split <;> simp
@[simp] theorem portWrite_fault : (portWrite a v s).fault = s.fault := by unfold portWrite; split <;> simp
@[simp] theorem portWrite_finfo : (portWrite a v s).finfo = s.finfo := by unfold portWrite; split <;> simp
@[simp] theorem portWrite_busy : (portWrite a v s).busy = s.busy := by unfold portWrite; split <;> simp
@[simp] theorem portWrite_cmd : (portWrite a v s).cmd = s.cmd := by unfold portWrite; split <;> simp
@[simp] theorem portWrite_response : (portWrite a v s).response = s.response := by unfold portWrite; split <;> simp
@[simp] theorem portWrite_pending : (portWrite a v s).pending = s.pending := by unfold portWrite; split <;> simp
@[simp] theorem portWrite_trace : (portWrite a v s).trace = s.trace := by unfold portWrite; split <;> simp
@[simp] theorem portWrite_inputs : (portWrite a v s).inputs = s.inputs := by unfold portWrite; split <;> simp
@[simp] theorem portWrite_turn : (portWrite a v s).turn = s.turn := by unfold portWrite; split <;> simp
@[simp] theorem portWrite_answers : (portWrite a v s).answers = s.answers := by unfold portWrite; split <;> simp
@[simp] theorem portWrite_delays : (portWrite a v s).delays = s.delays := by unfold portWrite; split <;> simp
@[simp] theorem portWrite_mapped : (portWrite a v s).mapped = s.mapped := by unfold portWrite; split <;> simp
@[simp] theorem portWrite_pinsIn : (portWrite a v s).pinsIn = s.pinsIn := by unfold portWrite; split <;> simp

end

section
variable (f : Family) (b : Nat) (v : Word) (s : State)

@[simp] theorem regWrite_base : (regWrite f b v s).base = s.base := by simp [regWrite]
@[simp] theorem regWrite_phase : (regWrite f b v s).phase = s.phase := by simp [regWrite]
@[simp] theorem regWrite_fault : (regWrite f b v s).fault = s.fault := by simp [regWrite]
@[simp] theorem regWrite_finfo : (regWrite f b v s).finfo = s.finfo := by simp [regWrite]
@[simp] theorem regWrite_busy : (regWrite f b v s).busy = s.busy := by simp [regWrite]
@[simp] theorem regWrite_cmd : (regWrite f b v s).cmd = s.cmd := by simp [regWrite]
@[simp] theorem regWrite_response : (regWrite f b v s).response = s.response := by simp [regWrite]
@[simp] theorem regWrite_pending : (regWrite f b v s).pending = s.pending := by simp [regWrite]
@[simp] theorem regWrite_trace : (regWrite f b v s).trace = s.trace ++ [.wr f b v] := by simp [regWrite]
@[simp] theorem regWrite_inputs : (regWrite f b v s).inputs = s.inputs := by simp [regWrite]
@[simp] theorem regWrite_turn : (regWrite f b v s).turn = s.turn := by simp [regWrite]
@[simp] theorem regWrite_answers : (regWrite f b v s).answers = s.answers := by simp [regWrite]
@[simp] theorem regWrite_delays : (regWrite f b v s).delays = s.delays := by simp [regWrite]
@[simp] theorem regWrite_mapped : (regWrite f b v s).mapped = s.mapped := by simp [regWrite]
@[simp] theorem regWrite_pinsIn : (regWrite f b v s).pinsIn = s.pinsIn := by simp [regWrite]

end

section
variable  (s : State)

@[simp] theorem delaySettle_base : (delaySettle s).base = s.base := by unfold delaySettle; split <;> simp
@[simp] theorem delaySettle_phase : (delaySettle s).phase = s.phase := by unfold delaySettle; split <;> simp
@[simp] theorem delaySettle_fault : (delaySettle s).fault = s.fault := by unfold delaySettle; split <;> simp
@[simp] theorem delaySettle_finfo : (delaySettle s).finfo = s.finfo := by unfold delaySettle; split <;> simp
@[simp] theorem delaySettle_busy : (delaySettle s).busy = s.busy := by unfold delaySettle; split <;> simp
@[simp] theorem delaySettle_cmd : (delaySettle s).cmd = s.cmd := by unfold delaySettle; split <;> simp
@[simp] theorem delaySettle_response : (delaySettle s).response = s.response := by unfold delaySettle; split <;> simp
@[simp] theorem delaySettle_pending : (delaySettle s).pending = s.pending := by unfold delaySettle; split <;> simp
@[simp] theorem delaySettle_trace : (delaySettle s).trace = s.trace ++ [.dly .settle] := by unfold delaySettle; split <;> simp
@[simp] theorem delaySettle_inputs : (delaySettle s).inputs = s.inputs := by unfold delaySettle; split <;> simp
@[simp] theorem delaySettle_turn : (delaySettle s).turn = s.turn := by unfold delaySettle; split <;> simp
@[simp] theorem delaySettle_answers : (delaySettle s).answers = s.answers := by unfold delaySettle; split <;> simp
@[simp] theorem delaySettle_delays : (delaySettle s).delays = s.delays.tail := by unfold delaySettle; split <;> simp
@[simp] theorem delaySettle_mapped : (delaySettle s).mapped = s.mapped := by unfold delaySettle; split <;> simp
@[simp] theorem delaySettle_mem : (delaySettle s).mem = s.mem := by unfold delaySettle; split <;> simp
@[simp] theorem delaySettle_outl : (delaySettle s).outl = s.outl := by unfold delaySettle; split <;> simp
@[simp] theorem delaySettle_pinsIn : (delaySettle s).pinsIn = s.pinsIn := by unfold delaySettle; split <;> simp
@[simp] theorem delaySettle_fresh : (delaySettle s).fresh = s.fresh := by unfold delaySettle; split <;> simp

end

section
variable  (s : State)

@[simp] theorem sequenceCut_base : (sequenceCut s).base = s.base := by unfold sequenceCut; split <;> rfl
@[simp] theorem sequenceCut_phase : (sequenceCut s).phase = s.phase := by unfold sequenceCut; split <;> rfl
@[simp] theorem sequenceCut_fault : (sequenceCut s).fault = s.fault := by unfold sequenceCut; split <;> rfl
@[simp] theorem sequenceCut_finfo : (sequenceCut s).finfo = s.finfo := by unfold sequenceCut; split <;> rfl
@[simp] theorem sequenceCut_busy : (sequenceCut s).busy = s.busy := by unfold sequenceCut; split <;> rfl
@[simp] theorem sequenceCut_cmd : (sequenceCut s).cmd = s.cmd := by unfold sequenceCut; split <;> rfl
@[simp] theorem sequenceCut_response : (sequenceCut s).response = s.response := by unfold sequenceCut; split <;> rfl
@[simp] theorem sequenceCut_pending : (sequenceCut s).pending = s.pending := by unfold sequenceCut; split <;> rfl
@[simp] theorem sequenceCut_trace : (sequenceCut s).trace = s.trace := by unfold sequenceCut; split <;> rfl
@[simp] theorem sequenceCut_inputs : (sequenceCut s).inputs = s.inputs := by unfold sequenceCut; split <;> rfl
@[simp] theorem sequenceCut_turn : (sequenceCut s).turn = s.turn := by unfold sequenceCut; split <;> rfl
@[simp] theorem sequenceCut_answers : (sequenceCut s).answers = s.answers := by unfold sequenceCut; split <;> rfl
@[simp] theorem sequenceCut_delays : (sequenceCut s).delays = s.delays := by unfold sequenceCut; split <;> rfl
@[simp] theorem sequenceCut_mapped : (sequenceCut s).mapped = s.mapped := by unfold sequenceCut; split <;> rfl
@[simp] theorem sequenceCut_mem : (sequenceCut s).mem = s.mem := by unfold sequenceCut; split <;> rfl
@[simp] theorem sequenceCut_outl : (sequenceCut s).outl = s.outl := by unfold sequenceCut; split <;> rfl
@[simp] theorem sequenceCut_pinsIn : (sequenceCut s).pinsIn = s.pinsIn := by unfold sequenceCut; split <;> rfl
@[simp] theorem sequenceCut_idle (h : s.phase = .idle) : sequenceCut s = s := by simp [sequenceCut, h]

end

section
variable (f : Family) (b : Nat) (v : Word) (s : State)

@[simp] theorem sequenceBroken_base : (sequenceBroken f b v s).base = s.base := by unfold sequenceBroken; (repeat' split) <;> rfl
@[simp] theorem sequenceBroken_phase : (sequenceBroken f b v s).phase = s.phase := by unfold sequenceBroken; (repeat' split) <;> rfl
@[simp] theorem sequenceBroken_fault : (sequenceBroken f b v s).fault = s.fault := by unfold sequenceBroken; (repeat' split) <;> rfl
@[simp] theorem sequenceBroken_finfo : (sequenceBroken f b v s).finfo = s.finfo := by unfold sequenceBroken; (repeat' split) <;> rfl
@[simp] theorem sequenceBroken_busy : (sequenceBroken f b v s).busy = s.busy := by unfold sequenceBroken; (repeat' split) <;> rfl
@[simp] theorem sequenceBroken_cmd : (sequenceBroken f b v s).cmd = s.cmd := by unfold sequenceBroken; (repeat' split) <;> rfl
@[simp] theorem sequenceBroken_response : (sequenceBroken f b v s).response = s.response := by unfold sequenceBroken; (repeat' split) <;> rfl
@[simp] theorem sequenceBroken_pending : (sequenceBroken f b v s).pending = s.pending := by unfold sequenceBroken; (repeat' split) <;> rfl
@[simp] theorem sequenceBroken_trace : (sequenceBroken f b v s).trace = s.trace := by unfold sequenceBroken; (repeat' split) <;> rfl
@[simp] theorem sequenceBroken_inputs : (sequenceBroken f b v s).inputs = s.inputs := by unfold sequenceBroken; (repeat' split) <;> rfl
@[simp] theorem sequenceBroken_turn : (sequenceBroken f b v s).turn = s.turn := by unfold sequenceBroken; (repeat' split) <;> rfl
@[simp] theorem sequenceBroken_answers : (sequenceBroken f b v s).answers = s.answers := by unfold sequenceBroken; (repeat' split) <;> rfl
@[simp] theorem sequenceBroken_delays : (sequenceBroken f b v s).delays = s.delays := by unfold sequenceBroken; (repeat' split) <;> rfl
@[simp] theorem sequenceBroken_mapped : (sequenceBroken f b v s).mapped = s.mapped := by unfold sequenceBroken; (repeat' split) <;> rfl
@[simp] theorem sequenceBroken_mem : (sequenceBroken f b v s).mem = s.mem := by unfold sequenceBroken; (repeat' split) <;> rfl
@[simp] theorem sequenceBroken_outl : (sequenceBroken f b v s).outl = s.outl := by unfold sequenceBroken; (repeat' split) <;> rfl
@[simp] theorem sequenceBroken_pinsIn : (sequenceBroken f b v s).pinsIn = s.pinsIn := by unfold sequenceBroken; (repeat' split) <;> rfl
@[simp] theorem sequenceBroken_pudStage : (sequenceBroken f b v s).pudStage = s.pudStage := by unfold sequenceBroken; (repeat' split) <;> rfl

end

section
variable (a : MasterAccess) (s : State)

@[simp] theorem masterAct_base : (masterAct a s).base = s.base := by unfold masterAct; (repeat' split) <;> simp
@[simp] theorem masterAct_phase : (masterAct a s).phase = s.phase := by unfold masterAct; (repeat' split) <;> simp
@[simp] theorem masterAct_fault : (masterAct a s).fault = s.fault := by unfold masterAct; (repeat' split) <;> simp
@[simp] theorem masterAct_finfo : (masterAct a s).finfo = s.finfo := by unfold masterAct; (repeat' split) <;> simp
@[simp] theorem masterAct_busy : (masterAct a s).busy = s.busy := by unfold masterAct; (repeat' split) <;> simp
@[simp] theorem masterAct_cmd : (masterAct a s).cmd = s.cmd := by unfold masterAct; (repeat' split) <;> simp
@[simp] theorem masterAct_response : (masterAct a s).response = s.response := by unfold masterAct; (repeat' split) <;> simp
@[simp] theorem masterAct_pending : (masterAct a s).pending = s.pending := by unfold masterAct; (repeat' split) <;> simp
@[simp] theorem masterAct_trace : (masterAct a s).trace = s.trace := by unfold masterAct; (repeat' split) <;> simp
@[simp] theorem masterAct_inputs : (masterAct a s).inputs = s.inputs := by unfold masterAct; (repeat' split) <;> simp
@[simp] theorem masterAct_turn : (masterAct a s).turn = s.turn := by unfold masterAct; (repeat' split) <;> simp
@[simp] theorem masterAct_answers : (masterAct a s).answers = s.answers := by unfold masterAct; (repeat' split) <;> simp
@[simp] theorem masterAct_delays : (masterAct a s).delays = s.delays := by unfold masterAct; (repeat' split) <;> simp
@[simp] theorem masterAct_mapped : (masterAct a s).mapped = s.mapped := by unfold masterAct; (repeat' split) <;> simp
@[simp] theorem masterAct_pinsIn : (masterAct a s).pinsIn = s.pinsIn := by unfold masterAct; (repeat' split) <;> simp

end

section
variable (s : State)

@[simp] theorem staleClocks_base : (staleClocks s).base = s.base := rfl
@[simp] theorem staleClocks_phase : (staleClocks s).phase = s.phase := rfl
@[simp] theorem staleClocks_fault : (staleClocks s).fault = s.fault := rfl
@[simp] theorem staleClocks_finfo : (staleClocks s).finfo = s.finfo := rfl
@[simp] theorem staleClocks_busy : (staleClocks s).busy = s.busy := rfl
@[simp] theorem staleClocks_cmd : (staleClocks s).cmd = s.cmd := rfl
@[simp] theorem staleClocks_response : (staleClocks s).response = s.response := rfl
@[simp] theorem staleClocks_pending : (staleClocks s).pending = s.pending := rfl
@[simp] theorem staleClocks_trace : (staleClocks s).trace = s.trace := rfl
@[simp] theorem staleClocks_inputs : (staleClocks s).inputs = s.inputs := rfl
@[simp] theorem staleClocks_turn : (staleClocks s).turn = s.turn := rfl
@[simp] theorem staleClocks_answers : (staleClocks s).answers = s.answers := rfl
@[simp] theorem staleClocks_delays : (staleClocks s).delays = s.delays := rfl
@[simp] theorem staleClocks_mapped : (staleClocks s).mapped = s.mapped := rfl
@[simp] theorem staleClocks_mem : (staleClocks s).mem = s.mem := rfl
@[simp] theorem staleClocks_outl : (staleClocks s).outl = s.outl := rfl
@[simp] theorem staleClocks_pinsIn : (staleClocks s).pinsIn = s.pinsIn := rfl
@[simp] theorem staleClocks_pudStage : (staleClocks s).pudStage = s.pudStage := rfl
@[simp] theorem staleClocks_fresh : (staleClocks s).fresh = s.fresh := rfl

end

section
variable (p : Option Phase) (s : State)

@[simp] theorem meetClocks_base : (meetClocks p s).base = s.base := by unfold meetClocks; (repeat' split) <;> rfl
@[simp] theorem meetClocks_phase : (meetClocks p s).phase = s.phase := by unfold meetClocks; (repeat' split) <;> rfl
@[simp] theorem meetClocks_fault : (meetClocks p s).fault = s.fault := by unfold meetClocks; (repeat' split) <;> rfl
@[simp] theorem meetClocks_finfo : (meetClocks p s).finfo = s.finfo := by unfold meetClocks; (repeat' split) <;> rfl
@[simp] theorem meetClocks_busy : (meetClocks p s).busy = s.busy := by unfold meetClocks; (repeat' split) <;> rfl
@[simp] theorem meetClocks_cmd : (meetClocks p s).cmd = s.cmd := by unfold meetClocks; (repeat' split) <;> rfl
@[simp] theorem meetClocks_response : (meetClocks p s).response = s.response := by unfold meetClocks; (repeat' split) <;> rfl
@[simp] theorem meetClocks_pending : (meetClocks p s).pending = s.pending := by unfold meetClocks; (repeat' split) <;> rfl
@[simp] theorem meetClocks_trace : (meetClocks p s).trace = s.trace := by unfold meetClocks; (repeat' split) <;> rfl
@[simp] theorem meetClocks_inputs : (meetClocks p s).inputs = s.inputs := by unfold meetClocks; (repeat' split) <;> rfl
@[simp] theorem meetClocks_turn : (meetClocks p s).turn = s.turn := by unfold meetClocks; (repeat' split) <;> rfl
@[simp] theorem meetClocks_answers : (meetClocks p s).answers = s.answers := by unfold meetClocks; (repeat' split) <;> rfl
@[simp] theorem meetClocks_delays : (meetClocks p s).delays = s.delays := by unfold meetClocks; (repeat' split) <;> rfl
@[simp] theorem meetClocks_mapped : (meetClocks p s).mapped = s.mapped := by unfold meetClocks; (repeat' split) <;> rfl
@[simp] theorem meetClocks_mem : (meetClocks p s).mem = s.mem := by unfold meetClocks; (repeat' split) <;> rfl
@[simp] theorem meetClocks_outl : (meetClocks p s).outl = s.outl := by unfold meetClocks; (repeat' split) <;> rfl
@[simp] theorem meetClocks_pinsIn : (meetClocks p s).pinsIn = s.pinsIn := by unfold meetClocks; (repeat' split) <;> rfl
@[simp] theorem meetClocks_pudStage : (meetClocks p s).pudStage = s.pudStage := by unfold meetClocks; (repeat' split) <;> rfl
@[simp] theorem meetClocks_fresh : (meetClocks p s).fresh = s.fresh := by unfold meetClocks; (repeat' split) <;> rfl

end

@[simp] theorem setPhase_phase_none (s : State) : (setPhase none s).phase = s.phase := rfl
@[simp] theorem setPhase_phase_some (p : Phase) (s : State) : (setPhase (some p) s).phase = p := rfl
@[simp] theorem setPending_setPending (ws vs : List Work) (s : State) :
    setPending ws (setPending vs s) = setPending ws s := rfl
@[simp] theorem setTurn_setTurn (j k : Option Nat) (s : State) : setTurn j (setTurn k s) = setTurn j s := rfl
@[simp] theorem setPhase_none (s : State) : setPhase none s = s := rfl
@[simp] theorem meetClocks_none (s : State) : meetClocks none s = s := rfl
@[simp] theorem meetClocks_clockAsserted (s : State) : meetClocks (some .clockAsserted) s = s := rfl
@[simp] theorem meetClocks_idle (s : State) : meetClocks (some .idle) s = s := rfl

end Sys2Proof.Machine
end

