-- ==== Sys2Proof/Laws/Ops.lean ====
section
/-!
SUPPORT. Laws/Ops.lean: what each shared operation can do, said once: the locator functions on valid and invalid pins,
the register block behind the port, the events one by one, turns, and the acceptance of a command.
-/

namespace Sys2Proof.Machine

/-! ### The locator functions -/

theorem resolveFunctionSelect_valid (pin : Octet) (h : pin.toNat ≤ 53) :
    resolveFunctionSelect pin = .ok ⟨pin.toNat / 10, pin.toNat % 10 * 3, 3⟩ := by
  simp [resolveFunctionSelect, Nat.not_lt.mpr h]

theorem resolveBitRegister_valid (pin : Octet) (h : pin.toNat ≤ 53) :
    resolveBitRegister pin = .ok ⟨pin.toNat / 32, pin.toNat % 32, 1⟩ := by
  simp [resolveBitRegister, Nat.not_lt.mpr h]

theorem resolvePudclk_valid (pin : Octet) (h : pin.toNat ≤ 53) :
    resolvePudclk pin = .ok ⟨pin.toNat / 32, pin.toNat % 32, 1⟩ := by
  simp [resolvePudclk, Nat.not_lt.mpr h]

theorem resolveFunctionSelect_invalid (pin : Octet) (h : 53 < pin.toNat) :
    resolveFunctionSelect pin = .error .invalidPin := by simp [resolveFunctionSelect, h]

theorem resolveBitRegister_invalid (pin : Octet) (h : 53 < pin.toNat) :
    resolveBitRegister pin = .error .invalidPin := by simp [resolveBitRegister, h]

theorem resolvePudclk_invalid (pin : Octet) (h : 53 < pin.toNat) :
    resolvePudclk pin = .error .invalidPin := by simp [resolvePudclk, h]

/-- A 3-bit pattern always decodes (41_field_codec R82). -/
theorem decodeFunction_field (p : BitVec 3) : ∃ m, decodeFunction p.toNat = .ok m := by
  have h := p.isLt
  obtain h | h | h | h | h | h | h | h : p.toNat = 0 ∨ p.toNat = 1 ∨ p.toNat = 2 ∨ p.toNat = 3 ∨ p.toNat = 4 ∨
      p.toNat = 5 ∨ p.toNat = 6 ∨ p.toNat = 7 := by omega
  all_goals exact ⟨_, by rw [h]; rfl⟩

/-! ### The register block -/

@[simp] theorem stored_store_same (f : Family) (b : Nat) (v : Word) (s : State) : stored f b (store f b v s) = v := by
  simp [stored]

/-- Storing one register leaves the others alone. -/
theorem stored_store_other (f g : Family) (b c : Nat) (v : Word) (s : State) (hb : b < nbanks f) (hc : c < nbanks g)
    (hne : (g, c) ≠ (f, b)) : stored g c (store f b v s) = stored g c s := by
  simp only [stored, store_mem, store_mapped]
  exact readWord_writeWord_other _ _ _ _ fun j k hj hk => keys_apart _ _ _ _ _ _ _ hc hb hne hj hk

/-- The length of a list of latches does not change. -/
@[simp] theorem mapPins_length (f : Nat → PinLatch → PinLatch) (p : Nat) (ls : List PinLatch) :
    (mapPins f p ls).length = ls.length := by
  induction ls generalizing p with
  | nil => rfl
  | cons l ls ih => simp [mapPins, ih]

/-- Entry q of the changed list. -/
theorem mapPins_getElem? (f : Nat → PinLatch → PinLatch) (p q : Nat) (ls : List PinLatch) :
    (mapPins f p ls)[q]? = (ls[q]?).map (f (p + q)) := by
  induction ls generalizing p q with
  | nil => rfl
  | cons l ls ih =>
    cases q with
    | zero => simp [mapPins]
    | succ q =>
      simp only [mapPins, List.getElem?_cons_succ, ih]
      congr 2
      omega

/-- Bit i of a word built bit by bit. -/
theorem bitsOf_getLsbD (g : Nat → Bool) (n i : Nat) : (bitsOf g n).getLsbD i = (decide (i < n) && g i) := by
  induction n with
  | zero => simp [bitsOf]
  | succ n ih =>
    simp only [bitsOf, BitVec.getLsbD_cons, ih]
    split
    · next h => simp [h]
    · next h =>
      have : (i < n + 1) ↔ i < n := by omega
      simp [this]

/-- The bits a written word names in a bank, as pins (10_state R18). -/
theorem pinMask_getLsbD (b p : Nat) (v : Word) :
    (pinMask b v).getLsbD p = (decide (p < 54) && decide (32 * b ≤ p) && v.getLsbD (p - 32 * b)) := by
  unfold pinMask
  simp only [BitVec.getLsbD_setWidth, BitVec.getLsbD_shiftLeft]
  by_cases h : p < 54
  · have h64 : p < 64 := by omega
    by_cases h2 : p < 32 * b
    · simp [h, h2, Nat.not_le.mpr h2]
    · have h3 : p - 32 * b < 64 := by omega
      simp [h, h64, h2, h3, Nat.le_of_not_lt h2]
  · simp [h]

/-- Where BASE reaches the register block, a write arrives at the register it names. -/
theorem regWrite_reachable (f : Family) (b : Nat) (v : Word) (s : State) (hb : b < nbanks f) (h : s.base = s.mapped) :
    regWrite f b v s = ctrlWrite f b v (logEvent (.wr f b v) s) := by
  simp [regWrite, portWrite, h, locate_addr _ _ _ hb]

/-- A register that is found stands at the address looked for. -/
theorem addr_of_locate {m a : Word} {r : Family × Nat} (h : locate m a = some r) : addr m r.1 r.2 = a := by
  have h' := List.find?_some (p := fun q : Family × Nat => addr m q.1 q.2 == a) h
  exact eq_of_beq h'

/-- A write changes no byte outside the four at its address, whatever stands there. -/
theorem regWrite_bytes (f : Family) (b : Nat) (v : Word) (s : State) (x : Nat)
    (h : ∀ k, k < 4 → x ≠ Memory.key (addr s.base f b) k) :
    Memory.read x (regWrite f b v s).mem = Memory.read x s.mem := by
  unfold regWrite portWrite
  split
  · next r hr =>
    obtain ⟨g, c⟩ := r
    rw [← addr_of_locate hr] at h
    have h' : ∀ k, k < 4 → x ≠ Memory.key (addr s.mapped g c) k := h
    cases g <;> first | rfl | exact read_writeWord_other _ _ _ _ h'
  · rfl

/-- Where BASE reaches the register block and no oracle answers, ENV-REF does. -/
theorem answer_reachable (f : Family) (b : Nat) (s : State) (hb : b < nbanks f) (h : s.base = s.mapped)
    (ha : s.answers = []) : answer f b s = ctrlRead f b s := by
  simp [answer, ha, h, locate_addr _ _ _ hb]

/-- Every write of the register block keeps the canonical form of memory. -/
theorem ctrlWrite_wf (f : Family) (b : Nat) (v : Word) (s : State) (h : Memory.wf s.mem) :
    Memory.wf (ctrlWrite f b v s).mem := by
  cases f <;> first | exact h | exact writeWord_wf _ _ _ h

/-- Every write of the register block keeps the number of pins. -/
@[simp] theorem ctrlWrite_pins_length (f : Family) (b : Nat) (v : Word) (s : State) :
    (ctrlWrite f b v s).pins.length = s.pins.length := by
  cases f <;> simp [ctrlWrite, clockWritten]

theorem portWrite_wf (a v : Word) (s : State) (h : Memory.wf s.mem) : Memory.wf (portWrite a v s).mem := by
  unfold portWrite
  split
  · exact ctrlWrite_wf _ _ _ _ h
  · exact h

@[simp] theorem portWrite_pins_length (a v : Word) (s : State) : (portWrite a v s).pins.length = s.pins.length := by
  unfold portWrite
  split <;> simp

theorem regWrite_wf (f : Family) (b : Nat) (v : Word) (s : State) (h : Memory.wf s.mem) :
    Memory.wf (regWrite f b v s).mem := portWrite_wf _ _ _ h

@[simp] theorem regWrite_pins_length (f : Family) (b : Nat) (v : Word) (s : State) :
    (regWrite f b v s).pins.length = s.pins.length := by simp [regWrite]

@[simp] theorem delaySettle_pins_length (s : State) : (delaySettle s).pins.length = s.pins.length := by
  unfold delaySettle
  split <;> simp

@[simp] theorem spoilPins_pins_length (hit : Nat → Bool) (stage : LatchStage → LatchStage) (s : State) :
    (spoilPins hit stage s).pins.length = s.pins.length := by simp [spoilPins]

@[simp] theorem staleClocks_pins_length (s : State) : (staleClocks s).pins.length = s.pins.length := by
  simp [staleClocks]

@[simp] theorem meetClocks_pins_length (p : Option Phase) (s : State) : (meetClocks p s).pins.length = s.pins.length := by
  unfold meetClocks
  (repeat' split) <;> simp

/-- Where BASE reaches the register block, the first PUD write of a command meets every asserted clock. -/
theorem meetClocks_reachable (s : State) (h : s.base = s.mapped) : meetClocks (some .pudWritten) s = staleClocks s := by
  simp [meetClocks, h]

/-- An asserted clock that a PUD write meets outside a sequence leaves the pull free (43_pull_protocol R127). -/
theorem latchOnPud_stale (v : Word) (clk : Bool) (free : PinPull) (l : PinLatch) :
    latchOnPud v clk free (if clk then { l with stage := .spoiled } else l) =
      if clk then ⟨free, .spoiled⟩ else { l with stage := .ready } := by
  cases clk <;> simp [latchOnPud]

/-- A pin disturbed by another master's write takes no state from the command's clock (70_reset R172). -/
theorem latchOnClock_disturbed (bit : Bool) (pattern : Option PullState) (free pull : PinPull) :
    latchOnClock bit pattern free ⟨pull, .disturbed⟩ = if bit then ⟨free, .spoiled⟩ else ⟨pull, .touched⟩ := by
  cases bit <;> rfl

/-- Where another master's write leaves a pin's stage. -/
theorem disturbedStage_cases (l : LatchStage) : disturbedStage l = .disturbed ∨ disturbedStage l = .spoiled := by
  cases l <;> simp [disturbedStage]

/-- What reset inside the pull sequence does to the latches (70_reset R162). -/
theorem sequenceCut_eq (s : State) (h : s.phase ≠ .idle) :
    sequenceCut s = { spoilPins (fun p => p == commandPin s.cmd) cutStage s with
      pudStage := if pudHoldsPattern s then .stale else s.pudStage } := by
  unfold sequenceCut
  split
  · exact absurd (by assumption) h
  · rfl

/-- When PUD still holds the pattern of the command in progress. -/
theorem pudHoldsPattern_iff (s : State) : pudHoldsPattern s = true ↔ commandPattern s.cmd = some (stored .pud 0 s) := by
  simp [pudHoldsPattern]

/-- Where a master's write falls into the pull sequence, and where it does not. -/
theorem inPullSequence_iff (s : State) : inPullSequence s = true ↔
    s.phase ≠ .idle ∨ (s.busy = true ∧ (opField s.cmd).toNat = 0x0A ∧ s.pending = [.respond .ok 0#32]) := by
  simp [inPullSequence, and_assoc]

/-! ### Events and turns -/

/-- The events of a command, cut in two (70_reset R170). -/
theorem runEvents_add (j k : Nat) (s : State) :
    runEvents (j + k) s = match runEvents j s with
      | .next t => runEvents k t
      | .fault r => .fault r
      | .refused r => .refused r := by
  induction j generalizing s with
  | zero => simp [runEvents]
  | succ j ih =>
    rw [Nat.succ_add]
    simp only [runEvents]
    cases hp : s.pending with
    | nil => cases k <;> simp [runEvents, hp]
    | cons w ws =>
      simp only
      cases perform w (setPending ws s) with
      | next t => exact ih t
      | fault r => rfl
      | refused r => rfl

/-- With nothing left to do no event happens. -/
theorem runEvents_done (n : Nat) (s : State) (h : s.pending = []) : runEvents n s = .next s := by
  cases n <;> simp [runEvents, h]

/-- One event, then the rest. -/
theorem runEvents_step (n : Nat) (s t : State) (w : Work) (ws : List Work) (h : s.pending = w :: ws)
    (hp : perform w (setPending ws s) = .next t) : runEvents (n + 1) s = runEvents n t := by
  simp [runEvents, h, hp]

/-- A property that every event keeps is kept by a turn. -/
theorem runEvents_keeps (P : State → Prop)
    (hstep : ∀ s t w ws, P s → s.pending = w :: ws → perform w (setPending ws s) = .next t → P t)
    (n : Nat) (s t : State) (hs : P s) (h : runEvents n s = .next t) : P t := by
  induction n generalizing s with
  | zero => simp [runEvents] at h; exact h ▸ hs
  | succ n ih =>
    unfold runEvents at h
    cases hp : s.pending with
    | nil => simp [hp] at h; exact h ▸ hs
    | cons w ws =>
      simp only [hp] at h
      cases hq : perform w (setPending ws s) with
      | next u => rw [hq] at h; exact ih u (hstep s u w ws hs hp hq) h
      | fault r => simp [hq] at h
      | refused r => simp [hq] at h

/-- An event never refuses. -/
theorem perform_not_refused (w : Work) (s : State) (r : Refusal) : perform w s ≠ .refused r := by
  cases w <;> simp only [perform] <;> (try split) <;> simp

theorem runEvents_not_refused (n : Nat) (s : State) (r : Refusal) : runEvents n s ≠ .refused r := by
  induction n generalizing s with
  | zero => simp [runEvents]
  | succ n ih =>
    simp only [runEvents]
    cases s.pending with
    | nil => simp
    | cons w ws =>
      simp only
      cases hq : perform w (setPending ws s) with
      | next u => exact ih u
      | fault f => simp
      | refused f => exact absurd hq (perform_not_refused _ _ _)

/-! ### Steps, by the next input -/

theorem step_no_input (s : State) (h : s.inputs = []) : step s = advance none s := by simp [step, move, h]

theorem step_command (s : State) (w : Word) (events : Option Nat) (rest : List Input)
    (h : s.inputs = .command w events :: rest) :
    step s = if s.busy then advance none s else takeCommand w (setTurn events (setInputs rest s)) := by
  simp [step, move, h]

theorem step_resume (s : State) (events : Option Nat) (rest : List Input) (h : s.inputs = .resume events :: rest) :
    step s = advance events (setInputs rest s) := by simp [step, move, h]

theorem step_reset (s : State) (base : Word) (rest : List Input) (h : s.inputs = .reset base :: rest) :
    step s = .next (hostReset base (setInputs rest s)) := by simp [step, move, h]

theorem step_master (s : State) (a : MasterAccess) (rest : List Input) (h : s.inputs = .master a :: rest) :
    step s = .next (masterAct a (setInputs rest s)) := by simp [step, move, h]

/-! ### What every event leaves alone -/

/-- What one event never changes: BASE, CMD, where the block is mapped, the outside levels, the inputs, the turn. -/
theorem perform_frame (w : Work) (s t : State) (h : perform w s = .next t) :
    t.base = s.base ∧ t.cmd = s.cmd ∧ t.mapped = s.mapped ∧ t.pinsIn = s.pinsIn ∧ t.inputs = s.inputs ∧
      t.turn = s.turn := by
  cases w <;> simp only [perform] at h <;> (try split at h) <;>
    first
    | (injection h with h; subst h; simp)
    | cases h

/-- The same of a turn's events. -/
theorem runEvents_frame (n : Nat) (s t : State) (h : runEvents n s = .next t) :
    t.base = s.base ∧ t.cmd = s.cmd ∧ t.mapped = s.mapped ∧ t.pinsIn = s.pinsIn ∧ t.inputs = s.inputs ∧
      t.turn = s.turn := by
  refine runEvents_keeps (fun u => u.base = s.base ∧ u.cmd = s.cmd ∧ u.mapped = s.mapped ∧ u.pinsIn = s.pinsIn ∧
    u.inputs = s.inputs ∧ u.turn = s.turn) ?_ n s t ⟨rfl, rfl, rfl, rfl, rfl, rfl⟩ h
  rintro u v w ws ⟨h1, h2, h3, h4, h5, h6⟩ _ hq
  obtain ⟨g1, g2, g3, g4, g5, g6⟩ := perform_frame _ _ _ hq
  exact ⟨g1.trans h1, g2.trans h2, g3.trans h3, g4.trans h4, g5.trans h5, g6.trans h6⟩

/-! ### Acceptance -/

/-- A busy block accepts nothing (10_state R15). -/
theorem issueWord_busy (w : Word) (ws : List Work) (s : State) (h : s.busy = true) : issueWord w ws s = .next s := by
  simp [issueWord, h]

/-- A ready block runs the command's work at once. -/
theorem issueWord_ready (w : Word) (ws : List Work) (s : State) (hb : s.busy = false) (hf : s.fault = none)
    (ht : s.turn = none) :
    issueWord w ws s = runEvents (ws.map cost).sum (setPending ws (accept w s)) := by
  simp [issueWord, hb, hf, takeTurn, ht]

/-- A ready block stopped after k events. -/
theorem issueWord_turn (w : Word) (ws : List Work) (s : State) (k : Nat) (hb : s.busy = false) (hf : s.fault = none)
    (ht : s.turn = some k) :
    issueWord w ws s = runEvents k (setTurn none (setPending ws (accept w s))) := by
  simp [issueWord, hb, hf, takeTurn, ht]

/-- A faulted block refuses (60_exceptions R148). -/
theorem issueWord_faulted (w : Word) (ws : List Work) (s : State) (k : FaultKind) (hb : s.busy = false)
    (hf : s.fault = some k) (ht : s.turn = none) :
    issueWord w ws s = .next (respond .faulted 0#32 (setPending [] (accept w s))) := by
  simp [issueWord, hb, hf, takeTurn, ht, cost, runEvents, perform]

/-- A command that only responds. -/
theorem issueWord_responds (w : Word) (st : Status) (r : Word) (s : State) (hb : s.busy = false) (hf : s.fault = none)
    (ht : s.turn = none) :
    issueWord w [.respond st r] s = .next (respond st r (setPending [] (accept w s))) := by
  simp [issueWord, hb, hf, takeTurn, ht, cost, runEvents, perform]

/-- A word that faults: fault entry and nothing else (60_exceptions R146). -/
theorem issueWord_raises (w : Word) (k : FaultKind) (s : State) (hb : s.busy = false) (hf : s.fault = none)
    (ht : s.turn = none) :
    issueWord w [.raise k] s = .next (raiseFault k (setPending [] (accept w s))) := by
  simp [issueWord, hb, hf, takeTurn, ht, cost, runEvents, perform]

end Sys2Proof.Machine
end

