-- ==== Sys2Proof/Laws/Operands.lean ====
section
/-!
SUPPORT. Laws/Operands.lean: the field of a word read and replaced, the word with one bit, the results made from them,
and the words a locator's bit reaches; then what a command's acceptance leaves of the coming answer.
-/

namespace Sys2Proof.Machine

open Sys2Proof.Safety

/-! ### Fields and bits -/

/-- insertField replaces the pin's field and nothing else (42_register_ops R101). -/
theorem insertField_replaced (old : Word) (n : Nat) (p : BitVec 3) :
    FieldReplaced old (insertField old (n % 10 * 3) p) n p := by
  intro j hj
  have hk : n % 10 < 10 := by omega
  generalize n % 10 = k at *
  have hm : (7#32).getLsbD (j - k * 3) = decide (j - k * 3 < 3) := by
    have : ∀ x, x < 32 → (7#32).getLsbD x = decide (x < 3) := by decide
    exact this _ (by omega)
  simp only [insertField, BitVec.getLsbD_or, BitVec.getLsbD_and, BitVec.getLsbD_not, BitVec.getLsbD_shiftLeft,
    BitVec.getLsbD_setWidth, hm]
  by_cases h1 : j < k * 3
  · simp [h1, hj, show ¬ 3 * k ≤ j by omega]
  · by_cases h2 : j - k * 3 < 3
    · rw [if_pos (show 3 * k ≤ j ∧ j < 3 * k + 3 by omega)]
      simp [h1, h2, hj, show j - k * 3 < 32 by omega, Nat.mul_comm 3 k]
    · have : p.getLsbD (j - k * 3) = false := BitVec.getLsbD_of_ge _ _ (by omega)
      simp [h1, h2, hj, show ¬ j < 3 * k + 3 by omega, show j - k * 3 < 32 by omega, this]

/-- The fields of a word one of whose fields has been replaced. -/
theorem fieldAt_replaced {old new : Word} {n q : Nat} {p : BitVec 3} (h : FieldReplaced old new n p) :
    fieldAt new (q % 10 * 3) = if q % 10 = n % 10 then p else fieldAt old (q % 10 * 3) := by
  refine BitVec.eq_of_getLsbD_eq fun i hi => ?_
  have := h (q % 10 * 3 + i) (by omega)
  have h10 : q % 10 < 10 := by omega
  have h10' : n % 10 < 10 := by omega
  generalize q % 10 = k at *
  generalize n % 10 = l at *
  by_cases he : k = l
  · subst he
    rw [if_pos (by omega)] at this
    simp only [fieldAt, BitVec.getLsbD_extractLsb', hi, decide_true, Bool.true_and, this, if_pos]
    congr 1
    omega
  · rw [if_neg (by omega)] at this
    simp only [fieldAt, BitVec.getLsbD_extractLsb', hi, decide_true, Bool.true_and, this, if_neg he]

/-- The bits of the word with one bit. -/
theorem oneBit_getLsbD (n i : Nat) (h : n < 32) : (oneBit n).getLsbD i = decide (i = n) := by
  rw [Bool.eq_iff_iff]
  simp only [oneBit, BitVec.getLsbD_shiftLeft, BitVec.getLsbD_one, Bool.and_eq_true, decide_eq_true_eq,
    Bool.not_eq_true', decide_eq_false_iff_not]
  omega

/-- The word with one bit is a power of two. -/
theorem oneBit_eq (n : Nat) (h : n < 32) : oneBit n = BitVec.ofNat 32 (2 ^ n) := by
  revert n
  decide

/-- READ_LEVEL's result is the bit as 0 or 1 (42_register_ops R105). -/
theorem levelBit_eq (v : Word) (n : Nat) (h : n < 32) : levelBit v n = if v.getLsbD n then 1#32 else 0#32 := by
  have : (v &&& oneBit n ≠ 0#32) ↔ v.getLsbD n = true := by
    constructor
    · intro hne
      refine Decidable.byContradiction fun hn => hne (BitVec.eq_of_getLsbD_eq fun i hi => ?_)
      rw [BitVec.getLsbD_and, oneBit_getLsbD _ _ h]
      by_cases hin : i = n
      · subst hin
        simp only [Bool.not_eq_true] at hn
        rw [hn]
        simp
      · simp [hin]
    · intro hv he
      have := congrArg (fun x => x.getLsbD n) he
      simp only [BitVec.getLsbD_and, oneBit_getLsbD _ _ h, hv] at this
      simp at this
  simp only [levelBit, this]

/-- The one bit written for a valid pin names that pin alone (10_state R18). -/
theorem pinMask_oneBit (p q : Nat) (hp : p ≤ 53) (_hq : q < 54) :
    (pinMask (p / 32) (oneBit (p % 32))).getLsbD q = decide (q = p) := by
  rw [pinMask_getLsbD, oneBit_getLsbD _ _ (by omega), Bool.eq_iff_iff]
  simp
  omega

/-- The pattern PUD is given is the state's ordinal (41_field_codec R84). -/
theorem pullWord_eq (st : PullState) : pullWord st = BitVec.ofNat 32 (stateOrdinal st) := by cases st <;> rfl

/-- PUD's pattern for a state is read back as the state. -/
@[simp] theorem pudPattern_pullWord (st : PullState) : pudPattern (pullWord st) = some st := by cases st <;> rfl

/-- Patterns above the defined ones (41_field_codec R82, R86). -/
theorem decodeFunction_undefined (n : Nat) (h : 7 < n) : decodeFunction n = .error .unknownEncoding := by
  unfold decodeFunction
  split <;> first | omega | rfl

theorem decodePull_undefined (n : Nat) (h : 2 < n) : decodePull n = .error .unknownEncoding := by
  unfold decodePull
  split <;> first | omega | rfl

/-- What READ_FUNCTION ends with: a field of three bits never faults. -/
theorem answerMode_field (p : BitVec 3) : ∃ r, answerMode (decodeFunction p.toNat) = .respond .ok r := by
  obtain ⟨m, h⟩ := decodeFunction_field p
  exact ⟨_, by rw [h]; rfl⟩

/-! ### Banks of valid pins -/

theorem fsel_bank (p : Nat) (h : p ≤ 53) : p / 10 < nbanks .fsel := by
  simp [nbanks]
  omega

theorem two_banks (f : Family) (p : Nat) (h : p ≤ 53) (hf : nbanks f = 2) : p / 32 < nbanks f := by
  rw [hf]
  omega

/-! ### The coming answer -/

@[simp] theorem answer_setPending (f : Family) (b : Nat) (ws : List Work) (s : State) :
    answer f b (setPending ws s) = answer f b s := by
  simp only [answer, setPending]
  cases s.answers with
  | cons v vs => rfl
  | nil => cases locate s.mapped (addr s.base f b) <;> rfl

@[simp] theorem answer_setTurn (f : Family) (b : Nat) (k : Option Nat) (s : State) :
    answer f b (setTurn k s) = answer f b s := by
  simp only [answer, setTurn]
  cases s.answers with
  | cons v vs => rfl
  | nil => cases locate s.mapped (addr s.base f b) <;> rfl

@[simp] theorem answer_accept (f : Family) (b : Nat) (w : Word) (s : State) :
    answer f b (accept w s) = answer f b s := by
  simp only [answer, accept]
  cases s.answers with
  | cons v vs => rfl
  | nil => cases locate s.mapped (addr s.base f b) <;> rfl

end Sys2Proof.Machine
end

