-- ==== Sys2Proof/Laws/Events.lean ====
section
/-!
SUPPORT. Laws/Events.lean: what the work of a command is, and everything one event can do in a state that meets the
machine's invariant.
-/

namespace Sys2Proof.Machine

open Sys2Proof.Safety

/-! ### The work of each command -/

/-- What a command with a pin operand begins with: its work at the location, or InvalidPin. -/
theorem atLocation_fselect (pin : Octet) (work : Location → List Work) (w : Word) (P : List Work → Prop)
    (hw : ∃ i, w = encode i ∧ pinOperand i = some pin)
    (hok : pin.toNat ≤ 53 → P (work ⟨pin.toNat / 10, pin.toNat % 10 * 3, 3⟩))
    (hbad : ∀ k, Deserves k w → P [.raise k]) : P (atLocation (resolveFunctionSelect pin) work) := by
  by_cases h : pin.toNat ≤ 53
  · rw [resolveFunctionSelect_valid _ h]
    exact hok h
  · obtain ⟨i, hi, hp⟩ := hw
    rw [resolveFunctionSelect_invalid _ (by omega)]
    exact hbad .invalidPin ⟨i, pin, hi, hp, by omega⟩

theorem atLocation_bit (pin : Octet) (work : Location → List Work) (w : Word) (P : List Work → Prop)
    (hw : ∃ i, w = encode i ∧ pinOperand i = some pin)
    (hok : pin.toNat ≤ 53 → P (work (pinBit pin.toNat)))
    (hbad : ∀ k, Deserves k w → P [.raise k]) : P (atLocation (resolveBitRegister pin) work) := by
  by_cases h : pin.toNat ≤ 53
  · rw [resolveBitRegister_valid _ h]
    exact hok h
  · obtain ⟨i, hi, hp⟩ := hw
    rw [resolveBitRegister_invalid _ (by omega)]
    exact hbad .invalidPin ⟨i, pin, hi, hp, by omega⟩

theorem atLocation_pudclk (pin : Octet) (work : Location → List Work) (w : Word) (P : List Work → Prop)
    (hw : ∃ i, w = encode i ∧ pinOperand i = some pin)
    (hok : pin.toNat ≤ 53 → P (work (pinBit pin.toNat)))
    (hbad : ∀ k, Deserves k w → P [.raise k]) : P (atLocation (resolvePudclk pin) work) := by
  by_cases h : pin.toNat ≤ 53
  · rw [resolvePudclk_valid _ h]
    exact hok h
  · obtain ⟨i, hi, hp⟩ := hw
    rw [resolvePudclk_invalid _ (by omega)]
    exact hbad .invalidPin ⟨i, pin, hi, hp, by omega⟩

/-- Every command is a word issued with one of the kinds of work Safety names. -/
theorem exec_issues (i : Instr) : ∃ ws, FreshWork (encode i) ws ∧ ∀ s, exec i s = issueWord (encode i) ws s := by
  have bad : ∀ k, Deserves k (encode i) → FreshWork (encode i) [.raise k] := fun k h => .inr (.inl ⟨k, rfl, h⟩)
  cases i with
  | resolveFsel pin =>
    refine ⟨_, ?_, fun s => rfl⟩
    exact atLocation_fselect pin _ _ (FreshWork _) ⟨_, rfl, rfl⟩ (fun _ => .inl ⟨_, rfl⟩) bad
  | resolveBit pin =>
    refine ⟨_, ?_, fun s => rfl⟩
    exact atLocation_bit pin _ _ (FreshWork _) ⟨_, rfl, rfl⟩ (fun _ => .inl ⟨_, rfl⟩) bad
  | resolvePudclk pin =>
    refine ⟨_, ?_, fun s => rfl⟩
    exact atLocation_pudclk pin _ _ (FreshWork _) ⟨_, rfl, rfl⟩ (fun _ => .inl ⟨_, rfl⟩) bad
  | encodeFunction m => exact ⟨_, .inl ⟨_, rfl⟩, fun s => rfl⟩
  | decodeFunction p =>
    refine ⟨_, ?_, fun s => rfl⟩
    by_cases h : p.toNat ≤ 7
    · obtain ⟨r, hr⟩ := answerMode_field (BitVec.ofNat 3 p.toNat)
      rw [show (BitVec.ofNat 3 p.toNat).toNat = p.toNat by simp; omega] at hr
      exact .inl ⟨r, by rw [hr]⟩
    · rw [decodeFunction_undefined _ (by omega)]
      exact bad .unknownEncoding ⟨p, .inl ⟨rfl, by omega⟩⟩
  | writeFunction pin m =>
    refine ⟨_, ?_, fun s => rfl⟩
    exact atLocation_fselect pin _ _ (FreshWork _) ⟨_, rfl, rfl⟩ (fun h => .inr (.inr (.inl ⟨_, m, h, rfl⟩))) bad
  | setPin pin =>
    refine ⟨_, ?_, fun s => rfl⟩
    exact atLocation_bit pin _ _ (FreshWork _) ⟨_, rfl, rfl⟩
      (fun h => .inr (.inr (.inr (.inr (.inr (.inr (.inl ⟨_, .set, h, .inl rfl, rfl⟩))))))) bad
  | clearPin pin =>
    refine ⟨_, ?_, fun s => rfl⟩
    exact atLocation_bit pin _ _ (FreshWork _) ⟨_, rfl, rfl⟩
      (fun h => .inr (.inr (.inr (.inr (.inr (.inr (.inl ⟨_, .clr, h, .inr rfl, rfl⟩))))))) bad
  | readLevel pin =>
    refine ⟨_, ?_, fun s => rfl⟩
    exact atLocation_bit pin _ _ (FreshWork _) ⟨_, rfl, rfl⟩
      (fun h => .inr (.inr (.inr (.inr (.inr (.inl ⟨_, h, rfl⟩)))))) bad
  | configurePull pin st =>
    refine ⟨_, ?_, fun s => rfl⟩
    exact atLocation_pudclk pin _ _ (FreshWork _) ⟨_, rfl, rfl⟩
      (fun h => .inr (.inr (.inr (.inr (.inr (.inr (.inr ⟨pin, st, h, rfl, rfl⟩))))))) bad
  | encodePull st => exact ⟨_, .inl ⟨_, rfl⟩, fun s => rfl⟩
  | decodePull p =>
    refine ⟨_, ?_, fun s => rfl⟩
    by_cases h : p.toNat ≤ 2
    · have : ∃ st, decodePull p.toNat = .ok st := by
        obtain h | h | h : p.toNat = 0 ∨ p.toNat = 1 ∨ p.toNat = 2 := by omega
        all_goals exact ⟨_, by rw [h]; rfl⟩
      obtain ⟨st, hst⟩ := this
      exact .inl ⟨_, by rw [hst]; rfl⟩
    · rw [decodePull_undefined _ (by omega)]
      exact bad .unknownEncoding ⟨p, .inr ⟨rfl, by omega⟩⟩
  | readFunction pin =>
    refine ⟨_, ?_, fun s => rfl⟩
    exact atLocation_fselect pin _ _ (FreshWork _) ⟨_, rfl, rfl⟩
      (fun h => .inr (.inr (.inr (.inr (.inl ⟨_, h, rfl⟩))))) bad

/-! ### One event -/

/-- A word PUD is given is one of three (43_pull_protocol R121 (1)). -/
theorem pullWord_cases (st : PullState) : pullWord st = 0#32 ∨ pullWord st = 1#32 ∨ pullWord st = 2#32 := by
  cases st <;> decide

/-- How an event of the trace and FAULT go together: a response ends the command, with OK just where no fault stands;
any other event happens with FAULT None. -/
def FaultFits (s t : State) (e : Event) : Prop :=
  match e with
  | .rsp st _ => t.busy = false ∧
      (s.fault ≠ none → t.fault = s.fault ∧ t.finfo = s.finfo ∧ e = .rsp .faulted 0#32) ∧
      (s.fault = none → (st = .ok ↔ t.fault = none))
  | _ => t.busy = true ∧ s.fault = none ∧ t.fault = none

/-- What one event leads to: the invariant again, and one allowed event more in the trace that fits FAULT. -/
def EventDone (s t : State) : Prop :=
  MachineInv t ∧ ∃ e, t.trace = s.trace ++ [e] ∧ eventOk e ∧ FaultFits s t e

/-- An event that keeps what FaultInv speaks of, the number of pins, and the memory's form. -/
theorem eventDone_of (s t : State) (e : Event) (hs : MachineInv s) (hB : BlockInv t) (hf : t.fault = s.fault)
    (hi : t.finfo = s.finfo) (hm : Memory.wf t.mem) (hl : t.pins.length = s.pins.length)
    (ht : t.trace = s.trace ++ [e]) (hok : eventOk e) (hx : FaultFits s t e) : EventDone s t := by
  refine ⟨⟨hB, ?_, hm, hl.trans hs.2.2.2⟩, e, ht, hok, hx⟩
  have := hs.2.1
  unfold FaultInv at *
  rw [hf, hi]
  exact this

/-- A read of the block in a command. -/
theorem read_done (s : State) (f : Family) (b : Nat) (ws : List Work) (hs : MachineInv s) (hb : s.busy = true)
    (hf : s.fault = none) (hp : s.phase = .idle) (hok : (f = .fsel ∨ f = .lev) ∧ b < nbanks f)
    (hw : FreshWork s.cmd ws) : EventDone s (goOn ws (regRead f b (setPending [] s))) := by
  refine eventDone_of s _ (.rd f b (answer f b s)) hs ?_ rfl rfl hs.2.2.1 rfl ?_ hok ⟨hb, hf, hf⟩
  · exact .inr (.inr (.inl ⟨hb, hf, hp, by simpa [goOn] using hw⟩))
  · simp [goOn, regRead]

/-- A write of the block in a command. -/
theorem write_done (s : State) (f : Family) (b : Nat) (v : Word) (after : Option Phase) (ws : List Work)
    (hn : b < nbanks f) (hs : MachineInv s) (hb : s.busy = true) (hf : s.fault = none) (hok : eventOk (.wr f b v))
    (hB : ∀ t : State, t.busy = true → t.fault = none → t.cmd = s.cmd → t.pending = ws →
      t.phase = after.getD s.phase → BlockInv t) :
    ∃ t, perform (.write f b v after) (setPending ws s) = .next t ∧ EventDone s t := by
  refine ⟨setPhase after (regWrite f b v (meetClocks after (setPending ws s))), by simp only [perform, hn, if_true],
    eventDone_of s _ (.wr f b v) hs (hB _ ?_ ?_ ?_ ?_ ?_) ?_ ?_ ?_ ?_ ?_ hok ⟨?_, hf, ?_⟩⟩
  all_goals first | (simp [hb, hf]; done) | skip
  · cases after <;> simp
  · rw [setPhase_mem]
    exact regWrite_wf _ _ _ _ (by simpa using hs.2.2.1)

/-- A delay of the pull sequence. -/
theorem delay_done (s : State) (ws : List Work) (hs : MachineInv s) (hb : s.busy = true) (hf : s.fault = none)
    (hB : ∀ t : State, t.busy = true → t.fault = none → t.cmd = s.cmd → t.pending = ws → t.phase = s.phase →
      BlockInv t) : ∃ t, perform .delay (setPending ws s) = .next t ∧ EventDone s t := by
  refine ⟨delaySettle (setPending ws s), rfl, eventDone_of s _ (.dly .settle) hs (hB _ ?_ ?_ ?_ ?_ ?_) ?_ ?_ ?_ ?_ ?_
    trivial ⟨?_, hf, ?_⟩⟩
  all_goals first | (simp [hb, hf]; done) | skip
  simpa using hs.2.2.1

/-- A command with only its response left. -/
theorem blockInv_fresh (t : State) (r : Word) (hb : t.busy = true) (hf : t.fault = none)
    (hw : t.pending = [.respond .ok r]) (hp : t.phase = .idle) : BlockInv t :=
  .inr (.inr (.inl ⟨hb, hf, hp, .inl ⟨r, hw⟩⟩))

/-- Everything an event of a command can do: it happens, and it is one EventDone describes. -/
theorem perform_done (s : State) (hs : MachineInv s) (w : Work) (ws : List Work) (hw : s.pending = w :: ws) :
    ∃ t, perform w (setPending ws s) = .next t ∧ EventDone s t := by
  have last : ∀ st r, s.phase = .idle → FaultFits s (respond st r (setPending [] s)) (.rsp st r) →
      (st ≠ .ok → r = 0#32) → EventDone s (respond st r (setPending [] s)) := fun st r hp hx hok =>
    eventDone_of s _ (.rsp st r) hs (.inl ⟨rfl, hp, rfl⟩) rfl rfl hs.2.2.1 rfl rfl hok hx
  rcases hs.1 with ⟨_, _, h⟩ | ⟨_, hf, hph, hp⟩ | ⟨hb, hf, hph, hfr⟩ | ⟨hb, hf, pin, st, h53, hc, hh⟩
  · rw [hw] at h
    cases h
  · rw [hw] at hp
    cases hp
    exact ⟨_, rfl, last _ _ hph ⟨rfl, fun _ => ⟨rfl, rfl, rfl⟩, fun h => absurd h hf⟩ fun _ => rfl⟩
  · rcases hfr with ⟨r, hp⟩ | ⟨k, hp, hk⟩ | ⟨p, m, h, hp⟩ | ⟨p, v, h, hp⟩ | ⟨p, h, hp⟩ | ⟨p, h, hp⟩ | ⟨p, f, h, hff, hp⟩ |
      ⟨pin, st, h, hc, hp⟩ <;> rw [hw] at hp <;> cases hp
    · exact ⟨_, rfl, last _ _ hph ⟨rfl, fun h => absurd hf h, fun _ => by simp [hf]⟩ fun h => absurd rfl h⟩
    · refine ⟨_, rfl, ⟨.inl ⟨rfl, hph, rfl⟩, hk, hs.2.2.1, hs.2.2.2⟩, .rsp (faultStatus k) 0#32, rfl, fun _ => rfl,
        rfl, fun h => absurd hf h, fun _ => ?_⟩
      cases k <;> simp [faultStatus]
    · refine ⟨_, ?_, read_done s .fsel (p / 10) [.write .fsel (p / 10) (insertField (answer .fsel (p / 10) s) (p % 10 * 3)
        (encodeFunction m)) none, .respond .ok 0#32] hs hb hf hph ⟨.inl rfl, fsel_bank p h⟩
        (.inr (.inr (.inr (.inl ⟨p, _, h, rfl⟩))))⟩
      simp only [perform, fsel_bank p h, if_true, answer_setPending]
    · exact write_done s _ _ _ _ _ (fsel_bank p h) hs hb hf (fsel_bank p h) fun t h1 h2 h3 h4 h5 =>
        blockInv_fresh t _ h1 h2 h4 (h5.trans hph)
    · obtain ⟨r, hr⟩ := answerMode_field (fieldAt (answer .fsel (p / 10) s) (p % 10 * 3))
      refine ⟨_, ?_, read_done s .fsel (p / 10) [.respond .ok r] hs hb hf hph ⟨.inl rfl, fsel_bank p h⟩ (.inl ⟨r, rfl⟩)⟩
      simp only [perform, fsel_bank p h, if_true, answer_setPending, hr]
    · have hn := two_banks .lev p h rfl
      refine ⟨_, ?_, read_done s .lev (p / 32) [.respond .ok (levelBit (answer .lev (p / 32) s) (p % 32))] hs hb hf hph
        ⟨.inr rfl, hn⟩ (.inl ⟨_, rfl⟩)⟩
      simp only [perform, hn, if_true, answer_setPending]
    · have hn : p / 32 < nbanks f := by rcases hff with rfl | rfl <;> exact two_banks _ p h rfl
      refine write_done s _ _ _ _ _ hn hs hb hf ?_ fun t h1 h2 h3 h4 h5 => blockInv_fresh t _ h1 h2 h4 (h5.trans hph)
      rcases hff with rfl | rfl <;> exact ⟨p, h, rfl, rfl⟩
    · exact write_done s _ _ _ _ _ (by decide) hs hb hf ⟨rfl, pullWord_cases st⟩ fun t h1 h2 h3 h4 h5 =>
        .inr (.inr (.inr ⟨h1, h2, pin, st, h, h3.trans hc, .inl ⟨h5, 1, .inl rfl, h4⟩⟩))
  · have hn : (pinBit pin.toNat).bank < nbanks .pudclk := two_banks .pudclk _ h53 rfl
    rcases hh with ⟨hph, n, rfl | rfl, hp⟩ | ⟨hph, n, rfl | rfl | rfl, hp⟩ <;> rw [hw] at hp <;> cases hp
    · exact delay_done s _ hs hb hf fun t h1 h2 h3 h4 h5 =>
        .inr (.inr (.inr ⟨h1, h2, pin, st, h53, h3.trans hc, .inl ⟨h5.trans hph, 2, .inr rfl, h4⟩⟩))
    · exact write_done s _ _ _ _ _ hn hs hb hf ⟨_, h53, rfl, .inl rfl⟩ fun t h1 h2 h3 h4 h5 =>
        .inr (.inr (.inr ⟨h1, h2, pin, st, h53, h3.trans hc, .inr ⟨h5, 3, .inl rfl, h4⟩⟩))
    · exact delay_done s _ hs hb hf fun t h1 h2 h3 h4 h5 =>
        .inr (.inr (.inr ⟨h1, h2, pin, st, h53, h3.trans hc, .inr ⟨h5.trans hph, 4, .inr (.inl rfl), h4⟩⟩))
    · exact write_done s _ _ _ _ _ (by decide) hs hb hf ⟨rfl, .inl rfl⟩ fun t h1 h2 h3 h4 h5 =>
        .inr (.inr (.inr ⟨h1, h2, pin, st, h53, h3.trans hc, .inr ⟨h5.trans hph, 5, .inr (.inr rfl), h4⟩⟩))
    · exact write_done s _ _ _ _ _ hn hs hb hf ⟨_, h53, rfl, .inr rfl⟩ fun t h1 h2 h3 h4 h5 =>
        blockInv_fresh t _ h1 h2 h4 h5

end Sys2Proof.Machine
end

