-- ==== Sys2Proof/Laws/PerInstr.lean ====
section
/-!
SUPPORT. Laws/PerInstr.lean: for every command, that its encoding is a well-formed word (spec 30_encoding R54), one lemma
per constructor.
-/

namespace Sys2Proof.Laws.EncodeOk

/-- The command's word meets the conditions of R54, as WellFormed reads them. -/
def Statement (i : Instr) : Prop := WellFormed.wordOk (encode i) = true

theorem resolveFsel (pin : Octet) : Statement (.resolveFsel pin) := by
  simp [Statement, wordOk_iff, encode, WellFormed.opcodes]

theorem resolveBit (pin : Octet) : Statement (.resolveBit pin) := by
  simp [Statement, wordOk_iff, encode, WellFormed.opcodes]

theorem resolvePudclk (pin : Octet) : Statement (.resolvePudclk pin) := by
  simp [Statement, wordOk_iff, encode, WellFormed.opcodes]

theorem encodeFunction (mode : FunctionMode) : Statement (.encodeFunction mode) := by
  cases mode <;> simp [Statement, wordOk_iff, encode, WellFormed.opcodes, modeOrdinal]

theorem decodeFunction (pattern : Octet) : Statement (.decodeFunction pattern) := by
  simp [Statement, wordOk_iff, encode, WellFormed.opcodes]

theorem writeFunction (pin : Octet) (mode : FunctionMode) : Statement (.writeFunction pin mode) := by
  cases mode <;> simp [Statement, wordOk_iff, encode, WellFormed.opcodes, modeOrdinal]

theorem setPin (pin : Octet) : Statement (.setPin pin) := by
  simp [Statement, wordOk_iff, encode, WellFormed.opcodes]

theorem clearPin (pin : Octet) : Statement (.clearPin pin) := by
  simp [Statement, wordOk_iff, encode, WellFormed.opcodes]

theorem readLevel (pin : Octet) : Statement (.readLevel pin) := by
  simp [Statement, wordOk_iff, encode, WellFormed.opcodes]

theorem configurePull (pin : Octet) (state : PullState) : Statement (.configurePull pin state) := by
  cases state <;> simp [Statement, wordOk_iff, encode, WellFormed.opcodes, stateOrdinal]

theorem encodePull (state : PullState) : Statement (.encodePull state) := by
  cases state <;> simp [Statement, wordOk_iff, encode, WellFormed.opcodes, stateOrdinal]

theorem decodePull (pattern : Octet) : Statement (.decodePull pattern) := by
  simp [Statement, wordOk_iff, encode, WellFormed.opcodes]

theorem readFunction (pin : Octet) : Statement (.readFunction pin) := by
  simp [Statement, wordOk_iff, encode, WellFormed.opcodes]

end Sys2Proof.Laws.EncodeOk
end

