-- ==== Sys2Proof/Tests/Slice0.lean ====
section
/-!
SUPPORT. Tests/Slice0.lean: ill-formed words, words written out from the spec's encoding, single commands with the
results the spec's tables state (95_test_vectors), and for every obligation with hypotheses a state that meets them.
-/

namespace Sys2Proof.Tests

open Sys2Proof.Machine Sys2Proof.Safety

/-! ### WellFormed refuses (30_encoding R54; the words of table V10) -/

theorem test_rsv_not_zero : WellFormed.wordOk 0x01002F01#32 = false ∧ WellFormed.rsvZero 0x01002F01#32 = false := by decide
theorem test_reserved_opcode : WellFormed.wordOk 0x00000000#32 = false ∧ WellFormed.opAssigned 0x0000000B#32 = false ∧
    WellFormed.opAssigned 0x0000000F#32 = false ∧ WellFormed.opAssigned 0x00000013#32 = false ∧
    WellFormed.opAssigned 0x000000FF#32 = false := by decide
theorem test_unused_pin : WellFormed.wordOk 0x00030104#32 = false ∧ WellFormed.unusedPinZero 0x00030104#32 = false := by
  decide
theorem test_unused_arg : WellFormed.wordOk 0x00012F07#32 = false ∧ WellFormed.unusedArgZero 0x00012F07#32 = false := by
  decide
theorem test_mode_out_of_range : WellFormed.wordOk 0x00080506#32 = false ∧ WellFormed.modeInRange 0x00080506#32 = false ∧
    WellFormed.modeInRange 0x00070506#32 = true := by decide
theorem test_state_out_of_range : WellFormed.wordOk 0x00032F0A#32 = false ∧ WellFormed.stateInRange 0x00032F0A#32 = false ∧
    WellFormed.wordOk 0x00030010#32 = false ∧ WellFormed.stateInRange 0x00022F0A#32 = true := by decide
theorem test_well_formed : WellFormed.wordOk 0x0000FF07#32 = true ∧ WellFormed.wordOk 0x00FF0005#32 = true := by decide

/-! ### Decoding (30_encoding R53, R59): op in bits 7:0, pin in 15:8, arg in 23:16, bits 31:24 zero -/

theorem test_decode_resolve_fsel : decode 0b00000000000000000010111100000001#32 = .ok (.resolveFsel 47) := rfl
theorem test_decode_resolve_bit : decode 0b00000000000000000011010100000010#32 = .ok (.resolveBit 53) := rfl
theorem test_decode_resolve_pudclk : decode 0b00000000000000000010000000000011#32 = .ok (.resolvePudclk 32) := rfl
theorem test_decode_encode_function : decode 0b00000000000001110000000000000100#32 = .ok (.encodeFunction .alt5) := rfl
theorem test_decode_decode_function : decode 0b00000000000011010000000000000101#32 = .ok (.decodeFunction 13) := rfl
theorem test_decode_write_function : decode 0b00000000000001010000010000000110#32 = .ok (.writeFunction 4 .alt3) := rfl
theorem test_decode_set_pin : decode 0b00000000000000001111111100000111#32 = .ok (.setPin 255) := rfl
theorem test_decode_clear_pin : decode 0b00000000000000000001111100001000#32 = .ok (.clearPin 31) := rfl
theorem test_decode_read_level : decode 0b00000000000000000001000100001001#32 = .ok (.readLevel 17) := rfl
theorem test_decode_configure_pull : decode 0b00000000000000010010000000001010#32 = .ok (.configurePull 32 .pullDown) := rfl
theorem test_decode_encode_pull : decode 0b00000000000000100000000000010000#32 = .ok (.encodePull .pullUp) := rfl
theorem test_decode_decode_pull : decode 0b00000000000000110000000000010001#32 = .ok (.decodePull 3) := rfl
theorem test_decode_read_function : decode 0b00000000000000000000010100010010#32 = .ok (.readFunction 5) := rfl
theorem test_decode_refuses : decode 0x0003360A#32 = .error .stateOrdinal ∧ decode 0x0008C806#32 = .error .modeOrdinal ∧
    decode 0x00030104#32 = .error .unusedFieldSet ∧ decode 0x00012F07#32 = .error .unusedFieldSet ∧
    decode 0x01002F01#32 = .error .reservedBitsSet ∧ decode 0x00000000#32 = .error .reservedOpcode :=
  ⟨rfl, rfl, rfl, rfl, rfl, rfl⟩
theorem test_table_word : decodeTableWord 32 0x00022F0A = some (.configurePull 47 .pullUp) ∧
    decodeTableWord 32 0x13 = none := by decide

/-! ### The text form (30_encoding R59 and the commands of 95_test_vectors) -/

theorem test_text_pin : assemble "resolve_function_select 47" = some 0x00002F01#32 := by decide
theorem test_text_mode : assemble "write_function 5, Output ; pin 5" = some 0x00010506#32 := by decide
theorem test_text_pattern : assemble "decode_function 0b101" = some 0x00050005#32 ∧
    assemble "decode_function 13" = some 0x000D0005#32 := by decide
theorem test_text_state : assemble "configure_pull 47, PullUp" = some 0x00022F0A#32 := by decide
theorem test_text_raw : assemble "encode_pull #3" = some 0x00030010#32 ∧ assemble "set_pin 256" = none := by decide

/-! ### Single commands -/

/-- The trace of a next state. -/
def traceOf (o : Host.Outcome State Fault Refusal) : List Event :=
  match o with
  | .next t => t.trace
  | _ => []

/-- What a test looks at in a next state. -/
def look {α : Type} (f : State → α) (o : Host.Outcome State Fault Refusal) : Option α :=
  match o with
  | .next t => some (f t)
  | _ => none

/-- The state after reset with the oracle's answers to the coming reads (20_memory R44). -/
def reading (vs : List Word) : State := { State.reset with answers := vs }

/-- A command word issued next. -/
def word (w : Nat) (s : State) : Host.Outcome State Fault Refusal := step (s.withFetchWord 32 w)

/-- S1 and V1, 53. -/
theorem test_resolve_fsel : traceOf (word 0x00002F01 State.reset) = [.rsp .ok 0x00030415#32] ∧
    traceOf (word 0x00003501 State.reset) = [.rsp .ok 0x00030509#32] := by decide
/-- V2: one pin too far. -/
theorem test_resolve_fsel_invalid : traceOf (word 0x00003601 State.reset) = [.rsp .invalidPin 0#32] ∧
    look (fun t => (t.fault, t.finfo)) (word 0x00003601 State.reset) = some (some .invalidPin, 0x00003601#32) := by decide
/-- V1, 31 and 32. -/
theorem test_resolve_bit : traceOf (word 0x00001F02 State.reset) = [.rsp .ok 0x0001001F#32] ∧
    traceOf (word 0x00002002 State.reset) = [.rsp .ok 0x00010100#32] := by decide
/-- V1, 47; V2, 255. -/
theorem test_resolve_pudclk : traceOf (word 0x00002F03 State.reset) = [.rsp .ok 0x0001010F#32] ∧
    traceOf (word 0x0000FF03 State.reset) = [.rsp .invalidPin 0#32] := by decide
/-- V3, Alt1 and Alt5. -/
theorem test_encode_function : traceOf (word 0x00030004 State.reset) = [.rsp .ok 5#32] ∧
    traceOf (word 0x00070004 State.reset) = [.rsp .ok 2#32] := by decide
/-- V4, 011 and 111. -/
theorem test_decode_function : traceOf (word 0x00030005 State.reset) = [.rsp .ok 6#32] ∧
    traceOf (word 0x00070005 State.reset) = [.rsp .ok 5#32] := by decide
/-- V4, 13: not cut to three bits. -/
theorem test_decode_function_undefined : traceOf (word 0x000D0005 State.reset) = [.rsp .unknownEncoding 0#32] := by decide
/-- V6, pin 5 among ones. -/
theorem test_write_function : traceOf (word 0x00000506 (reading [0xFFFFFFFF#32])) =
    [.rd .fsel 0 0xFFFFFFFF#32, .wr .fsel 0 0xFFFC7FFF#32, .rsp .ok 0#32] := by decide
/-- V6, the highest pin. -/
theorem test_write_function_top : traceOf (word 0x00023506 (reading [0xDEADBEEF#32])) =
    [.rd .fsel 5 0xDEADBEEF#32, .wr .fsel 5 0xDEADB8EF#32, .rsp .ok 0#32] := by decide
/-- V7, pins 2 and 53. -/
theorem test_read_function : traceOf (word 0x00000212 (reading [0x000001C0#32])) =
    [.rd .fsel 0 0x000001C0#32, .rsp .ok 5#32] ∧
    traceOf (word 0x00003512 (reading [0x00000400#32])) = [.rd .fsel 5 0x00000400#32, .rsp .ok 7#32] := by decide
/-- V8, pin 53; P4: OUTL[53] and no other bit. -/
theorem test_set_pin : traceOf (word 0x00003507 State.reset) = [.wr .set 1 0x00200000#32, .rsp .ok 0#32] ∧
    look State.outl (word 0x00003507 State.reset) = some (1#54 <<< 53) := by decide
/-- V8, pin 31; CLR drives the pin to 0 (20_memory R41). -/
theorem test_clear_pin : traceOf (word 0x00001F08 State.reset) = [.wr .clr 0 0x80000000#32, .rsp .ok 0#32] ∧
    look State.outl (word 0x00001F08 { State.reset with outl := 3#54 <<< 31 }) = some (1#54 <<< 32) := by decide
/-- V8, the top bit and a reserved bit. -/
theorem test_read_level : traceOf (word 0x00001F09 (reading [0x80000000#32])) =
    [.rd .lev 0 0x80000000#32, .rsp .ok 1#32] ∧
    traceOf (word 0x00003509 (reading [0xFFC00000#32])) = [.rd .lev 1 0xFFC00000#32, .rsp .ok 0#32] := by decide
/-- P5: the outside world's levels, by ENV-REF. -/
theorem test_read_level_env_ref : traceOf (word 0x00001109 { State.reset with pinsIn := 0x100020000#54 }) =
    [.rd .lev 0 0x00020000#32, .rsp .ok 1#32] := by decide
/-- V9, pin 47. -/
theorem test_configure_pull : traceOf (word 0x00022F0A State.reset) =
    [.wr .pud 0 2#32, .dly .settle, .wr .pudclk 1 0x00008000#32, .dly .settle, .wr .pud 0 0#32, .wr .pudclk 1 0#32,
     .rsp .ok 0#32] := by decide
/-- P3: PULL[47] after a PullUp. -/
theorem test_configure_pull_takes : look (fun t => (t.pins[47]?).map PinLatch.pull) (word 0x00022F0A State.reset) =
    some (some .pullUp) := by decide
/-- V5. -/
theorem test_encode_pull : traceOf (word 0x00020010 State.reset) = [.rsp .ok 2#32] ∧
    traceOf (word 0x00030010 State.reset) = [.rsp .illegalCommand 0#32] := by decide
/-- V5: the reserved pattern, and one that is not cut to two bits. -/
theorem test_decode_pull : traceOf (word 0x00010011 State.reset) = [.rsp .ok 1#32] ∧
    traceOf (word 0x00030011 State.reset) = [.rsp .unknownEncoding 0#32] ∧
    traceOf (word 0x00040011 State.reset) = [.rsp .unknownEncoding 0#32] := by decide

/-- V11: after `set_pin 54` every word is refused and the first fault is kept. -/
def faulted : State := { State.reset with fault := some .invalidPin, finfo := 0x00003607#32 }
theorem test_refusal_after_fault : traceOf (word 0x00000000 faulted) = [.rsp .faulted 0#32] ∧
    look (fun t => (t.fault, t.finfo)) (word 0x00FF0005 faulted) = some (some .invalidPin, 0x00003607#32) := by decide

/-- V12: the bytes of a word, lowest address first. -/
theorem test_byte_order : look (fun t => (List.range 4).map fun k => Memory.read (0x3F200010 + k) t.mem)
    (word 0x00012F06 (reading [0x00012345#32])) = some [0x45#8, 0x23#8, 0x21#8, 0x00#8] := by decide
theorem test_addresses : addr Config.base .clr 1 = 0x3F20002C#32 ∧ addr Config.base .lev 1 = 0x3F200038#32 ∧
    addr Config.base .pudclk 1 = 0x3F20009C#32 := by decide

/-- A model's stop: a base that is no multiple of 4 (20_memory R32). -/
theorem test_bad_configuration : (match word 0x00000007 { State.reset with base := 0x3F200001#32 } with
    | .refused .badConfiguration => true
    | _ => false) = true := by decide

/-! ### Witnesses: for each obligation with hypotheses, inputs that meet them -/

/-- A next state is answered. -/
theorem goes_on {o : Host.Outcome State Fault Refusal} (h : (look id o).isSome = true) : ∃ t, o = .next t := by
  cases o with
  | next t => exact ⟨t, rfl⟩
  | fault r => cases h
  | refused r => cases h

/-- The state with these inputs. -/
def withInputs (is : List Input) (s : State) : State := { s with inputs := is }

/-- A CONFIGURE_PULL of pin 53 after its first n events. -/
def cutPull (n : Nat) (ph : Phase) : State :=
  { State.reset with
    busy := true, phase := ph, cmd := 0x0002350A#32, pending := (pullSequence .pullUp (pinBit 53)).drop n }

theorem witness_HostResetSetsTheBlock :
    (withInputs [.reset 0x20200000#32, .resume none] (cutPull 3 .clockAsserted)).inputs =
      .reset 0x20200000#32 :: [.resume none] ∧
    (withInputs [.reset Config.base] State.reset).phase = .idle := ⟨rfl, rfl⟩

theorem witness_HostResetCutsTheSequence :
    (withInputs [.reset Config.base] (cutPull 1 .pudWritten)).phase ≠ .idle ∧
    (withInputs [.reset Config.base] (cutPull 3 .clockAsserted)).phase ≠ .idle ∧
    commandPattern (cutPull 1 .pudWritten).cmd = some 2#32 ∧ stored .pud 0 (cutPull 5 .clockAsserted) = 0#32 ∧
    commandPin (cutPull 1 .pudWritten).cmd = 53 ∧ commandPin (cutPull 1 .pudWritten).cmd < (cutPull 1 .pudWritten).pins.length ∧
    (withInputs [.reset Config.base] (cutPull 1 .pudWritten)).inputs = .reset Config.base :: [] := by decide

/-- The same with PUD holding a word, good for what `stage` says. -/
def cutWith (v : Word) (stage : PudStage) (n : Nat) (ph : Phase) : State :=
  { store .pud 0 v (cutPull n ph) with
    pudStage := stage, pins := List.replicate 52 ⟨.unknown, .ready⟩ ++ [⟨.unknown, .touched⟩, ⟨.unknown, .disturbed⟩] }

/-- The pattern is still in PUD, in both phases; the pins at the ends of the banks. -/
theorem witness_ClockAfterACutIsFree :
    (∀ s ∈ [cutWith 2#32 .settled 2 .pudWritten, cutWith 2#32 .written 3 .clockAsserted], s.phase ≠ .idle ∧
      commandPattern s.cmd = some (stored .pud 0 s) ∧ s.pins.length = 54) ∧
    (0 < nbanks .pudclk ∧ 31 / 32 = 0 ∧ (0x80000001#32).getLsbD (31 % 32) = true ∧ (0x80000001#32).getLsbD (0 % 32) = true) ∧
    1 < nbanks .pudclk ∧ 53 ≤ 53 ∧ 53 / 32 = 1 ∧ (0x00200000#32).getLsbD (53 % 32) = true := by decide

/-- PUD is back at 0 after the fifth event, or another master has written PullDown in the place of PullUp. -/
theorem witness_ClockAfterACutTakesTheState :
    (∀ s ∈ [(cutWith 0#32 .written 5 .clockAsserted, PullState.off), (cutWith 1#32 .settled 2 .pudWritten, .pullDown)],
      s.1.phase ≠ .idle ∧ stored .pud 0 s.1 = pullWord s.2 ∧ commandPattern s.1.cmd ≠ some (pullWord s.2) ∧
      s.1.pudStage ≠ .stale ∧ s.1.pins[0]? = some ⟨.unknown, .ready⟩ ∧ s.1.pins[53]? = some ⟨.unknown, .disturbed⟩ ∧
      53 = commandPin s.1.cmd) ∧ 0 ≤ 53 := by decide

/-- R162 and R172: reset after the fifth event of `configure_pull 53, PullUp` lets another master take pin 4 through the
rest of a sequence, to Off; after the second event it does not. -/
theorem test_clock_after_a_cut : look (fun t => (((latchByMaster 4).foldl (fun u a => masterAct a u)
      (hostReset Config.base t)).pins[4]?).map PinLatch.pull)
      (exec (.configurePull 53 .pullUp) (setTurn (some 5) State.reset)) = some (some .off) ∧
    look (fun t => (((latchByMaster 4).take 2).foldl (fun u a => masterAct a u) (hostReset Config.base t)).pins[4]?.map
      PinLatch.stage) (exec (.configurePull 53 .pullUp) (setTurn (some 2) State.reset)) = some (some .spoiled) := by decide

/-- The state with a word on the command port, exclusive access, and another command after it. -/
def issuing (w : Word) (s : State) : State := withInputs [.command w none, .command 0x00000007#32 none] s

theorem witness_StepRunsTheDecodedCommand :
    (issuing 0x00002F01#32 State.reset).inputs = .command 0x00002F01#32 none :: [.command 0x00000007#32 none] ∧
    (issuing 0x00002F01#32 State.reset).busy = false ∧ configOk (issuing 0x00002F01#32 State.reset).base = true ∧
    decode 0x00002F01#32 = .ok (.resolveFsel 47) := ⟨rfl, rfl, by decide, rfl⟩

theorem witness_IllFormedWordIsIllegalCommand :
    (issuing 0x01002F01#32 State.reset).busy = false ∧ (issuing 0x01002F01#32 State.reset).fault = none ∧
    configOk (issuing 0x01002F01#32 State.reset).base = true ∧
    [0x01002F01#32, 0x00000000#32, 0x00030104#32, 0x00012F07#32, 0x00080506#32, 0x00032F0A#32, 0x0003360A#32].map
      WellFormed.wordOk = List.replicate 7 false := by decide

/-- Each answer the order of checks can give, the clauses at their boundaries. -/
theorem witness_StatusFollowsTheOrderOfChecks :
    (issuing 0x00003601#32 State.reset).busy = false ∧ configOk (issuing 0x00003601#32 State.reset).base = true ∧
    expectedStatus (some .invalidPin) 0x00000000#32 = .faulted ∧ expectedStatus none 0x0003360A#32 = .illegalCommand ∧
    expectedStatus none 0x00003501#32 = .ok ∧ expectedStatus none 0x00003601#32 = .invalidPin ∧
    expectedStatus none 0x00070005#32 = .ok ∧ expectedStatus none 0x00080005#32 = .unknownEncoding ∧
    expectedStatus none 0x00020011#32 = .ok ∧ expectedStatus none 0x00030011#32 = .unknownEncoding := by decide

theorem witness_BusyBlockAcceptsNoCommand : (cutPull 1 .pudWritten).busy = true ∧
    ∃ t, step (withInputs [.command 0x00000007#32 none] (cutPull 1 .pudWritten)) = .next t :=
  ⟨rfl, goes_on (by decide)⟩

theorem witness_IdleBlockWaits : State.reset.inputs = [] ∧ State.reset.busy = false := ⟨rfl, rfl⟩

theorem witness_BadConfigurationIsRefused : configOk 0x3F200002#32 = false ∧ configOk 0xFFFFFF64#32 = false ∧
    configOk 0xFFFFFF60#32 = true ∧
    (withInputs [.command 0x00000007#32 none] { State.reset with base := 0x3F200002#32 }).inputs =
      .command 0x00000007#32 none :: [] ∧
    (withInputs [.resume none] { cutPull 1 .pudWritten with base := 0x3F200002#32 }).inputs = .resume none :: [] ∧
    (withInputs [.resume none] { cutPull 1 .pudWritten with base := 0x3F200002#32 }).busy = true ∧
    (withInputs [] { cutPull 1 .pudWritten with base := 0x3F200002#32 }).inputs = [] := by decide

theorem witness_RegistersShareNoByte : 5 < nbanks .fsel ∧ 0 < nbanks .pud ∧ 1 < nbanks .pudclk ∧ ¬ 1 < nbanks .pud ∧
    Memory.key (addr 0xFFFFFFFC#32 .fsel 5) 3 = Memory.key (addr 0xFFFFFFFC#32 .fsel 5) 3 := by decide

theorem witness_CommandIsOneAtomicStep : State.reset.busy = false ∧ State.reset.inputs = [] ∧
    configOk State.reset.base = true ∧ (∃ u, exec (.configurePull 53 .pullUp) (setTurn (some 3) State.reset) = .next u) ∧
    (∃ u, exec (.setPin 0) (setTurn (some 9) State.reset) = .next u) :=
  ⟨rfl, rfl, by decide, goes_on (by decide), goes_on (by decide)⟩
/-- The resuming inputs, before no other input and before another. -/
theorem witness_CommandIsOneAtomicStep_resumed : ∃ u, exec (.configurePull 53 .pullUp) (setTurn (some 3)
    (withInputs [.master .settle] State.reset)) = .next u := goes_on (by decide)
/-- R170, R120: `configure_pull 47, PullUp` cut after its first event and resumed for two has made three events. -/
theorem test_resumed_for_two : traceOf (match exec (.configurePull 47 .pullUp) (setTurn (some 1) State.reset) with
    | .next t => step (setInputs [.resume (some 2)] t)
    | o => o) = [.wr .pud 0 2#32, .dly .settle, .wr .pudclk 1 0x00008000#32] := by decide

theorem witness_ready : Ready State.reset ∧ Reachable State.reset ∧ State.reset.answers = [] := by decide

/-- The pin operands: the lowest, the ends of banks, the highest. -/
theorem witness_pins : ∀ p ∈ [0#8, 9#8, 10#8, 31#8, 32#8, 49#8, 50#8, 53#8], p.toNat ≤ 53 := by decide

theorem witness_ResolveFselResult : Ready State.reset ∧ (53#8).toNat ≤ 53 ∧ (0#8).toNat ≤ 53 := by decide
theorem witness_SingleBitLocatorResults : Ready State.reset ∧ (31#8).toNat ≤ 53 ∧ (32#8).toNat ≤ 53 ∧
    (Instr.resolveBit 31 = .resolveBit 31 ∨ Instr.resolveBit 31 = .resolvePudclk 31) ∧
    (Instr.resolvePudclk 32 = .resolveBit 32 ∨ Instr.resolvePudclk 32 = .resolvePudclk 32) := by decide
theorem witness_LocatedFieldsNeverOverlap :
    resolveFunctionSelect 4 = .ok ⟨0, 12, 3⟩ ∧ resolveFunctionSelect 5 = .ok ⟨0, 15, 3⟩ ∧
    resolveBitRegister 32 = .ok ⟨1, 0, 1⟩ ∧ resolveBitRegister 53 = .ok ⟨1, 21, 1⟩ ∧
    resolvePudclk 0 = .ok ⟨0, 0, 1⟩ ∧ resolvePudclk 31 = .ok ⟨0, 31, 1⟩ ∧ (4#8) ≠ 5#8 := ⟨rfl, rfl, rfl, rfl, rfl, rfl, by decide⟩
theorem witness_LocatorIsInvertible : resolveFunctionSelect 53 = .ok ⟨5, 9, 3⟩ ∧ resolveBitRegister 53 = .ok ⟨1, 21, 1⟩ ∧
    resolvePudclk 32 = .ok ⟨1, 0, 1⟩ ∧ (3 < 10 ∧ 10 * 5 + 3 ≤ 53) ∧ (21 < 32 ∧ 32 * 1 + 21 ≤ 53) :=
  ⟨rfl, rfl, rfl, by decide, by decide⟩
theorem witness_LocatorStaysInsideThePins : resolveFunctionSelect 53 = .ok ⟨5, 9, 3⟩ ∧
    resolveFunctionSelect 49 = .ok ⟨4, 27, 3⟩ ∧ resolveBitRegister 31 = .ok ⟨0, 31, 1⟩ ∧
    resolvePudclk 53 = .ok ⟨1, 21, 1⟩ := ⟨rfl, rfl, rfl, rfl⟩

theorem witness_EncodeFunctionResult : Ready State.reset := by decide
theorem witness_DecodeFunctionResult : Ready State.reset ∧ (0#8).toNat ≤ 7 ∧ (7#8).toNat ≤ 7 := by decide
theorem witness_EncodePullResult : Ready State.reset := by decide
theorem witness_DecodePullResult : Ready State.reset ∧ (0#8).toNat ≤ 2 ∧ (2#8).toNat ≤ 2 := by decide
theorem witness_FunctionModeRoundTrips : 0 ≤ 7 ∧ decodeFunction 7 = .ok .alt3 := ⟨by decide, rfl⟩
theorem witness_PullStateRoundTrips : 0 ≤ 2 ∧ decodePull 2 = .ok .pullUp := ⟨by decide, rfl⟩
theorem witness_PureCommandsTouchNothing : isPure (.decodePull 3) = true ∧ State.reset.busy = false ∧ Ready State.reset ∧
    ∃ t, exec (.decodePull 3) State.reset = .next t := ⟨rfl, rfl, by decide, goes_on (by decide)⟩

theorem witness_WriteFunctionReadsThenWrites : Ready State.reset ∧ (53#8).toNat ≤ 53 ∧ (9#8).toNat ≤ 53 ∧
    Reachable State.reset := by decide
theorem witness_WriteFunctionCorruptsNoOtherPin : Ready State.reset ∧ Reachable State.reset ∧ State.reset.answers = [] ∧
    (50#8).toNat ≤ 53 ∧ 49 ≠ (50#8).toNat ∧ 53 ≠ (50#8).toNat := by decide
theorem witness_ReadFunctionResult : Ready (reading [0x00000600#32]) ∧ (53#8).toNat ≤ 53 := by decide
theorem witness_SetPinWritesOneBit : Ready State.reset ∧ (53#8).toNat ≤ 53 ∧ (32#8).toNat ≤ 53 ∧ Reachable State.reset := by
  decide
theorem witness_ClearPinWritesOneBit : Ready State.reset ∧ (31#8).toNat ≤ 53 ∧ (0#8).toNat ≤ 53 ∧ Reachable State.reset := by
  decide
theorem witness_ReadLevelResult : Ready (reading [0x80000000#32]) ∧ (31#8).toNat ≤ 53 := by decide
theorem witness_ReadLevelShowsThePin : Ready State.reset ∧ Reachable State.reset ∧ State.reset.answers = [] ∧
    (53#8).toNat ≤ 53 ∧ pinField3 53 State.reset = 0#3 ∧
    pinField3 53 (store .fsel 5 0x00000200#32 State.reset) = 0b001#3 := by decide

/-- P6: the other master's write falls between the two events. -/
def raced : State :=
  withInputs [.command (encode (.writeFunction 5 .output)) (some 1), .master (.write .fsel 0 0x00007000#32)] State.reset
theorem witness_WriteBetweenReadAndWriteIsLost : raced.busy = false ∧ raced.fault = none ∧ Reachable raced ∧
    configOk raced.base = true ∧ raced.answers = [] ∧ (5#8).toNat ≤ 53 ∧
    raced.inputs = [.command (encode (.writeFunction 5 .output)) (some 1),
      .master (.write .fsel ((5#8).toNat / 10) 0x00007000#32)] := by decide
/-- P6's end value. -/
theorem test_lost_update : look (stored .fsel 0) (match step raced with
    | .next t => (match step t with
      | .next u => step u
      | o => o)
    | o => o) = some 0x00008000#32 := by decide

theorem witness_ConfigurePullEvents : Ready State.reset ∧ (0#8).toNat ≤ 53 ∧ (53#8).toNat ≤ 53 ∧ Reachable State.reset := by
  decide
theorem witness_ConfigurePullPhases : State.reset.busy = false ∧ State.reset.fault = none ∧ State.reset.phase = .idle ∧
    (53#8).toNat ≤ 53 ∧ 0 ≤ 7 ∧ 7 ≤ 7 := by decide
theorem witness_ConfigurePullLeavesThePullRegistersClear : Ready State.reset ∧ Reachable State.reset ∧ (31#8).toNat ≤ 53 ∧
    (32#8).toNat ≤ 53 := by decide
/-- The delay primitive will answer these. -/
def withDelays (ds : List DelayAnswer) : State := { State.reset with delays := ds }
theorem witness_ConfigurePullTakesTheState : Ready State.reset ∧ Reachable State.reset ∧ (47#8).toNat ≤ 53 ∧
    (∀ ds ∈ [[], [DelayAnswer.full], [.full, .full], [.full, .full, .short]], .short ∉ (withDelays ds).delays.take 2 ∧
      Ready (withDelays ds) ∧ Reachable (withDelays ds)) ∧ stored .pudclk 0 State.reset = 0#32 ∧ stored .pudclk 1 State.reset = 0#32 ∧
    State.reset.pins.length = 54 ∧ 46 ≠ (47#8).toNat := by decide
theorem witness_ShortWaitLeavesThePullFree :
    (∀ later ∈ [[], [DelayAnswer.full], [.short], [.full, .short]],
      (withDelays (.short :: later)).delays = .short :: later ∧
      (withDelays (.full :: .short :: later)).delays = .full :: .short :: later ∧
      Ready (withDelays (.short :: later)) ∧ Reachable (withDelays (.short :: later)) ∧
      (withDelays (.short :: later)).pins.length = 54) ∧ (53#8).toNat ≤ 53 := by decide

/-- Another master writes PUDCLK[0] while pin 53's clock is asserted, and asserts pin 31's. -/
theorem witness_MasterWriteBreaksTheSequence :
    (withInputs [.master (.write .pudclk 0 0x80000000#32)] (cutPull 3 .clockAsserted)).inputs =
      .master (.write .pudclk 0 0x80000000#32) :: [] ∧
    (cutPull 3 .clockAsserted).phase ≠ .idle ∧ (Family.pudclk = .pud ∨ Family.pudclk = .pudclk) ∧ 0 < nbanks .pudclk ∧
    0 < nbanks .pud ∧ 53 < (cutPull 3 .clockAsserted).pins.length ∧ 53 = commandPin (cutPull 3 .clockAsserted).cmd ∧
    (31 / 32 = 0 ∧ (0x80000000#32).getLsbD (31 % 32) = true) := by decide
/-- The other clause: only the response of the CONFIGURE_PULL is left. -/
theorem witness_MasterWriteBeforeTheResponse : (cutPull 6 .idle).phase = .idle ∧ (cutPull 6 .idle).busy = true ∧
    (opField (cutPull 6 .idle).cmd).toNat = 0x0A ∧ (cutPull 6 .idle).pending = [.respond .ok 0#32] := by decide
theorem witness_WriteBeforeTheResponseBreaksTheSequence : State.reset.busy = false ∧ State.reset.fault = none ∧
    State.reset.phase = .idle ∧ (53#8).toNat ≤ 53 ∧ (1 ≤ 1 ∧ 1 ≤ 6) ∧ (1 ≤ 6 ∧ 6 ≤ 6) ∧
    (Family.pud = .pud ∨ Family.pud = .pudclk) ∧ 0 < nbanks .pud ∧ 1 < nbanks .pudclk ∧ State.reset.pins.length = 54 ∧
    Reachable State.reset ∧ configOk State.reset.base = true ∧ 31 / 32 = 0 ∧ (0x80000000#32).getLsbD (31 % 32) = true := by
  decide
/-- R172: another master writes PUD after the first event of `configure_pull 53, PullUp`; the command ends, and the pin's
latch sequence has not ended with a state taken: its last stage before the clock is cleared is no `released`. -/
theorem test_disturbed_to_the_end : look (fun t => (t.response, t.busy)) (match exec (.configurePull 53 .pullUp)
    (setTurn (some 1) State.reset) with
    | .next t => step (masterAct (.write .pud 0 1#32) t)
    | o => o) = some (some ⟨.ok, 0#32⟩, false) ∧
    look (fun t => t.pins[53]?.map PinLatch.stage) (match exec (.configurePull 53 .pullUp) (setTurn (some 1) State.reset) with
    | .next t => step (setInputs [.resume (some 4)] (masterAct (.write .pud 0 1#32) t))
    | o => o) = some (some .spoiled) := by decide
/-- R172: before the first event and after the response a master's write does not break the sequence. -/
theorem test_sequence_ends : inPullSequence (cutPull 6 .idle) = true ∧ inPullSequence (cutPull 0 .idle) = false ∧
    inPullSequence { cutPull 7 .idle with busy := false } = false := by decide

/-- R172: another master's write of PUD after the first event, then the command's own clock. -/
theorem test_disturbed_pin : (∀ k ∈ [(1, LatchStage.disturbed), (3, .spoiled)],
    look (fun t => (masterAct (.write .pud 0 1#32) t).pins[53]?.map PinLatch.stage)
      (exec (.configurePull 53 .pullUp) (setTurn (some k.1) State.reset)) = some (some k.2)) := by decide

/-- Another master has taken pin 5 through a PullUp but for the last two writes: its clock is still asserted. -/
def stale : State :=
  { store .pudclk 0 0x00000020#32 State.reset with
    pins := State.reset.pins.set 5 ⟨.unknown, .clocked .pullUp true⟩ }
theorem witness_AssertedClocksTakeAFreePull : Ready stale ∧ Reachable stale ∧ (4#8).toNat ≤ 53 ∧ (5#8).toNat ≤ 53 ∧
    (53#8).toNat ≤ 53 ∧ 5 ≤ 53 ∧ clockBit 5 stale = true ∧ stale.pins.length = 54 := by decide
/-- R127: `configure_pull 4, Off` makes pin 5 take, or half take, Off, and PullUp is not kept for sure. -/
theorem test_stale_clock : look (fun t => (t.pins[5]?).map PinLatch.stage)
    (exec (.configurePull 4 .off) (setTurn (some 1) stale)) = some (some .spoiled) := by decide

theorem witness_InvalidPinFaults : Ready State.reset ∧ 53 < (54#8).toNat ∧ 53 < (255#8).toNat ∧
    ∀ i ∈ [Instr.resolveFsel 54, .resolveBit 54, .resolvePudclk 54, .writeFunction 54 .input, .setPin 54, .clearPin 54,
      .readLevel 54, .configurePull 54 .off, .readFunction 54], pinOperand i = some 54 := by decide
theorem witness_UndefinedPatternFaults : Ready State.reset ∧ 7 < (8#8).toNat ∧ 2 < (3#8).toNat ∧
    look State.fault (exec (.decodePull 3) State.reset) = some (some .unknownEncoding) := by decide
theorem witness_FaultedBlockRefusesEveryWord : (issuing 0x00000000#32 faulted).busy = false ∧
    (issuing 0x00000000#32 faulted).fault = some .invalidPin ∧ configOk (issuing 0x00000000#32 faulted).base = true ∧
    (issuing 0x00000000#32 faulted).inputs = .command 0x00000000#32 none :: [.command 0x00000007#32 none] := by decide

/-- The invariant's clauses: a block between commands, a faulted one, one that has read and not yet written, and one in
each phase of the pull sequence. -/
theorem issuing_inv (w : Word) : MachineInv (issuing w State.reset) := 
  ⟨.inl ⟨rfl, rfl, rfl⟩, rfl, reset_mem_wf, rfl⟩
theorem faulted_inv : MachineInv (issuing 0x00000007#32 faulted) :=
  ⟨.inl ⟨rfl, rfl, rfl⟩, ⟨.setPin 54, 54, by decide, rfl, by decide⟩, by decide, rfl⟩
theorem refusing_inv : MachineInv { faulted with busy := true, pending := [.respond .faulted 0#32] } :=
  ⟨.inr (.inl ⟨rfl, by decide, rfl, rfl⟩), ⟨.setPin 54, 54, by decide, rfl, by decide⟩, by decide, rfl⟩
theorem cutPull_inv (n : Nat) (ph : Phase) (h : (ph = .pudWritten ∧ (n = 1 ∨ n = 2)) ∨
    (ph = .clockAsserted ∧ (n = 3 ∨ n = 4 ∨ n = 5))) : MachineInv (cutPull n ph) := by
  refine ⟨.inr (.inr (.inr ⟨rfl, rfl, 53, .pullUp, by decide, rfl, ?_⟩)), rfl, reset_mem_wf, rfl⟩
  rcases h with ⟨rfl, hn⟩ | ⟨rfl, hn⟩
  · exact .inl ⟨rfl, n, hn, rfl⟩
  · exact .inr ⟨rfl, n, hn, rfl⟩
theorem halfWritten_inv : MachineInv { State.reset with
    busy := true, cmd := 0x00010506#32, pending := [.write .fsel (5 / 10) 0x00008000#32 none, .respond .ok 0#32] } :=
  ⟨.inr (.inr (.inl ⟨rfl, rfl, rfl, .inr (.inr (.inr (.inl ⟨5, _, by decide, rfl⟩)))⟩)), rfl, by decide, rfl⟩

theorem witness_StepKeepsTheInvariant : MachineInv (cutPull 1 .pudWritten) ∧ MachineInv (cutPull 5 .clockAsserted) ∧
    (∃ t, step (cutPull 1 .pudWritten) = .next t) ∧ (∃ t, step (cutPull 5 .clockAsserted) = .next t) ∧
    ∃ t, step (issuing 0x00012F06#32 State.reset) = .next t :=
  ⟨cutPull_inv 1 _ (.inl ⟨rfl, .inl rfl⟩), cutPull_inv 5 _ (.inr ⟨rfl, .inr (.inr rfl)⟩), goes_on (by decide),
    goes_on (by decide), goes_on (by decide)⟩
/-- The last clause of MasterWriteBreaksTheSequence: the invariant, a good BASE, no other input. -/
theorem witness_MasterWriteToTheEnd : MachineInv (withInputs [.master (.write .pud 0 1#32)] (cutPull 1 .pudWritten)) ∧
    Reachable (cutPull 1 .pudWritten) ∧ configOk (cutPull 1 .pudWritten).base = true ∧
    MachineInv (cutPull 6 .idle) := ⟨cutPull_inv 1 _ (.inl ⟨rfl, .inl rfl⟩), rfl, by decide,
  .inr (.inr (.inl ⟨rfl, rfl, rfl, .inl ⟨_, rfl⟩⟩)), rfl, reset_mem_wf, rfl⟩
theorem witness_StepNeverFaults : MachineInv (cutPull 2 .pudWritten) := cutPull_inv 2 _ (.inl ⟨rfl, .inr rfl⟩)
theorem witness_EveryEventIsAllowed : MachineInv (issuing 0x00003507#32 State.reset) ∧
    ∃ t, step (issuing 0x00003507#32 State.reset) = .next t := ⟨issuing_inv _, goes_on (by decide)⟩
theorem witness_OnlyResetEndsAFault : MachineInv (issuing 0x00000007#32 faulted) ∧
    (issuing 0x00000007#32 faulted).fault = some .invalidPin ∧
    (∀ b rest, (issuing 0x00000007#32 faulted).inputs ≠ .reset b :: rest) ∧
    ∃ t, step (issuing 0x00000007#32 faulted) = .next t := 
  ⟨faulted_inv, rfl, by simp [issuing, withInputs], goes_on (by decide)⟩
theorem witness_TraceFollowsCommandAndAnswers : Ready (reading [0x00012345#32, 7#32]) ∧
    Ready { reading [0x00012345#32] with outl := 1#54, mapped := 0#32 } ∧
    (reading [0x00012345#32, 7#32]).answers = 0x00012345#32 :: [7#32] := by decide
/-- A good step and a bad one. -/
theorem witness_GoodResponsesMeanNoFault : MachineInv (issuing 0x00003507#32 State.reset) ∧
    MachineInv (issuing 0x00003607#32 State.reset) ∧ (issuing 0x00003607#32 State.reset).fault = none ∧
    traceOf (step (issuing 0x00003507#32 State.reset)) = [] ++ [.wr .set 1 0x00200000#32, .rsp .ok 0#32] ∧
    traceOf (step (issuing 0x00003607#32 State.reset)) = [] ++ [.rsp .invalidPin 0#32] :=
  ⟨issuing_inv _, issuing_inv _, rfl, by decide, by decide⟩
theorem witness_OnlyResetChangesBase : (∀ b rest, (issuing 0x00000007#32 State.reset).inputs ≠ .reset b :: rest) ∧
    ∃ t, step (issuing 0x00000007#32 State.reset) = .next t :=
  ⟨by simp [issuing, withInputs], goes_on (by decide)⟩

end Sys2Proof.Tests
end

/-! The scope family: a step is a turn of events begun where the invariant holds (00_scope R9), and the work of a pure
command is one answer (00_scope R7). -/

namespace Sys2Proof

/-! ### Words the decoder refuses -/

theorem pinOnly_ok {w : Word} (f : Octet → Instr) (h : argField w = 0#8) : ∃ i, pinOnly w f = .ok i :=
  ⟨_, if_pos h⟩

theorem patternOnly_ok {w : Word} (f : Octet → Instr) (h : pinField w = 0#8) : ∃ i, patternOnly w f = .ok i :=
  ⟨_, if_pos h⟩

theorem modeOfOrdinal_of_le {n : Nat} (h : n ≤ 7) : ∃ m, modeOfOrdinal n = some m := by
  obtain rfl | rfl | rfl | rfl | rfl | rfl | rfl | rfl : n = 0 ∨ n = 1 ∨ n = 2 ∨ n = 3 ∨ n = 4 ∨ n = 5 ∨ n = 6 ∨
      n = 7 := by omega
  all_goals exact ⟨_, rfl⟩

theorem stateOfOrdinal_of_le {n : Nat} (h : n ≤ 2) : ∃ st, stateOfOrdinal n = some st := by
  obtain rfl | rfl | rfl : n = 0 ∨ n = 1 ∨ n = 2 := by omega
  all_goals exact ⟨_, rfl⟩

theorem withMode_ok {w : Word} (f : FunctionMode → Instr) (h : (argField w).toNat ≤ 7) :
    ∃ i, withMode w f = .ok i := by
  obtain ⟨m, hm⟩ := modeOfOrdinal_of_le h
  exact ⟨f m, by rw [withMode, hm]⟩

theorem withState_ok {w : Word} (f : PullState → Instr) (h : (argField w).toNat ≤ 2) :
    ∃ i, withState w f = .ok i := by
  obtain ⟨st, hst⟩ := stateOfOrdinal_of_le h
  exact ⟨f st, by rw [withState, hst]⟩

/-- A word that meets R54 decodes (30_encoding R58): each opcode's row finds its unused fields 0 and its ordinal in range. -/
theorem decode_ok_of_wordOk {w : Word} (h : WellFormed.wordOk w = true) : ∃ i, decode w = .ok i := by
  obtain ⟨hrsv, hop, hpin, harg, hmode, hstate⟩ := (wordOk_iff w).mp h
  have byOp : decode w = decodeByOp w := if_pos hrsv
  rw [byOp, decodeByOp]
  generalize (opField w).toNat = op at hop hpin harg hmode hstate ⊢
  simp only [WellFormed.opcodes, List.mem_cons, List.not_mem_nil, or_false] at hop
  rcases hop with rfl | rfl | rfl | rfl | rfl | rfl | rfl | rfl | rfl | rfl | rfl | rfl | rfl
  · exact pinOnly_ok .resolveFsel (harg (by decide))
  · exact pinOnly_ok .resolveBit (harg (by decide))
  · exact pinOnly_ok .resolvePudclk (harg (by decide))
  · simpa only [hpin (by decide), if_true] using withMode_ok .encodeFunction (hmode (by decide))
  · exact patternOnly_ok .decodeFunction (hpin (by decide))
  · exact withMode_ok (.writeFunction (pinField w)) (hmode (by decide))
  · exact pinOnly_ok .setPin (harg (by decide))
  · exact pinOnly_ok .clearPin (harg (by decide))
  · exact pinOnly_ok .readLevel (harg (by decide))
  · exact withState_ok (.configurePull (pinField w)) (hstate (by decide))
  · simpa only [hpin (by decide), if_true] using withState_ok .encodePull (hstate (by decide))
  · exact patternOnly_ok .decodePull (hpin (by decide))
  · exact pinOnly_ok .readFunction (harg (by decide))

theorem wordOk_of_decode_error {w : Word} {e : DecodeError} (h : decode w = .error e) : WellFormed.wordOk w = false := by
  rw [← Bool.not_eq_true]
  intro hok
  obtain ⟨i, hi⟩ := decode_ok_of_wordOk hok
  rw [hi] at h
  cases h

end Sys2Proof

namespace Sys2Proof.Machine

open Sys2Proof.Safety

/-! ### The events of a turn -/

/-- From `s` to `t` the trace has grown by events the block may make, and by nothing else. -/
def AllowedSince (s t : State) : Prop := ∃ es, t.trace = s.trace ++ es ∧ ∀ e ∈ es, eventOk e

theorem allowedSince_of_trace_eq {s t : State} (h : t.trace = s.trace) : AllowedSince s t :=
  ⟨[], by simp [h], by simp⟩

theorem AllowedSince.trans {s t u : State} (hst : AllowedSince s t) (htu : AllowedSince t u) : AllowedSince s u := by
  obtain ⟨es, htrace, hes⟩ := hst
  obtain ⟨fs, hutrace, hfs⟩ := htu
  exact ⟨es ++ fs, by simp [hutrace, htrace], fun e he => (List.mem_append.mp he).elim (hes e) (hfs e)⟩

theorem EventDone.allowedSince {s t : State} (h : EventDone s t) : AllowedSince s t := by
  obtain ⟨-, e, htrace, hok, -⟩ := h
  exact ⟨[e], htrace, by simpa using hok⟩

/-- A turn in a state that meets the invariant never stops: it ends in one that does, with allowed events only. -/
theorem runEvents_allowed (n : Nat) (s : State) (hs : MachineInv s) :
    ∃ t, runEvents n s = .next t ∧ MachineInv t ∧ AllowedSince s t := by
  induction n generalizing s with
  | zero => exact ⟨s, rfl, hs, allowedSince_of_trace_eq rfl⟩
  | succ n ih =>
    cases hp : s.pending with
    | nil => exact ⟨s, runEvents_done _ s hp, hs, allowedSince_of_trace_eq rfl⟩
    | cons w ws =>
      obtain ⟨u, hu, hdone⟩ := perform_done s hs w ws hp
      obtain ⟨t, ht, hinv, hallowed⟩ := ih u hdone.1
      exact ⟨t, (runEvents_step n s u w ws hp hu).trans ht, hinv, hdone.allowedSince.trans hallowed⟩

/-- A turn is a number of events, begun with some turn set. -/
theorem takeTurn_eq_runEvents (s : State) : ∃ n k, takeTurn s = runEvents n (setTurn k s) := by
  unfold takeTurn
  split
  · exact ⟨_, s.turn, rfl⟩
  · next n _ => exact ⟨n, none, rfl⟩

/-! ### What keeps the invariant between events -/

theorem phase_idle_of_blockInv {s : State} (h : BlockInv s) (hb : s.busy = false) : s.phase = .idle := by
  rcases h with ⟨-, hph, -⟩ | ⟨hbusy, -⟩ | ⟨hbusy, -⟩ | ⟨hbusy, -⟩
  · exact hph
  all_goals simp [hb] at hbusy

/-- What an idle block runs when a word arrives: the word's work, or the refusal while a fault stands (30_encoding R57,
60_exceptions R148). -/
theorem issueWord_idle (w : Word) (ws : List Work) (s : State) (hb : s.busy = false) :
    issueWord w ws s =
      takeTurn (setPending (if s.fault = none then ws else [.respond .faulted 0#32]) (accept w s)) := by
  cases hf : s.fault <;> simp [issueWord, hb, hf]

theorem machineInv_accepted {s : State} {w : Word} {ws : List Work} (hs : MachineInv s) (hb : s.busy = false)
    (hws : FreshWork w ws) :
    MachineInv (setPending (if s.fault = none then ws else [.respond .faulted 0#32]) (accept w s)) := by
  have hph : s.phase = .idle := phase_idle_of_blockInv hs.1 hb
  split
  · next hf => exact ⟨.inr (.inr (.inl ⟨rfl, hf, hph, hws⟩)), hs.2⟩
  · next hf => exact ⟨.inr (.inl ⟨rfl, hf, hph, rfl⟩), hs.2⟩

theorem masterAct_wf (a : MasterAccess) (s : State) (h : Memory.wf s.mem) : Memory.wf (masterAct a s).mem := by
  cases a with
  | read f b => exact h
  | write f b v =>
    simp only [masterAct]
    split
    · simpa using ctrlWrite_wf f b v s h
    · exact h
  | settle => exact h

@[simp] theorem sequenceBroken_pins_length (f : Family) (b : Nat) (v : Word) (s : State) :
    (sequenceBroken f b v s).pins.length = s.pins.length := by
  unfold sequenceBroken
  split <;> simp

@[simp] theorem masterAct_pins_length (a : MasterAccess) (s : State) :
    (masterAct a s).pins.length = s.pins.length := by
  cases a with
  | read f b => rfl
  | write f b v =>
    simp only [masterAct]
    split <;> simp
  | settle => simp [masterAct, settlePasses]

/-- Another master touches nothing of the block itself (70_reset R170). -/
theorem machineInv_masterAct (a : MasterAccess) {s : State} (hs : MachineInv s) : MachineInv (masterAct a s) := by
  obtain ⟨hblock, hfault, hmem, hpins⟩ := hs
  refine ⟨?_, ?_, masterAct_wf a s hmem, by simpa using hpins⟩
  · simpa [BlockInv] using hblock
  · simpa [FaultInv] using hfault

@[simp] theorem sequenceCut_pins_length (s : State) : (sequenceCut s).pins.length = s.pins.length := by
  by_cases h : s.phase = .idle
  · simp [h]
  · simp [sequenceCut_eq s h]

/-- Reset leaves an idle block with no fault, wherever it came (70_reset R160). -/
theorem machineInv_hostReset (base : Word) {s : State} (hs : MachineInv s) : MachineInv (hostReset base s) := by
  obtain ⟨-, -, hmem, hpins⟩ := hs
  exact ⟨.inl ⟨rfl, rfl, rfl⟩, rfl, by simpa [hostReset] using hmem, by simpa [hostReset] using hpins⟩

/-! ### What a step can do -/

/-- A step of `s` begins its events in `u`: the invariant holds, nothing is logged yet, and FAULT and FINFO stand as they
were, unless the input is a reset, which leaves no fault (60_exceptions R148). -/
structure BeginsTurn (s u : State) : Prop where
  inv : MachineInv u
  trace : u.trace = s.trace
  faultRecord : (u.fault = s.fault ∧ u.finfo = s.finfo) ∨
    (u.fault = none ∧ ∃ base rest, s.inputs = .reset base :: rest)

/-- What a step of `s` can come to: the refusal of its configuration (20_memory R32), or a number of events, none if the
block only waits. -/
def TurnOf (s : State) (o : Host.Outcome State Fault Refusal) : Prop :=
  o = .refused .badConfiguration ∨ ∃ n u, o = runEvents n u ∧ BeginsTurn s u

/-- A turn with no events. -/
theorem turnOf_next {s u : State} (hu : BeginsTurn s u) : TurnOf s (.next u) := .inr ⟨0, u, rfl, hu⟩

theorem takeTurn_turnOf {s u : State} (hu : BeginsTurn s u) : TurnOf s (takeTurn u) := by
  obtain ⟨n, k, h⟩ := takeTurn_eq_runEvents u
  exact .inr ⟨n, setTurn k u, h, hu.inv, hu.trace, hu.faultRecord⟩

theorem advance_turnOf {s u : State} (k : Option Nat) (hu : BeginsTurn s u) : TurnOf s (advance k u) := by
  unfold advance
  split
  · split
    · exact takeTurn_turnOf ⟨hu.inv, hu.trace, hu.faultRecord⟩
    · exact .inl rfl
  · exact turnOf_next hu

theorem issueWord_turnOf {s u : State} {w : Word} {ws : List Work} (hws : FreshWork w ws) (hu : BeginsTurn s u) :
    TurnOf s (issueWord w ws u) := by
  cases hb : u.busy with
  | true =>
    rw [issueWord_busy w ws u hb]
    exact turnOf_next hu
  | false =>
    rw [issueWord_idle w ws u hb]
    exact takeTurn_turnOf ⟨machineInv_accepted hu.inv hb hws, hu.trace, hu.faultRecord⟩

theorem takeCommand_turnOf {s u : State} (w : Word) (hu : BeginsTurn s u) : TurnOf s (takeCommand w u) := by
  unfold takeCommand
  split
  · split
    · next i _ =>
      obtain ⟨ws, hws, hexec⟩ := exec_issues i
      rw [hexec]
      exact issueWord_turnOf hws hu
    · next e he => exact issueWord_turnOf (.inr (.inl ⟨_, rfl, wordOk_of_decode_error he⟩)) hu
  · exact .inl rfl

/-- Every step from a state that meets the invariant, by the next input. -/
theorem step_turnOf (s : State) (hs : MachineInv s) : TurnOf s (step s) := by
  cases h : s.inputs with
  | nil =>
    rw [step_no_input s h]
    exact advance_turnOf none ⟨hs, rfl, .inl ⟨rfl, rfl⟩⟩
  | cons i rest =>
    have taken : BeginsTurn s (setInputs rest s) := ⟨hs, rfl, .inl ⟨rfl, rfl⟩⟩
    cases i with
    | command w events =>
      rw [step_command s w events rest h]
      split
      · exact advance_turnOf none ⟨hs, rfl, .inl ⟨rfl, rfl⟩⟩
      · exact takeCommand_turnOf w ⟨taken.inv, taken.trace, taken.faultRecord⟩
    | resume events =>
      rw [step_resume s events rest h]
      exact advance_turnOf events taken
    | reset base =>
      rw [step_reset s base rest h]
      exact turnOf_next ⟨machineInv_hostReset base taken.inv, by simp [hostReset], .inr ⟨rfl, base, rest, h⟩⟩
    | master a =>
      rw [step_master s a rest h]
      exact turnOf_next ⟨machineInv_masterAct a taken.inv, by simp, .inl (by simp)⟩

/-- A step is refused, or goes on with the invariant kept and allowed events only. -/
theorem step_allowed (s : State) (hs : MachineInv s) :
    step s = .refused .badConfiguration ∨ ∃ t, step s = .next t ∧ MachineInv t ∧ AllowedSince s t := by
  refine (step_turnOf s hs).imp_right ?_
  rintro ⟨n, u, hstep, hu⟩
  obtain ⟨t, hrun, ht, hallowed⟩ := runEvents_allowed n u hu.inv
  exact ⟨t, hstep.trans hrun, ht, (allowedSince_of_trace_eq hu.trace).trans hallowed⟩

/-- Settles O53: a step is a turn of the block, and every event of a turn is one `perform_done` allows. -/
theorem everyEventIsAllowed : Obligations.EveryEventIsAllowed := by
  intro s t hs hstep
  obtain hrefused | ⟨u, hnext, -, hallowed⟩ := step_allowed s hs
  · cases hstep.symm.trans hrefused
  · cases hstep.symm.trans hnext
    exact hallowed

end Sys2Proof.Machine

namespace Sys2Proof.Machine

open Sys2Proof.Safety

/-! ### The pure commands (00_scope R7) -/

/-- Work that only answers the command: the response, or the fault's. -/
def IsAnswer (w : Work) : Prop := (∃ st r, w = .respond st r) ∨ ∃ k, w = .raise k

/-- From `s` to `t` the block has only answered: no register, output, pull, input or answer of the environment has
changed, and only responses have been logged. -/
def OnlyAnswered (s t : State) : Prop :=
  FixedKept s t ∧ RegistersKept s t ∧ AnswersKept s t ∧
    ∃ es, t.trace = s.trace ++ es ∧ ∀ e ∈ es, ∃ st r, e = .rsp st r

theorem OnlyAnswered.refl (s : State) : OnlyAnswered s s := by
  simp [OnlyAnswered, FixedKept, RegistersKept, AnswersKept]

theorem OnlyAnswered.trans {s t u : State} (hst : OnlyAnswered s t) (htu : OnlyAnswered t u) : OnlyAnswered s u := by
  obtain ⟨⟨b1, m1, p1, i1⟩, ⟨r1, o1, l1, d1⟩, ⟨a1, y1, f1⟩, es, e1, h1⟩ := hst
  obtain ⟨⟨b2, m2, p2, i2⟩, ⟨r2, o2, l2, d2⟩, ⟨a2, y2, f2⟩, fs, e2, h2⟩ := htu
  refine ⟨⟨b2.trans b1, m2.trans m1, p2.trans p1, i2.trans i1⟩,
    ⟨fun a => (r2 a).trans (r1 a), o2.trans o1, l2.trans l1, d2.trans d1⟩, ⟨a2.trans a1, y2.trans y1, f2.trans f1⟩,
    es ++ fs, by simp [e2, e1], fun e he => (List.mem_append.mp he).elim (h1 e) (h2 e)⟩

theorem perform_answer {w : Work} {ws : List Work} {s t : State} (hw : IsAnswer w)
    (h : perform w (setPending ws s) = .next t) : OnlyAnswered s t ∧ t.pending = ws := by
  rcases hw with ⟨st, r, rfl⟩ | ⟨k, rfl⟩ <;> cases h <;>
    simp [OnlyAnswered, FixedKept, RegistersKept, AnswersKept]

/-- A turn of answers, however many of them are given. -/
theorem runEvents_onlyAnswered {n : Nat} {s t : State} (hs : ∀ w ∈ s.pending, IsAnswer w)
    (h : runEvents n s = .next t) : OnlyAnswered s t := by
  refine (runEvents_keeps (fun u => OnlyAnswered s u ∧ ∀ w ∈ u.pending, IsAnswer w) ?_ n s t
    ⟨.refl s, hs⟩ h).1
  rintro u v w ws ⟨hsu, hwork⟩ hp hperform
  rw [hp] at hwork
  obtain ⟨huv, hv⟩ := perform_answer (hwork w (by simp)) hperform
  exact ⟨hsu.trans huv, fun x hx => hwork x (by simp [hv ▸ hx])⟩

/-- A word whose work is one answer, issued to a block that is not busy: it is answered or refused, and nothing else. -/
theorem issueWord_onlyAnswered {w : Word} {x : Work} {s t : State} (hx : IsAnswer x) (hb : s.busy = false)
    (h : issueWord w [x] s = .next t) : OnlyAnswered s t := by
  rw [issueWord_idle w [x] s hb] at h
  generalize hws : (if s.fault = none then [x] else [.respond .faulted 0#32]) = ws at h
  have hwork : ∀ y ∈ ws, IsAnswer y := by
    subst hws
    split
    · exact List.forall_mem_singleton.mpr hx
    · exact List.forall_mem_singleton.mpr (.inl ⟨_, _, rfl⟩)
  obtain ⟨n, k, hturn⟩ := takeTurn_eq_runEvents (setPending ws (accept w s))
  have answered : OnlyAnswered (setTurn k (setPending ws (accept w s))) t :=
    runEvents_onlyAnswered hwork (hturn.symm.trans h)
  exact answered

/-- The response of a ready block is made by the answer alone. -/
theorem issueWord_answer_response {w : Word} {x : Work} (hx : IsAnswer x) :
    ∃ r, ∀ s t, Ready s → issueWord w [x] s = .next t → t.response = some r := by
  rcases hx with ⟨st, r, rfl⟩ | ⟨k, rfl⟩
  · refine ⟨⟨st, r⟩, fun s t ⟨hb, hf, ht⟩ h => ?_⟩
    cases (issueWord_responds w st r s hb hf ht).symm.trans h
    simp
  · refine ⟨⟨faultStatus k, 0#32⟩, fun s t ⟨hb, hf, ht⟩ h => ?_⟩
    cases (issueWord_raises w k s hb hf ht).symm.trans h
    simp

theorem atLocation_answer (r : Except FaultKind Location) :
    ∃ x, IsAnswer x ∧ atLocation r (fun l => [.respond .ok (locationWord l)]) = [x] := by
  cases r with
  | ok l => exact ⟨_, .inl ⟨_, _, rfl⟩, rfl⟩
  | error k => exact ⟨_, .inr ⟨k, rfl⟩, rfl⟩

theorem answerMode_isAnswer (r : Except FaultKind FunctionMode) : IsAnswer (answerMode r) := by
  cases r with
  | ok m => exact .inl ⟨_, _, rfl⟩
  | error k => exact .inr ⟨k, rfl⟩

theorem answerPull_isAnswer (r : Except FaultKind PullState) : IsAnswer (answerPull r) := by
  cases r with
  | ok st => exact .inl ⟨_, _, rfl⟩
  | error k => exact .inr ⟨k, rfl⟩

/-- The work of a pure command is one answer, made of its operands. -/
theorem exec_pure {i : Instr} (h : isPure i = true) :
    ∃ x, IsAnswer x ∧ ∀ s, exec i s = issueWord (encode i) [x] s := by
  have located : ∀ r, (∀ s, exec i s = issueWord (encode i) (atLocation r fun l => [.respond .ok (locationWord l)]) s) →
      ∃ x, IsAnswer x ∧ ∀ s, exec i s = issueWord (encode i) [x] s := by
    intro r hexec
    obtain ⟨x, hx, hwork⟩ := atLocation_answer r
    exact ⟨x, hx, fun s => hwork ▸ hexec s⟩
  cases i with
  | resolveFsel pin => exact located (resolveFunctionSelect pin) fun _ => rfl
  | resolveBit pin => exact located (resolveBitRegister pin) fun _ => rfl
  | resolvePudclk pin => exact located (resolvePudclk pin) fun _ => rfl
  | encodeFunction m => exact ⟨_, .inl ⟨_, _, rfl⟩, fun _ => rfl⟩
  | decodeFunction p => exact ⟨_, answerMode_isAnswer _, fun _ => rfl⟩
  | encodePull st => exact ⟨_, .inl ⟨_, _, rfl⟩, fun _ => rfl⟩
  | decodePull p => exact ⟨_, answerPull_isAnswer _, fun _ => rfl⟩
  | writeFunction | setPin | clearPin | readLevel | configurePull | readFunction => cases h

/-- Settles O30: a pure command's work is one answer made of its operands, and an answer touches nothing. -/
theorem pureCommandsTouchNothing : Obligations.PureCommandsTouchNothing := by
  intro i hi
  obtain ⟨x, hx, hexec⟩ := exec_pure hi
  constructor
  · intro s t hb h
    exact issueWord_onlyAnswered hx hb ((hexec s).symm.trans h)
  · intro s s' t t' hs hs' h h'
    obtain ⟨r, hr⟩ := issueWord_answer_response (w := encode i) hx
    rw [hr s t hs ((hexec s).symm.trans h), hr s' t' hs' ((hexec s').symm.trans h')]

end Sys2Proof.Machine

/-! The state family: which part of the state a turn, a command and a step leave alone (10_state R12, R15), and the
machine's invariant at reset and across a step (10_state R13, R14, R24). -/

namespace Sys2Proof.Machine

open Sys2Proof.Safety

/-! ### What a turn and a command leave alone -/

theorem takeTurn_fixedKept {s t : State} (h : takeTurn s = .next t) : FixedKept s t := by
  obtain ⟨n, k, hturn⟩ := takeTurn_eq_runEvents s
  obtain ⟨hbase, -, hmapped, hpinsIn, hinputs, -⟩ := runEvents_frame n _ t (hturn.symm.trans h)
  exact ⟨hbase, hmapped, hpinsIn, hinputs⟩

theorem advance_fixedKept {events : Option Nat} {s t : State} (h : advance events s = .next t) : FixedKept s t := by
  unfold advance at h
  split at h
  · split at h
    · have kept := takeTurn_fixedKept h
      exact kept
    · cases h
  · cases h
    exact ⟨rfl, rfl, rfl, rfl⟩

theorem issueWord_fixedKept {w : Word} {ws : List Work} {s t : State} (h : issueWord w ws s = .next t) :
    FixedKept s t := by
  cases hb : s.busy with
  | true =>
    cases (issueWord_busy w ws s hb).symm.trans h
    exact ⟨rfl, rfl, rfl, rfl⟩
  | false =>
    rw [issueWord_idle w ws s hb] at h
    have kept := takeTurn_fixedKept h
    exact kept

theorem exec_fixedKept {i : Instr} {s t : State} (h : exec i s = .next t) : FixedKept s t := by
  obtain ⟨ws, -, hexec⟩ := exec_issues i
  exact issueWord_fixedKept ((hexec s).symm.trans h)

theorem takeCommand_fixedKept {w : Word} {s t : State} (h : takeCommand w s = .next t) : FixedKept s t := by
  unfold takeCommand at h
  split at h
  · split at h
    · exact exec_fixedKept h
    · exact issueWord_fixedKept h
  · cases h

/-- A busy block accepts no command, whichever it is (10_state R15). -/
theorem exec_busy (i : Instr) {s : State} (hb : s.busy = true) : exec i s = .next s := by
  obtain ⟨ws, -, hexec⟩ := exec_issues i
  exact (hexec s).trans (issueWord_busy (encode i) ws s hb)

/-- While the block is busy, a word at the port leaves the step to the command in progress (30_encoding R57). -/
theorem step_command_busy {s : State} {w : Word} {events : Option Nat} {rest : List Input}
    (hin : s.inputs = .command w events :: rest) (hb : s.busy = true) : step s = advance none s :=
  (step_command s w events rest hin).trans (if_pos hb)

theorem step_command_idle {s : State} {w : Word} {events : Option Nat} {rest : List Input}
    (hin : s.inputs = .command w events :: rest) (hb : s.busy = false) :
    step s = takeCommand w (setTurn events (setInputs rest s)) :=
  (step_command s w events rest hin).trans (if_neg (by simp [hb]))

/-! ### The obligations -/

/-- Settles O51: a step from a state that meets the invariant begins its events in one that meets it, and every event
keeps it. -/
theorem stepKeepsTheInvariant : Obligations.StepKeepsTheInvariant := by
  intro s t hs hstep
  obtain hrefused | ⟨u, hnext, hinv, -⟩ := step_allowed s hs
  · cases hstep.symm.trans hrefused
  · cases hstep.symm.trans hnext
    exact hinv

/-- Settles O9: the step goes to the command in progress, whose events take no input. -/
theorem busyBlockAcceptsNoCommand : Obligations.BusyBlockAcceptsNoCommand := by
  refine ⟨fun i s hb => exec_busy i hb, fun s t w events rest hb hin hstep => ?_⟩
  obtain ⟨-, -, -, hinputs⟩ := advance_fixedKept ((step_command_busy hin hb).symm.trans hstep)
  exact hinputs

/-- Settles O56, by the next input: a turn, a command and another master's access each leave BASE alone. -/
theorem onlyResetChangesBase : Obligations.OnlyResetChangesBase := by
  intro s t hreset hstep
  cases hin : s.inputs with
  | nil => exact (advance_fixedKept ((step_no_input s hin).symm.trans hstep)).1
  | cons i rest =>
    cases i with
    | command w events =>
      cases hb : s.busy with
      | true => exact (advance_fixedKept ((step_command_busy hin hb).symm.trans hstep)).1
      | false => exact (takeCommand_fixedKept ((step_command_idle hin hb).symm.trans hstep)).1
    | resume events => exact (advance_fixedKept ((step_resume s events rest hin).symm.trans hstep)).1
    | reset base => exact absurd hin (hreset base rest)
    | master a =>
      cases (step_master s a rest hin).symm.trans hstep
      exact masterAct_base a (setInputs rest s)

theorem machineInv_reset : MachineInv State.reset :=
  ⟨.inl ⟨rfl, rfl, rfl⟩, rfl, reset_mem_wf, List.length_replicate⟩

theorem ready_reset : Ready State.reset := ⟨rfl, rfl, rfl⟩

/-- Settles O5: reset leaves an idle block with no fault, and the default BASE passes R32's check. -/
theorem resetStateMeetsTheInvariant : Obligations.ResetStateMeetsTheInvariant :=
  ⟨machineInv_reset, ready_reset, by decide⟩

end Sys2Proof.Machine

/-! The memory family: the check of a configuration and the bytes of the registers (20_memory R31, R32, R33), what
READ_LEVEL shows (R45), that no access fails (R47), and that a command's events follow from the command and the word it
reads (R44). -/

namespace Sys2Proof.Machine

open Sys2Proof.Safety

/-! ### The configuration (20_memory R32) -/

theorem family_end_le (f : Family) : offset f + 4 * nbanks f ≤ 0xA0 := by
  cases f <;> decide

theorem baseOk_iff (base : Word) : baseOk base = true ↔ base.toNat % 4 = 0 ∧
    ∀ f, base.toNat + offset f + 4 * nbanks f ≤ 2 ^ 32 := by
  simp [baseOk, mem_families]

/-- PUDCLK is the family that ends last, so its end decides for all. -/
theorem baseOk_iff_block (base : Word) : baseOk base = true ↔
    base.toNat % 4 = 0 ∧ base.toNat + 0xA0 ≤ 2 ^ 32 := by
  rw [baseOk_iff]
  refine and_congr_right fun _ => ⟨fun h => h .pudclk, fun h f => ?_⟩
  have := family_end_le f
  omega

theorem configOk_eq_baseOk (base : Word) : configOk base = baseOk base := by
  simp [configOk, tableOk_default]

/-- Settles O12: the table passes its own check, and PUDCLK's end decides for every family. -/
theorem configurationCheckMeansAlignedAndNoWrap : Obligations.ConfigurationCheckMeansAlignedAndNoWrap := by
  intro base
  rw [configOk_eq_baseOk]
  exact baseOk_iff_block base

theorem advance_badConfiguration (events : Option Nat) {s : State} (hc : configOk s.base = false)
    (hb : s.busy = true) : advance events s = .refused .badConfiguration := by
  simp [advance, hb, hc]

theorem takeCommand_badConfiguration (w : Word) {s : State} (hc : configOk s.base = false) :
    takeCommand w s = .refused .badConfiguration := by
  simp [takeCommand, hc]

/-- Settles O11: acceptance and the command in progress both look at the configuration before anything else. -/
theorem badConfigurationIsRefused : Obligations.BadConfigurationIsRefused := by
  intro s rest hc
  refine ⟨fun w events hin => ?_, fun events hin hb => ?_, fun hin hb => ?_⟩
  · cases hb : s.busy with
    | true => exact (step_command_busy hin hb).trans (advance_badConfiguration none hc hb)
    | false => exact (step_command_idle hin hb).trans (takeCommand_badConfiguration w hc)
  · exact (step_resume s events rest hin).trans (advance_badConfiguration events hc hb)
  · exact (step_no_input s hin).trans (advance_badConfiguration none hc hb)

/-! ### The registers' bytes (20_memory R31, R33) -/

/-- Settles O13: distinct registers lie apart, and the four bytes of one register are distinct. -/
theorem registersShareNoByte : Obligations.RegistersShareNoByte := by
  intro base f g b c j k hb hc hj hk hkey
  have hreg : (f, b) = (g, c) := Decidable.byContradiction fun hne =>
    keys_apart base f g b c j k hb hc hne hj hk hkey
  cases hreg
  exact ⟨rfl, rfl, (key_injective _ j k hj hk).mp hkey⟩

/-! ### No access fails (20_memory R31, R47) -/

/-- Settles O52: a step from a state that meets the invariant is refused or goes on. -/
theorem stepNeverFaults : Obligations.StepNeverFaults := by
  intro s r hs hfault
  obtain hrefused | ⟨t, hnext, -, -⟩ := step_allowed s hs
  · cases hfault.symm.trans hrefused
  · cases hfault.symm.trans hnext

/-! ### READ_LEVEL over ENV-REF (20_memory R45) -/

/-- A read neither looks at nor changes what is left to do. -/
theorem regRead_setPending (f : Family) (b : Nat) (ws : List Work) (s : State) :
    regRead f b (setPending ws s) = setPending ws (regRead f b s) := by
  rw [regRead, answer_setPending]
  rfl

theorem exec_readLevel_eq_issueWord {pin : Octet} (s : State) (hp : pin.toNat ≤ 53) :
    exec (.readLevel pin) s =
      issueWord (encode (.readLevel pin)) [.readBit (pin.toNat / 32) (pin.toNat % 32)] s := by
  rw [exec, execReadLevel, resolveBitRegister_valid pin hp]
  rfl

/-- Work that is one read of LEV, issued to a ready block: the read, then the bit (42_register_ops R105). -/
theorem issueWord_readBit {s : State} {b : Nat} (w : Word) (shift : Nat) (hs : Ready s) (hbank : b < nbanks .lev) :
    issueWord w [.readBit b shift] s =
      .next (respond .ok (levelBit (answer .lev b s) shift) (setPending [] (regRead .lev b (accept w s)))) := by
  obtain ⟨hb, hf, ht⟩ := hs
  have hread : perform (.readBit b shift) (setPending [] (setPending [.readBit b shift] (accept w s))) =
      .next (setPending [.respond .ok (levelBit (answer .lev b s) shift)] (regRead .lev b (accept w s))) := by
    simp [perform, hbank, goOn, regRead_setPending]
  rw [issueWord_ready _ _ s hb hf ht]
  exact runEvents_step 1 _ _ _ [] rfl hread

/-- A pin's bit in the LEV word that ENV-REF answers. -/
theorem ctrlRead_lev_getLsbD (s : State) (p : Nat) :
    (ctrlRead .lev (p / 32) s).getLsbD (p % 32) = pinLevel s p := by
  have hbit : p % 32 < 32 := Nat.mod_lt _ (by omega)
  rw [ctrlRead, bitsOf_getLsbD, Nat.div_add_mod, decide_eq_true hbit, Bool.true_and]

theorem pinLevel_valid (s : State) {p : Nat} (hp : p ≤ 53) :
    pinLevel s p = if pinField3 p s = 0b001#3 then s.outl.getLsbD p else s.pinsIn.getLsbD p :=
  if_neg (by omega)

/-- Settles O37: the word read is ENV-REF's, whose bit for the pin is the pin's level. -/
theorem readLevelShowsThePin : Obligations.ReadLevelShowsThePin := by
  intro s pin hs hreach ha hp
  have hbank : pin.toNat / 32 < nbanks .lev := two_banks .lev _ hp rfl
  refine ⟨_, (exec_readLevel_eq_issueWord s hp).trans (issueWord_readBit _ _ hs hbank), ?_⟩
  rw [respond_response, answer_reachable .lev _ s hbank hreach ha, levelBit_eq _ _ (Nat.mod_lt _ (by omega)),
    ctrlRead_lev_getLsbD, pinLevel_valid s hp]
  split <;> rfl

/-! ### The events follow from the command and the answer (20_memory R44) -/

/-- Work that reads a register. -/
def Work.reads : Work → Bool
  | .readModify _ _ _ | .readField _ _ | .readBit _ _ => true
  | .write _ _ _ _ | .delay | .respond _ _ | .raise _ => false

/-- The access the work makes, if any, names a bank of its family (20_memory R31). -/
def Work.InBlock : Work → Prop
  | .readModify b _ _ | .readField b _ => b < nbanks .fsel
  | .readBit b _ => b < nbanks .lev
  | .write f b _ _ => b < nbanks f
  | .delay | .respond _ _ | .raise _ => True

/-- Work inside the register block that no answer of the environment bears on. -/
def Work.Blind (w : Work) : Prop := w.InBlock ∧ w.reads = false

/-- The event of the work, where a read is answered `v`. -/
def Work.event (v : Word) : Work → Event
  | .readModify b _ _ | .readField b _ => .rd .fsel b v
  | .readBit b _ => .rd .lev b v
  | .write f b x _ => .wr f b x
  | .delay => .dly .settle
  | .respond st r => .rsp st r
  | .raise k => .rsp (faultStatus k) 0#32

/-- What the work leaves to do, where a read is answered `v`. -/
def Work.left (v : Word) : Work → List Work
  | .readModify b shift pattern => [.write .fsel b (insertField v shift pattern) none, .respond .ok 0#32]
  | .readField _ shift => [answerMode (decodeFunction (fieldAt v shift).toNat)]
  | .readBit _ shift => [.respond .ok (levelBit v shift)]
  | .write _ _ _ _ | .delay | .respond _ _ | .raise _ => []

theorem Work.left_of_blind {w : Work} (h : w.Blind) (v : Word) : w.left v = [] := by
  obtain ⟨-, hreads⟩ := h
  cases w with
  | readModify | readField | readBit => cases hreads
  | write | delay | respond | raise => rfl

theorem answerMode_blind (r : Except FaultKind FunctionMode) : (answerMode r).Blind := by
  cases r <;> exact ⟨trivial, rfl⟩

/-- After its read a command reads no more. -/
theorem Work.left_blind {w : Work} (hw : w.InBlock) (v : Word) : ∀ x ∈ w.left v, x.Blind := by
  cases w with
  | readModify b shift pattern =>
    exact List.forall_mem_cons.mpr ⟨⟨hw, rfl⟩, List.forall_mem_singleton.mpr ⟨trivial, rfl⟩⟩
  | readField b shift => exact List.forall_mem_singleton.mpr (answerMode_blind _)
  | readBit b shift => exact List.forall_mem_singleton.mpr ⟨trivial, rfl⟩
  | write | delay | respond | raise => exact List.forall_mem_nil _

/-- The response port after one event more: only a response changes it (30_encoding R56). -/
def responseAfter (o : Option Response) : Event → Option Response
  | .rsp st r => some ⟨st, r⟩
  | .rd _ _ _ | .wr _ _ _ | .dly _ => o

/-- From `s` to `t` these events have been logged, and the response port holds the last response among them. -/
def Logged (s t : State) (es : List Event) : Prop :=
  t.trace = s.trace ++ es ∧ t.response = es.foldl responseAfter s.response

theorem Logged.nil (s : State) : Logged s s [] := ⟨by simp, rfl⟩

theorem Logged.cons {s t u : State} {e : Event} {es : List Event} (hst : Logged s t [e]) (htu : Logged t u es) :
    Logged s u (e :: es) := by
  obtain ⟨htrace, hresponse⟩ := hst
  obtain ⟨hutrace, huresponse⟩ := htu
  exact ⟨by simp [hutrace, htrace], by rw [huresponse, hresponse]; rfl⟩

theorem answer_of_head {s : State} {v : Word} (h : s.answers.head? = some v) (f : Family) (b : Nat) :
    answer f b s = v := by
  obtain ⟨rest, hanswers⟩ := List.head?_eq_some_iff.mp h
  simp [answer, hanswers]

theorem read_logged {s : State} {v : Word} (hv : s.answers.head? = some v) (f : Family) (b : Nat) (ws : List Work) :
    Logged s (goOn ws (regRead f b s)) [.rd f b v] := by
  simp [Logged, responseAfter, answer_of_head hv]

/-- One event, said by the work and the answer alone. -/
theorem perform_logged {w : Work} {s : State} {v : Word} (hw : w.InBlock)
    (hv : w.reads = true → s.answers.head? = some v) :
    ∃ t, perform w s = .next t ∧ t.pending = w.left v ++ s.pending ∧ Logged s t [w.event v] := by
  cases w with
  | readModify b shift pattern =>
    exact ⟨_, if_pos hw, by simp [Work.left, answer_of_head (hv rfl)], read_logged (hv rfl) _ _ _⟩
  | readField b shift =>
    exact ⟨_, if_pos hw, by simp [Work.left, answer_of_head (hv rfl)], read_logged (hv rfl) _ _ _⟩
  | readBit b shift =>
    exact ⟨_, if_pos hw, by simp [Work.left, answer_of_head (hv rfl)], read_logged (hv rfl) _ _ _⟩
  | write f b x after =>
    exact ⟨_, if_pos hw, by simp [Work.left], by simp [Logged, Work.event, responseAfter]⟩
  | delay => exact ⟨_, rfl, by simp [Work.left], by simp [Logged, Work.event, responseAfter]⟩
  | respond st r => exact ⟨_, rfl, rfl, rfl, rfl⟩
  | raise k => exact ⟨_, rfl, rfl, rfl, rfl⟩

/-- Events that read nothing are the same in every state. -/
theorem runEvents_blind (n : Nat) (ws : List Work) (hws : ∀ w ∈ ws, w.Blind) :
    ∃ es, ∀ s, s.pending = ws → ∃ t, runEvents n s = .next t ∧ Logged s t es := by
  induction n generalizing ws with
  | zero => exact ⟨[], fun s _ => ⟨s, rfl, .nil s⟩⟩
  | succ n ih =>
    cases ws with
    | nil => exact ⟨[], fun s hp => ⟨s, runEvents_done _ s hp, .nil s⟩⟩
    | cons w ws =>
      obtain ⟨hw, hrest⟩ := List.forall_mem_cons.mp hws
      obtain ⟨es, hes⟩ := ih ws hrest
      refine ⟨w.event 0#32 :: es, fun s hp => ?_⟩
      obtain ⟨u, hu, hpending, hlogged⟩ :=
        perform_logged (s := setPending ws s) (v := 0#32) hw.1 (by simp [hw.2])
      obtain ⟨t, ht, hafter⟩ := hes u (by simpa [Work.left_of_blind hw] using hpending)
      exact ⟨t, (runEvents_step n s u w ws hp hu).trans ht, hlogged.cons hafter⟩

/-- Where only the first event may read, the events follow from the work and the next answer. -/
theorem runEvents_follows (n : Nat) {w : Work} {ws : List Work} (hw : w.InBlock) (hws : ∀ x ∈ ws, x.Blind)
    (v : Word) :
    ∃ es, ∀ s, s.pending = w :: ws → s.answers.head? = some v →
      ∃ t, runEvents (n + 1) s = .next t ∧ Logged s t es := by
  obtain ⟨es, hes⟩ := runEvents_blind n (w.left v ++ ws) fun x hx =>
    (List.mem_append.mp hx).elim (Work.left_blind hw v x) (hws x)
  refine ⟨w.event v :: es, fun s hp hv => ?_⟩
  obtain ⟨u, hu, hpending, hlogged⟩ := perform_logged (s := setPending ws s) hw fun _ => hv
  obtain ⟨t, ht, hafter⟩ := hes u hpending
  exact ⟨t, (runEvents_step n s u w ws hp hu).trans ht, hlogged.cons hafter⟩

theorem pullSequence_blind (st : PullState) {p : Nat} (hp : p ≤ 53) : ∀ x ∈ pullSequence st (pinBit p), x.Blind := by
  have hbank : p / 32 < nbanks .pudclk := two_banks .pudclk p hp rfl
  have hpud : 0 < nbanks .pud := by decide
  simp only [pullSequence, pinBit, List.forall_mem_cons]
  exact ⟨⟨hpud, rfl⟩, ⟨trivial, rfl⟩, ⟨hbank, rfl⟩, ⟨trivial, rfl⟩, ⟨hpud, rfl⟩, ⟨hbank, rfl⟩, ⟨trivial, rfl⟩,
    List.forall_mem_nil _⟩

/-- No command reads twice, and every access it makes is inside the register block (20_memory R31). -/
theorem freshWork_reads_first {w : Word} {ws : List Work} (h : FreshWork w ws) :
    ∃ x rest, ws = x :: rest ∧ x.InBlock ∧ ∀ y ∈ rest, y.Blind := by
  have answered : ∀ y ∈ [Work.respond .ok 0#32], y.Blind := List.forall_mem_singleton.mpr ⟨trivial, rfl⟩
  rcases h with ⟨r, rfl⟩ | ⟨k, rfl, -⟩ | ⟨p, m, hp, rfl⟩ | ⟨p, v, hp, rfl⟩ | ⟨p, hp, rfl⟩ | ⟨p, hp, rfl⟩ |
    ⟨p, f, hp, hf, rfl⟩ | ⟨pin, st, hp, -, rfl⟩
  · exact ⟨_, _, rfl, trivial, List.forall_mem_nil _⟩
  · exact ⟨_, _, rfl, trivial, List.forall_mem_nil _⟩
  · exact ⟨_, _, rfl, fsel_bank p hp, List.forall_mem_nil _⟩
  · exact ⟨_, _, rfl, fsel_bank p hp, answered⟩
  · exact ⟨_, _, rfl, fsel_bank p hp, List.forall_mem_nil _⟩
  · exact ⟨_, _, rfl, two_banks .lev p hp rfl, List.forall_mem_nil _⟩
  · have hbanks : nbanks f = 2 := by rcases hf with rfl | rfl <;> rfl
    exact ⟨_, _, rfl, two_banks f p hp hbanks, answered⟩
  · obtain ⟨⟨hfirst, -⟩, hrest⟩ := List.forall_mem_cons.mp (pullSequence_blind st hp)
    exact ⟨_, _, rfl, hfirst, hrest⟩

theorem cost_pos (w : Work) : 0 < cost w := by
  cases w <;> simp [cost]

/-- A ready block's events in a command follow from the command and the next answer. -/
theorem exec_follows (i : Instr) (v : Word) : ∃ es, ∀ s, Ready s → s.answers.head? = some v →
    ∃ t, exec i s = .next t ∧ Logged (accept (encode i) s) t es := by
  obtain ⟨ws, hfresh, hexec⟩ := exec_issues i
  obtain ⟨w, rest, rfl, hw, hrest⟩ := freshWork_reads_first hfresh
  obtain ⟨n, hn⟩ : ∃ n, ((w :: rest).map cost).sum = n + 1 :=
    Nat.exists_eq_succ_of_ne_zero (by have := cost_pos w; rw [List.map_cons, List.sum_cons]; omega)
  obtain ⟨es, hes⟩ := runEvents_follows n hw hrest v
  refine ⟨es, fun s ⟨hb, hf, ht⟩ hv => ?_⟩
  obtain ⟨t, hrun, hlogged⟩ := hes (setPending (w :: rest) (accept (encode i) s)) rfl hv
  exact ⟨t, by rw [hexec, issueWord_ready _ _ s hb hf ht, hn, hrun], hlogged⟩

/-- Settles O54: both runs log the events that follow from the command and the answer, and the response port holds the
last response among them. -/
theorem traceFollowsCommandAndAnswers : Obligations.TraceFollowsCommandAndAnswers := by
  intro i s s' v rest rest' hs hs' hv hv'
  obtain ⟨es, hes⟩ := exec_follows i v
  obtain ⟨t, ht, htrace, hresponse⟩ := hes s hs (by simp [hv])
  obtain ⟨t', ht', htrace', hresponse'⟩ := hes s' hs' (by simp [hv'])
  exact ⟨t, t', es, ht, ht', htrace, htrace', hresponse.trans hresponse'.symm⟩

end Sys2Proof.Machine

/-! The encoding family: the decoder and the encoder undo each other (30_encoding R50 to R54, R58), a step executes the
command its word decodes to (R57), and the status codes (R56). -/

namespace Sys2Proof

/-! ### Decoding a word put together from its fields (30_encoding R53) -/

@[simp] theorem decode_commandWord (op pin arg : Octet) :
    decode (commandWord op pin arg) = decodeByOp (commandWord op pin arg) :=
  if_pos (rsvField_commandWord op pin arg)

@[simp] theorem pinOnly_commandWord (op pin : Octet) (f : Octet → Instr) :
    pinOnly (commandWord op pin 0#8) f = .ok (f pin) := by simp [pinOnly]

@[simp] theorem patternOnly_commandWord (op arg : Octet) (f : Octet → Instr) :
    patternOnly (commandWord op 0#8 arg) f = .ok (f arg) := by simp [patternOnly]

@[simp] theorem withMode_commandWord (op pin : Octet) (m : FunctionMode) (f : FunctionMode → Instr) :
    withMode (commandWord op pin (BitVec.ofNat 8 (modeOrdinal m))) f = .ok (f m) := by
  rw [withMode, argField_commandWord, modeOfOrdinal_modeOrdinal]

@[simp] theorem withState_commandWord (op pin : Octet) (st : PullState) (f : PullState → Instr) :
    withState (commandWord op pin (BitVec.ofNat 8 (stateOrdinal st))) f = .ok (f st) := by
  rw [withState, argField_commandWord, stateOfOrdinal_stateOrdinal]

/-- Settles O15: the opcode selects the command's row, and the row reads each operand back. -/
theorem decodeOfEncode : Obligations.DecodeOfEncode := by
  intro i
  cases i <;> simp [encode, decodeByOp]

/-! ### The word of a decoded command (30_encoding R58) -/

/-- An ordinal that names a mode is that mode's ordinal. -/
theorem modeOrdinal_of_modeOfOrdinal {n : Nat} {m : FunctionMode} (h : modeOfOrdinal n = some m) :
    modeOrdinal m = n := by
  unfold modeOfOrdinal at h
  split at h <;> cases h <;> rfl

theorem stateOrdinal_of_stateOfOrdinal {n : Nat} {st : PullState} (h : stateOfOrdinal n = some st) :
    stateOrdinal st = n := by
  unfold stateOfOrdinal at h
  split at h <;> cases h <;> rfl

section
variable {w : Word} {i : Instr} (hrsv : rsvField w = 0#8)
include hrsv

theorem commandWord_of_fields {op pin arg : Octet} (hop : (opField w).toNat = op.toNat) (hpin : pinField w = pin)
    (harg : argField w = arg) : commandWord op pin arg = w := by
  rw [← BitVec.eq_of_toNat_eq hop, ← hpin, ← harg, commandWord_fields w hrsv]

theorem encode_of_pinOnly (op : Octet) {f : Octet → Instr} (hop : (opField w).toNat = op.toNat)
    (hf : ∀ pin, encode (f pin) = commandWord op pin 0) (h : pinOnly w f = .ok i) : encode i = w := by
  unfold pinOnly at h
  split at h
  case isTrue harg =>
    cases h
    exact (hf _).trans (commandWord_of_fields hrsv hop rfl harg)
  case isFalse => cases h

theorem encode_of_patternOnly (op : Octet) {f : Octet → Instr} (hop : (opField w).toNat = op.toNat)
    (hf : ∀ p, encode (f p) = commandWord op 0 p) (h : patternOnly w f = .ok i) : encode i = w := by
  unfold patternOnly at h
  split at h
  case isTrue hpin =>
    cases h
    exact (hf _).trans (commandWord_of_fields hrsv hop hpin rfl)
  case isFalse => cases h

theorem encode_of_withMode (op : Octet) {pin : Octet} {f : FunctionMode → Instr} (hop : (opField w).toNat = op.toNat)
    (hpin : pinField w = pin) (hf : ∀ m, encode (f m) = commandWord op pin (BitVec.ofNat 8 (modeOrdinal m)))
    (h : withMode w f = .ok i) : encode i = w := by
  unfold withMode at h
  split at h
  case h_1 m hm =>
    cases h
    refine (hf m).trans (commandWord_of_fields hrsv hop hpin ?_)
    rw [modeOrdinal_of_modeOfOrdinal hm, BitVec.ofNat_toNat, BitVec.setWidth_eq]
  case h_2 => cases h

theorem encode_of_withState (op : Octet) {pin : Octet} {f : PullState → Instr} (hop : (opField w).toNat = op.toNat)
    (hpin : pinField w = pin) (hf : ∀ st, encode (f st) = commandWord op pin (BitVec.ofNat 8 (stateOrdinal st)))
    (h : withState w f = .ok i) : encode i = w := by
  unfold withState at h
  split at h
  case h_1 st hst =>
    cases h
    refine (hf st).trans (commandWord_of_fields hrsv hop hpin ?_)
    rw [stateOrdinal_of_stateOfOrdinal hst, BitVec.ofNat_toNat, BitVec.setWidth_eq]
  case h_2 => cases h

/-- Each row of R53's table gives a command of its own opcode and of the word's operands. -/
theorem encode_of_decodeByOp (h : decodeByOp w = .ok i) : encode i = w := by
  unfold decodeByOp at h
  split at h
  case h_1 hop => exact encode_of_pinOnly hrsv 0x01 hop (fun _ => rfl) h
  case h_2 hop => exact encode_of_pinOnly hrsv 0x02 hop (fun _ => rfl) h
  case h_3 hop => exact encode_of_pinOnly hrsv 0x03 hop (fun _ => rfl) h
  case h_4 hop =>
    split at h
    case isTrue hpin => exact encode_of_withMode hrsv 0x04 hop hpin (fun _ => rfl) h
    case isFalse => cases h
  case h_5 hop => exact encode_of_patternOnly hrsv 0x05 hop (fun _ => rfl) h
  case h_6 hop => exact encode_of_withMode hrsv 0x06 hop rfl (fun _ => rfl) h
  case h_7 hop => exact encode_of_pinOnly hrsv 0x07 hop (fun _ => rfl) h
  case h_8 hop => exact encode_of_pinOnly hrsv 0x08 hop (fun _ => rfl) h
  case h_9 hop => exact encode_of_pinOnly hrsv 0x09 hop (fun _ => rfl) h
  case h_10 hop => exact encode_of_withState hrsv 0x0A hop rfl (fun _ => rfl) h
  case h_11 hop =>
    split at h
    case isTrue hpin => exact encode_of_withState hrsv 0x10 hop hpin (fun _ => rfl) h
    case isFalse => cases h
  case h_12 hop => exact encode_of_patternOnly hrsv 0x11 hop (fun _ => rfl) h
  case h_13 hop => exact encode_of_pinOnly hrsv 0x12 hop (fun _ => rfl) h
  case h_14 => cases h

end

theorem encode_of_decode {w : Word} {i : Instr} (h : decode w = .ok i) : encode i = w := by
  unfold decode at h
  split at h
  case isTrue hrsv => exact encode_of_decodeByOp hrsv h
  case isFalse => cases h

/-- The decoder and the encoder are two readings of one relation between words and commands (30_encoding R58). -/
theorem decode_eq_ok_iff {w : Word} {i : Instr} : decode w = .ok i ↔ encode i = w := by
  refine ⟨encode_of_decode, ?_⟩
  rintro rfl
  exact decodeOfEncode i

theorem wordOk_encode (i : Instr) : WellFormed.wordOk (encode i) = true := by
  cases i with
  | resolveFsel pin => exact Laws.EncodeOk.resolveFsel pin
  | resolveBit pin => exact Laws.EncodeOk.resolveBit pin
  | resolvePudclk pin => exact Laws.EncodeOk.resolvePudclk pin
  | encodeFunction m => exact Laws.EncodeOk.encodeFunction m
  | decodeFunction p => exact Laws.EncodeOk.decodeFunction p
  | writeFunction pin m => exact Laws.EncodeOk.writeFunction pin m
  | setPin pin => exact Laws.EncodeOk.setPin pin
  | clearPin pin => exact Laws.EncodeOk.clearPin pin
  | readLevel pin => exact Laws.EncodeOk.readLevel pin
  | configurePull pin st => exact Laws.EncodeOk.configurePull pin st
  | encodePull st => exact Laws.EncodeOk.encodePull st
  | decodePull p => exact Laws.EncodeOk.decodePull p
  | readFunction pin => exact Laws.EncodeOk.readFunction pin

/-- Settles O16: an answer of the decoder is an error only where R54 is broken; it is a command only on that command's
own word, which meets R54 and decodes to nothing else. -/
theorem decodingIsTotalAndUnambiguous : Obligations.DecodingIsTotalAndUnambiguous := by
  intro w
  cases hd : decode w with
  | error e => exact .inl ⟨wordOk_of_decode_error hd, e, rfl⟩
  | ok i =>
    have hw : encode i = w := encode_of_decode hd
    refine .inr ⟨hw ▸ wordOk_encode i, i, rfl, hw, fun j hj => ?_⟩
    exact Except.ok.inj ((decode_eq_ok_iff.mpr hj).symm.trans hd)

/-- Settles O17: each word is the encoding of its command. -/
theorem specWordsDecode : Obligations.SpecWordsDecode := by
  unfold Obligations.SpecWordsDecode
  simp only [decode_eq_ok_iff]
  decide

end Sys2Proof

namespace Sys2Proof.Machine

/-! ### Acceptance of a well-formed word (30_encoding R57) -/

theorem takeCommand_of_decode {w : Word} {i : Instr} {s : State} (hc : configOk s.base = true) (hd : decode w = .ok i) :
    takeCommand w s = exec i s := by
  simp [takeCommand, hc, hd]

/-- Settles O6: an idle block takes the word, and a good configuration lets its command through to exec. -/
theorem stepRunsTheDecodedCommand : Obligations.StepRunsTheDecodedCommand := by
  intro s w events rest i hin hb hc hd
  exact (step_command_idle hin hb).trans (takeCommand_of_decode hc hd)

/-! ### The status codes (30_encoding R56) -/

/-- R56's table, the status of code n at place n. -/
def statusTable : List Status := [.ok, .invalidPin, .unknownEncoding, .illegalCommand, .faulted]

theorem statusTable_statusCode (st : Status) : statusTable[(statusCode st).toNat]? = some st := by
  cases st <;> rfl

/-- Two statuses of one code stand at one place of the table. -/
theorem statusCode_injective {a b : Status} (h : statusCode a = statusCode b) : a = b := by
  have hb := statusTable_statusCode b
  rw [← h, statusTable_statusCode a] at hb
  exact Option.some.inj hb

/-- Settles O18: the codes are places of one table, and each fault has a place between OK and Faulted. -/
theorem statusCodesFollowTheTable : Obligations.StatusCodesFollowTheTable := by
  refine ⟨rfl, fun a b => statusCode_injective, fun k => ?_⟩
  cases k <;> decide

end Sys2Proof.Machine

/-! The pin locator family: where the locator functions put a pin (40_pin_locator R70 to R73), the laws of those
locations (R74 to R76), and the commands that answer them. -/

namespace Sys2Proof.Machine

open Sys2Proof.Safety

/-! ### The location of a pin -/

/-- The location of a valid pin in FSEL (40_pin_locator R70); `pinBit` is the one in the single-bit families. -/
def fselField (p : Nat) : Location := { bank := p / 10, shift := p % 10 * 3, width := 3 }

theorem resolveFunctionSelect_eq_ok_iff {pin : Octet} {l : Location} :
    resolveFunctionSelect pin = .ok l ↔ pin.toNat ≤ 53 ∧ l = fselField pin.toNat := by
  by_cases h : pin.toNat ≤ 53
  · simp [resolveFunctionSelect_valid pin h, h, fselField, eq_comm]
  · simp [resolveFunctionSelect_invalid pin (Nat.lt_of_not_le h), h]

theorem resolveBitRegister_eq_ok_iff {pin : Octet} {l : Location} :
    resolveBitRegister pin = .ok l ↔ pin.toNat ≤ 53 ∧ l = pinBit pin.toNat := by
  by_cases h : pin.toNat ≤ 53
  · simp [resolveBitRegister_valid pin h, h, pinBit, eq_comm]
  · simp [resolveBitRegister_invalid pin (Nat.lt_of_not_le h), h]

/-- PUDCLK is laid out as the other single-bit families are (40_pin_locator R73). -/
theorem resolvePudclk_eq_resolveBitRegister : resolvePudclk = resolveBitRegister := rfl

theorem resolvePudclk_eq_ok_iff {pin : Octet} {l : Location} :
    resolvePudclk pin = .ok l ↔ pin.toNat ≤ 53 ∧ l = pinBit pin.toNat := by
  rw [resolvePudclk_eq_resolveBitRegister, resolveBitRegister_eq_ok_iff]

/-- Either single-bit locator gives a valid pin its bit. -/
theorem pinBit_of_resolve {pin : Octet} {l : Location} (h : resolveBitRegister pin = .ok l ∨ resolvePudclk pin = .ok l) :
    pin.toNat ≤ 53 ∧ l = pinBit pin.toNat :=
  h.elim resolveBitRegister_eq_ok_iff.mp resolvePudclk_eq_ok_iff.mp

/-! ### Two pins of one bank (40_pin_locator R74) -/

/-- The bit ranges of two locations do not meet. -/
def Location.Apart (l k : Location) : Prop := l.shift + l.width ≤ k.shift ∨ k.shift + k.width ≤ l.shift

theorem fselField_apart {p q : Nat} (hne : p ≠ q) (hbank : (fselField p).bank = (fselField q).bank) :
    (fselField p).Apart (fselField q) := by
  simp only [Location.Apart, fselField] at *
  omega

theorem pinBit_apart {p q : Nat} (hne : p ≠ q) (hbank : (pinBit p).bank = (pinBit q).bank) :
    (pinBit p).Apart (pinBit q) := by
  simp only [Location.Apart, pinBit] at *
  omega

/-- Settles O21: two pins of one bank differ in their place in it, and the places are a width apart. -/
theorem locatedFieldsNeverOverlap : Obligations.LocatedFieldsNeverOverlap := by
  intro locator hlocator p q l k hl hk hpq hbank
  have hne : p.toNat ≠ q.toNat := mt BitVec.eq_of_toNat_eq hpq
  simp only [List.mem_cons, List.not_mem_nil, or_false] at hlocator
  rcases hlocator with rfl | rfl | rfl
  · obtain ⟨-, rfl⟩ := resolveFunctionSelect_eq_ok_iff.mp hl
    obtain ⟨-, rfl⟩ := resolveFunctionSelect_eq_ok_iff.mp hk
    exact fselField_apart hne hbank
  · obtain ⟨-, rfl⟩ := resolveBitRegister_eq_ok_iff.mp hl
    obtain ⟨-, rfl⟩ := resolveBitRegister_eq_ok_iff.mp hk
    exact pinBit_apart hne hbank
  · obtain ⟨-, rfl⟩ := resolvePudclk_eq_ok_iff.mp hl
    obtain ⟨-, rfl⟩ := resolvePudclk_eq_ok_iff.mp hk
    exact pinBit_apart hne hbank

/-! ### The pin of a location (40_pin_locator R75) -/

theorem pin_of_fselField (p : Nat) : p = 10 * (fselField p).bank + (fselField p).shift / 3 := by
  simp only [fselField]
  omega

theorem pin_of_pinBit (p : Nat) : p = 32 * (pinBit p).bank + (pinBit p).shift := (Nat.div_add_mod p 32).symm

theorem fselField_eq_iff {p b k : Nat} (hk : k < 10) : fselField p = ⟨b, 3 * k, 3⟩ ↔ p = 10 * b + k := by
  simp only [fselField, Location.mk.injEq, and_true]
  omega

theorem pinBit_eq_iff {p b i : Nat} (hi : i < 32) : pinBit p = ⟨b, i, 1⟩ ↔ p = 32 * b + i := by
  simp only [pinBit, Location.mk.injEq, and_true]
  omega

/-- A valid pin as a command's operand. -/
theorem exists_octet_of_le {n : Nat} (h : n ≤ 53) : ∃ pin : Octet, pin.toNat = n :=
  ⟨BitVec.ofNat 8 n, Nat.mod_eq_of_lt (by omega)⟩

/-- Settles O22: a location gives its pin back, so that no two pins share one, and the pin it gives back is located
there. -/
theorem locatorIsInvertible : Obligations.LocatorIsInvertible := by
  refine ⟨fun p l h => ?_, fun p l h => ?_, fun b k hk hle => ?_, fun b i hi hle => ?_⟩
  · obtain ⟨-, rfl⟩ := resolveFunctionSelect_eq_ok_iff.mp h
    exact pin_of_fselField _
  · obtain ⟨-, rfl⟩ := pinBit_of_resolve h
    exact pin_of_pinBit _
  · obtain ⟨pin, hpin⟩ := exists_octet_of_le hle
    have hlocated : pin.toNat ≤ 53 ∧ ⟨b, 3 * k, 3⟩ = fselField pin.toNat :=
      ⟨hpin ▸ hle, ((fselField_eq_iff hk).mpr hpin).symm⟩
    refine ⟨pin, resolveFunctionSelect_eq_ok_iff.mpr hlocated, fun q hq => BitVec.eq_of_toNat_eq ?_⟩
    obtain ⟨-, hq⟩ := resolveFunctionSelect_eq_ok_iff.mp hq
    exact ((fselField_eq_iff hk).mp hq.symm).trans hpin.symm
  · obtain ⟨pin, hpin⟩ := exists_octet_of_le hle
    have hlocated : pin.toNat ≤ 53 ∧ ⟨b, i, 1⟩ = pinBit pin.toNat :=
      ⟨hpin ▸ hle, ((pinBit_eq_iff hi).mpr hpin).symm⟩
    refine ⟨pin, ⟨resolveBitRegister_eq_ok_iff.mpr hlocated, resolvePudclk_eq_ok_iff.mpr hlocated⟩,
      fun q hq => BitVec.eq_of_toNat_eq ?_⟩
    obtain ⟨-, hq⟩ := pinBit_of_resolve hq
    exact ((pinBit_eq_iff hi).mp hq.symm).trans hpin.symm

/-! ### The reach of the locations (40_pin_locator R76) -/

theorem fselField_bounds {p : Nat} (hp : p ≤ 53) : (fselField p).bank ≤ 5 ∧ (fselField p).shift % 3 = 0 ∧
    (fselField p).shift + 3 ≤ 30 ∧ ((fselField p).bank = 5 → (fselField p).shift ≤ 9) := by
  simp only [fselField]
  refine ⟨?_, ?_, ?_, fun hbank => ?_⟩ <;> omega

theorem pinBit_bounds {p : Nat} (hp : p ≤ 53) : (pinBit p).bank ≤ 1 ∧ (pinBit p).shift ≤ 31 ∧
    ((pinBit p).bank = 1 → (pinBit p).shift ≤ 21) := by
  simp only [pinBit]
  refine ⟨?_, ?_, fun hbank => ?_⟩ <;> omega

/-- Settles O23: the last pin, 53, stands at place 3 of FSEL's bank 5 and at bit 21 of a single-bit family's bank 1. -/
theorem locatorStaysInsideThePins : Obligations.LocatorStaysInsideThePins := by
  refine ⟨fun p l h => ?_, fun p l h => ?_⟩
  · obtain ⟨hp, rfl⟩ := resolveFunctionSelect_eq_ok_iff.mp h
    exact ⟨rfl, fselField_bounds hp⟩
  · obtain ⟨hp, rfl⟩ := pinBit_of_resolve h
    exact ⟨rfl, pinBit_bounds hp⟩

/-! ### The result of a locator command (30_encoding R56) -/

theorem ofNat_shiftLeft (a k : Nat) : (BitVec.ofNat 32 a) <<< k = BitVec.ofNat 32 (a <<< k) :=
  BitVec.eq_of_toNat_eq Nat.mod_two_pow_shiftLeft_mod_two_pow

/-- Where bank and shift fit their bytes, the three fields of the result word do not meet. -/
theorem locationWord_eq_ofNat {l : Location} (hbank : l.bank < 2 ^ 8) (hshift : l.shift < 2 ^ 8) :
    locationWord l = BitVec.ofNat 32 (l.width * 65536 + l.bank * 256 + l.shift) := by
  have hlow : l.bank <<< 8 + l.shift < 2 ^ 16 := by rw [Nat.shiftLeft_eq]; omega
  calc locationWord l
    _ = BitVec.ofNat 32 (l.width <<< 16 ||| l.bank <<< 8 ||| l.shift) := by
      rw [locationWord, ofNat_shiftLeft, ofNat_shiftLeft, BitVec.ofNat_or, BitVec.ofNat_or]
    _ = BitVec.ofNat 32 (l.width <<< 16 + (l.bank <<< 8 + l.shift)) := by
      rw [Nat.or_assoc, ← Nat.shiftLeft_add_eq_or_of_lt hshift, ← Nat.shiftLeft_add_eq_or_of_lt hlow]
    _ = BitVec.ofNat 32 (l.width * 65536 + l.bank * 256 + l.shift) := by
      rw [Nat.shiftLeft_eq, Nat.shiftLeft_eq, Nat.add_assoc]

theorem locationWord_fselField {p : Nat} (hp : p ≤ 53) :
    locationWord (fselField p) = BitVec.ofNat 32 (3 * 65536 + p / 10 * 256 + p % 10 * 3) := by
  obtain ⟨hbank, -, hshift, -⟩ := fselField_bounds hp
  exact locationWord_eq_ofNat (by omega) (by omega)

theorem locationWord_pinBit {p : Nat} (hp : p ≤ 53) :
    locationWord (pinBit p) = BitVec.ofNat 32 (1 * 65536 + p / 32 * 256 + p % 32) := by
  obtain ⟨hbank, hshift, -⟩ := pinBit_bounds hp
  exact locationWord_eq_ofNat (by omega) (by omega)

/-- A command whose work is one OK response answers it and changes nothing else. -/
theorem exec_answersOk {i : Instr} {r : Word} {s : State} (hs : Ready s)
    (hexec : exec i s = issueWord (encode i) [.respond .ok r] s) :
    ∃ t, exec i s = .next t ∧ AnsweredOk s t i [] r ∧ t.phase = s.phase ∧ FixedKept s t ∧ RegistersKept s t ∧
      AnswersKept s t := by
  obtain ⟨hb, hf, ht⟩ := hs
  refine ⟨_, hexec.trans (issueWord_responds _ _ _ s hb hf ht), ?_⟩
  simp [AnsweredOk, Responded, FixedKept, RegistersKept, AnswersKept, ht]

/-- A locator command on a valid pin answers the location's word. -/
theorem exec_answersLocation {i : Instr} {r : Except FaultKind Location} {l : Location} {s : State} (hs : Ready s)
    (hexec : exec i s = issueWord (encode i) (atLocation r fun l => [.respond .ok (locationWord l)]) s) (hr : r = .ok l) :
    ∃ t, exec i s = .next t ∧ AnsweredOk s t i [] (locationWord l) ∧ t.phase = s.phase ∧ FixedKept s t ∧
      RegistersKept s t ∧ AnswersKept s t := by
  subst hr
  exact exec_answersOk hs hexec

/-- Settles O19: the command's work is one response, with the word of the pin's field. -/
theorem resolveFselResult : Obligations.ResolveFselResult := by
  intro s pin hs hp
  rw [← locationWord_fselField hp]
  exact exec_answersLocation hs rfl (resolveFunctionSelect_valid pin hp)

/-- Settles O20: the work of either command is one response, with the word of the pin's bit. -/
theorem singleBitLocatorResults : Obligations.SingleBitLocatorResults := by
  intro s pin i hs hp hi
  rw [← locationWord_pinBit hp]
  rcases hi with rfl | rfl
  · exact exec_answersLocation hs rfl (resolveBitRegister_valid pin hp)
  · exact exec_answersLocation hs rfl (resolvePudclk_valid pin hp)

end Sys2Proof.Machine

/-! The field codec family: the two value tables (41_field_codec R80, R84), their round trips (R83, R87), and the four
commands that answer them (R81, R82, R85, R86). -/

namespace Sys2Proof.Machine

open Sys2Proof.Safety

/-! ### The function modes -/

/-- A pattern decodes to the one mode it is the pattern of. -/
theorem decodeFunction_eq_ok_iff {n : Nat} {m : FunctionMode} :
    decodeFunction n = .ok m ↔ (encodeFunction m).toNat = n := by
  constructor
  · intro h
    unfold decodeFunction at h
    split at h <;> cases h <;> rfl
  · rintro rfl
    cases m <;> rfl

theorem exists_encodeFunction {n : Nat} (h : n ≤ 7) : ∃ m, (encodeFunction m).toNat = n := by
  obtain ⟨m, hm⟩ := decodeFunction_field (BitVec.ofNatLT n (Nat.lt_succ_of_le h))
  exact ⟨m, decodeFunction_eq_ok_iff.mp hm⟩

/-- The table of R81, by the mode's ordinal. -/
theorem encodeFunction_eq_getD (m : FunctionMode) :
    (encodeFunction m).setWidth 32 = [0, 1, 4, 5, 6, 7, 3, 2].getD (modeOrdinal m) 0#32 := by cases m <;> rfl

/-- The table of R82, by the mode's pattern. -/
theorem modeOrdinal_eq_getD (m : FunctionMode) :
    BitVec.ofNat 32 (modeOrdinal m) = [0, 1, 7, 6, 2, 3, 4, 5].getD (encodeFunction m).toNat 0#32 := by cases m <;> rfl

/-- Settles O28: decoding inverts encoding, and every pattern up to 7 is the pattern of a mode. -/
theorem functionModeRoundTrips : Obligations.FunctionModeRoundTrips := by
  refine ⟨fun m => decodeFunction_eq_ok_iff.mpr rfl, fun p hp => ?_⟩
  obtain ⟨m, hm⟩ := exists_encodeFunction hp
  exact ⟨m, decodeFunction_eq_ok_iff.mpr hm, hm⟩

/-- Settles O24: the command's work is one response, with the mode's pattern. -/
theorem encodeFunctionResult : Obligations.EncodeFunctionResult := by
  intro s m hs
  rw [← encodeFunction_eq_getD]
  exact exec_answersOk hs rfl

/-- Settles O25: a pattern up to 7 is some mode's, and the command's work is one response, with that mode's ordinal. -/
theorem decodeFunctionResult : Obligations.DecodeFunctionResult := by
  intro s p hs hp
  obtain ⟨m, hm⟩ := exists_encodeFunction hp
  have hexec : exec (.decodeFunction p) s =
      issueWord (encode (.decodeFunction p)) [answerMode (decodeFunction p.toNat)] s := rfl
  rw [decodeFunction_eq_ok_iff.mpr hm] at hexec
  rw [← hm, ← modeOrdinal_eq_getD]
  exact exec_answersOk hs hexec

/-! ### The pull states -/

/-- A pattern decodes to the one pull state it is the pattern of. -/
theorem decodePull_eq_ok_iff {n : Nat} {st : PullState} : decodePull n = .ok st ↔ (encodePull st).toNat = n := by
  constructor
  · intro h
    unfold decodePull at h
    split at h <;> cases h <;> rfl
  · rintro rfl
    cases st <;> rfl

/-- A pull state's pattern is its ordinal (41_field_codec R84). -/
theorem encodePull_toNat (st : PullState) : (encodePull st).toNat = stateOrdinal st := by cases st <;> rfl

theorem exists_encodePull {n : Nat} (h : n ≤ 2) : ∃ st, (encodePull st).toNat = n := by
  obtain ⟨st, hst⟩ := stateOfOrdinal_of_le h
  exact ⟨st, (encodePull_toNat st).trans (stateOrdinal_of_stateOfOrdinal hst)⟩

/-- The reserved pattern is no state's (41_field_codec R84). -/
theorem encodePull_ne_reserved (st : PullState) : encodePull st ≠ 0b11#2 := by cases st <;> decide

/-- The table of R85 and R86: ordinals and patterns are the same numbers. -/
theorem stateOrdinal_eq_getD (st : PullState) :
    BitVec.ofNat 32 (stateOrdinal st) = [0, 1, 2].getD (stateOrdinal st) 3#32 := by cases st <;> rfl

/-- Settles O29: decoding inverts encoding, and every pattern up to 2, but not the reserved one, is a state's. -/
theorem pullStateRoundTrips : Obligations.PullStateRoundTrips := by
  refine ⟨fun st => ⟨decodePull_eq_ok_iff.mpr rfl, encodePull_ne_reserved st⟩, fun p hp => ?_⟩
  obtain ⟨st, hst⟩ := exists_encodePull hp
  exact ⟨st, decodePull_eq_ok_iff.mpr hst, hst⟩

/-- Settles O26: the command's work is one response, with the state's pattern. -/
theorem encodePullResult : Obligations.EncodePullResult := by
  intro s st hs
  rw [← stateOrdinal_eq_getD, ← pullWord_eq]
  exact exec_answersOk hs rfl

/-- Settles O27: a pattern up to 2 is some state's, and the command's work is one response, with that state's ordinal. -/
theorem decodePullResult : Obligations.DecodePullResult := by
  intro s p hs hp
  obtain ⟨st, hst⟩ := exists_encodePull hp
  have hexec : exec (.decodePull p) s = issueWord (encode (.decodePull p)) [answerPull (decodePull p.toNat)] s := rfl
  rw [decodePull_eq_ok_iff.mpr hst] at hexec
  rw [← hst, encodePull_toNat, ← stateOrdinal_eq_getD]
  exact exec_answersOk hs hexec

end Sys2Proof.Machine

/-! The register operations family: the work of the commands with at most two accesses, run to its end (42_register_ops
R101 to R105), and what each of them leaves alone. -/

namespace Sys2Proof.Machine

open Sys2Proof.Safety

/-! ### The work of a command on a valid pin -/

section
variable {pin : Octet} (s : State) (hp : pin.toNat ≤ 53)
include hp

theorem exec_writeFunction_eq_issueWord (m : FunctionMode) :
    exec (.writeFunction pin m) s = issueWord (encode (.writeFunction pin m))
      [.readModify (pin.toNat / 10) (pin.toNat % 10 * 3) (encodeFunction m)] s := by
  rw [exec, execWriteFunction, resolveFunctionSelect_valid pin hp]
  rfl

theorem exec_readFunction_eq_issueWord :
    exec (.readFunction pin) s =
      issueWord (encode (.readFunction pin)) [.readField (pin.toNat / 10) (pin.toNat % 10 * 3)] s := by
  rw [exec, execReadFunction, resolveFunctionSelect_valid pin hp]
  rfl

theorem exec_setPin_eq_issueWord :
    exec (.setPin pin) s = issueWord (encode (.setPin pin))
      [.write .set (pin.toNat / 32) (oneBit (pin.toNat % 32)) none, .respond .ok 0#32] s := by
  rw [exec, execSetPin, resolveBitRegister_valid pin hp]
  rfl

theorem exec_clearPin_eq_issueWord :
    exec (.clearPin pin) s = issueWord (encode (.clearPin pin))
      [.write .clr (pin.toNat / 32) (oneBit (pin.toNat % 32)) none, .respond .ok 0#32] s := by
  rw [exec, execClearPin, resolveBitRegister_valid pin hp]
  rfl

end

/-! ### Accesses run to the response -/

/-- A write neither looks at nor changes what is left to do. -/
theorem regWrite_setPending (f : Family) (b : Nat) (v : Word) (ws : List Work) (s : State) :
    regWrite f b v (setPending ws s) = setPending ws (regWrite f b v s) := by
  simp only [regWrite, portWrite, setPending_base, logEvent_mapped, setPending_mapped]
  cases locate s.mapped (addr s.base f b) with
  | none => rfl
  | some r =>
    obtain ⟨g, c⟩ := r
    cases g <;> rfl

/-- One write, then the response. -/
theorem runEvents_write_respond {f : Family} {b : Nat} (v r : Word) (s : State) (hbank : b < nbanks f) :
    runEvents 2 (setPending [.write f b v none, .respond .ok r] s) =
      .next (respond .ok r (setPending [] (regWrite f b v s))) := by
  have hwrite : perform (.write f b v none) (setPending [.respond .ok r] s) =
      .next (setPending [.respond .ok r] (regWrite f b v s)) := by
    simp [perform, hbank, regWrite_setPending]
  exact runEvents_step 1 (setPending _ s) _ _ _ rfl hwrite

/-- A command whose work begins with a read: the read, then the events it leaves. -/
theorem issueWord_reads {x : Work} {ws : List Work} {f : Family} {b n : Nat} {w : Word} {s : State} (hs : Ready s)
    (hcost : cost x = n + 1)
    (hx : perform x (setPending [] (accept w s)) = .next (goOn ws (regRead f b (setPending [] (accept w s))))) :
    issueWord w [x] s = runEvents n (setPending ws (regRead f b (accept w s))) := by
  obtain ⟨hb, hf, ht⟩ := hs
  have hread : perform x (setPending [] (setPending [x] (accept w s))) =
      .next (setPending ws (regRead f b (accept w s))) := by
    rw [setPending_setPending, hx, goOn, regRead_setPending, setPending_pending, List.append_nil, setPending_setPending]
  rw [issueWord_ready w [x] s hb hf ht, List.map_singleton, List.sum_singleton, hcost]
  exact runEvents_step n _ _ x [] rfl hread

/-- Work that is one read of FSEL, issued to a ready block, where the field read is a mode's pattern. -/
theorem issueWord_readField {s : State} {b shift : Nat} {m : FunctionMode} (w : Word) (hs : Ready s)
    (hbank : b < nbanks .fsel) (hm : fieldAt (answer .fsel b s) shift = encodeFunction m) :
    issueWord w [.readField b shift] s =
      .next (respond .ok (BitVec.ofNat 32 (modeOrdinal m)) (setPending [] (regRead .fsel b (accept w s)))) := by
  have hdecode : decodeFunction (fieldAt (answer .fsel b s) shift).toNat = .ok m :=
    decodeFunction_eq_ok_iff.mpr (congrArg BitVec.toNat hm.symm)
  exact (issueWord_reads (ws := [answerMode (.ok m)]) hs rfl (by simp [perform, hbank, hdecode])).trans rfl

/-- Work that is one read-modify-write of FSEL, issued to a ready block. -/
theorem issueWord_readModify {s : State} {b : Nat} (w : Word) (shift : Nat) (p : BitVec 3) (hs : Ready s)
    (hbank : b < nbanks .fsel) :
    issueWord w [.readModify b shift p] s = .next (respond .ok 0#32 (setPending []
      (regWrite .fsel b (insertField (answer .fsel b s) shift p) (regRead .fsel b (accept w s))))) :=
  (issueWord_reads hs rfl (by simp [perform, hbank])).trans (runEvents_write_respond _ _ _ hbank)

/-! ### Commands of one read -/

/-- A command whose work is one read and an OK response: its answer and its frame. -/
theorem exec_readsOnce {i : Instr} {f : Family} {b : Nat} {r : Word} {s : State} (hs : Ready s)
    (hexec : exec i s = .next (respond .ok r (setPending [] (regRead f b (accept (encode i) s))))) :
    ∃ t, exec i s = .next t ∧ AnsweredOk s t i [.rd f b (answer f b s)] r ∧ t.phase = s.phase ∧ FixedKept s t ∧
      RegistersKept s t ∧ t.answers = s.answers.tail ∧ t.delays = s.delays := by
  have ⟨_, _, ht⟩ := hs
  exact ⟨_, hexec, by simp [AnsweredOk, Responded, ht], rfl, exec_fixedKept hexec, by simp [RegistersKept], rfl, rfl⟩

theorem exists_encodeFunction_eq (p : BitVec 3) : ∃ m, p = encodeFunction m := by
  obtain ⟨m, hm⟩ := decodeFunction_field p
  exact ⟨m, BitVec.eq_of_toNat_eq (decodeFunction_eq_ok_iff.mp hm).symm⟩

theorem fieldAt_toNat (v : Word) (shift : Nat) : (fieldAt v shift).toNat = v.toNat / 2 ^ shift % 8 := by
  rw [fieldAt, BitVec.extractLsb'_toNat, Nat.shiftRight_eq_div_pow]

/-- READ_FUNCTION answers the mode whose pattern stands in the pin's field of the word read (42_register_ops R102). -/
theorem exec_readFunction_of_field {pin : Octet} {m : FunctionMode} {s : State} (hs : Ready s) (hp : pin.toNat ≤ 53)
    (hm : fieldAt (answer .fsel (pin.toNat / 10) s) (pin.toNat % 10 * 3) = encodeFunction m) :
    exec (.readFunction pin) s = .next (respond .ok (BitVec.ofNat 32 (modeOrdinal m))
      (setPending [] (regRead .fsel (pin.toNat / 10) (accept (encode (.readFunction pin)) s)))) :=
  (exec_readFunction_eq_issueWord s hp).trans (issueWord_readField _ hs (fsel_bank _ hp) hm)

/-- Settles O33: the field read is some mode's pattern, and the answer is that mode's ordinal. -/
theorem readFunctionResult : Obligations.ReadFunctionResult := by
  intro s pin hs hp
  obtain ⟨m, hm⟩ := exists_encodeFunction_eq (fieldAt (answer .fsel (pin.toNat / 10) s) (pin.toNat % 10 * 3))
  rw [Nat.mul_comm 3, ← fieldAt_toNat, hm, ← modeOrdinal_eq_getD]
  exact exec_readsOnce hs (exec_readFunction_of_field hs hp hm)

/-- Settles O36: the command's work is one read, answered with the pin's bit of the word read. -/
theorem readLevelResult : Obligations.ReadLevelResult := by
  intro s pin hs hp
  rw [← levelBit_eq _ _ (Nat.mod_lt _ (by omega))]
  exact exec_readsOnce hs
    ((exec_readLevel_eq_issueWord s hp).trans (issueWord_readBit _ _ hs (two_banks .lev _ hp rfl)))

/-! ### Commands of one blind write -/

/-- The register block of `t` holds what that of `u` holds: bytes, output values, latches. -/
def SameRegisters (t u : State) : Prop :=
  t.mem = u.mem ∧ t.outl = u.outl ∧ t.pins = u.pins ∧ t.pudStage = u.pudStage

/-- A blind write of an accepted command reaches the register block as it stood, where BASE reaches it. -/
theorem regWrite_accept_sameRegisters {f : Family} {b : Nat} (v w : Word) {s : State} (hbank : b < nbanks f)
    (hreach : Reachable s) : SameRegisters (regWrite f b v (accept w s)) (ctrlWrite f b v s) := by
  rw [regWrite_reachable f b v (accept w s) hbank hreach]
  cases f <;> exact ⟨rfl, rfl, rfl, rfl⟩

/-- A command whose work is one write and an OK response: its answer, its frame, and the write it makes. -/
theorem exec_writesOnce {i : Instr} {f : Family} {b : Nat} {v : Word} {s : State} (hs : Ready s) (hbank : b < nbanks f)
    (hexec : exec i s = issueWord (encode i) [.write f b v none, .respond .ok 0#32] s) :
    ∃ t, exec i s = .next t ∧ AnsweredOk s t i [.wr f b v] 0#32 ∧ t.phase = s.phase ∧ FixedKept s t ∧
      t.answers = s.answers ∧ t.delays = s.delays ∧ BytesKeptExcept f b s t ∧
      (Reachable s → SameRegisters t (ctrlWrite f b v s)) := by
  obtain ⟨hb, hf, ht⟩ := hs
  have hrun : exec i s = .next (respond .ok 0#32 (setPending [] (regWrite f b v (accept (encode i) s)))) := by
    rw [hexec, issueWord_ready _ _ s hb hf ht]
    exact runEvents_write_respond v _ _ hbank
  refine ⟨_, hrun, by simp [AnsweredOk, Responded, ht], by simp, exec_fixedKept hrun, by simp, by simp, ?_, ?_⟩
  · exact regWrite_bytes f b v (accept (encode i) s)
  · exact regWrite_accept_sameRegisters v (encode i) hbank

/-- A command that writes a pin's bit to SET or CLR changes output values only, to what `drive` says of the family. -/
theorem exec_drivesPin {i : Instr} {f : Family} {pin : Octet} {drive : Nat → Bool} {s : State} (hs : Ready s)
    (hp : pin.toNat ≤ 53) (hf : f = .set ∨ f = .clr)
    (hexec : exec i s = issueWord (encode i)
      [.write f (pin.toNat / 32) (oneBit (pin.toNat % 32)) none, .respond .ok 0#32] s)
    (hdrive : ∀ q, q < 54 → (ctrlWrite f (pin.toNat / 32) (oneBit (pin.toNat % 32)) s).outl.getLsbD q = drive q) :
    ∃ t, exec i s = .next t ∧
      AnsweredOk s t i [.wr f (pin.toNat / 32) (BitVec.ofNat 32 (2 ^ (pin.toNat % 32)))] 0#32 ∧
      t.phase = s.phase ∧ FixedKept s t ∧ t.answers = s.answers ∧ t.delays = s.delays ∧
      BytesKeptExcept f (pin.toNat / 32) s t ∧
      (Reachable s → (∀ a, Memory.read a t.mem = Memory.read a s.mem) ∧ t.pins = s.pins ∧ t.pudStage = s.pudStage ∧
        ∀ q, q < 54 → t.outl.getLsbD q = drive q) := by
  have hbank : pin.toNat / 32 < nbanks f := two_banks f _ hp (by rcases hf with rfl | rfl <;> rfl)
  rw [← oneBit_eq _ (Nat.mod_lt _ (by omega))]
  obtain ⟨t, hnext, hok, hphase, hfixed, hanswers, hdelays, hbytes, hwrote⟩ := exec_writesOnce hs hbank hexec
  refine ⟨t, hnext, hok, hphase, hfixed, hanswers, hdelays, hbytes, fun hreach => ?_⟩
  obtain ⟨hmem, houtl, hpins, hstage⟩ := hwrote hreach
  rw [hmem, houtl, hpins, hstage]
  rcases hf with rfl | rfl <;> exact ⟨fun a => rfl, rfl, rfl, hdrive⟩

/-- Settles O34: the word written to SET names the pin alone, and SET ORs the pins named into the output values. -/
theorem setPinWritesOneBit : Obligations.SetPinWritesOneBit := by
  intro s pin hs hp
  refine exec_drivesPin hs hp (.inl rfl) (exec_setPin_eq_issueWord s hp) fun q hq => ?_
  rw [ctrlWrite, BitVec.getLsbD_or, pinMask_oneBit _ _ hp hq, Bool.or_comm]

/-- Settles O35: the word written to CLR names the pin alone, and CLR masks the pins named out of the output values. -/
theorem clearPinWritesOneBit : Obligations.ClearPinWritesOneBit := by
  intro s pin hs hp
  refine exec_drivesPin hs hp (.inr rfl) (exec_clearPin_eq_issueWord s hp) fun q hq => ?_
  rw [ctrlWrite, BitVec.getLsbD_and, BitVec.getLsbD_not, pinMask_oneBit _ _ hp hq, decide_eq_true hq, Bool.true_and,
    Bool.and_comm]

/-! ### The read-modify-write of a function field -/

@[simp] theorem stored_respond (f : Family) (b : Nat) (st : Status) (r : Word) (s : State) :
    stored f b (respond st r s) = stored f b s := rfl

@[simp] theorem stored_setPending (f : Family) (b : Nat) (ws : List Work) (s : State) :
    stored f b (setPending ws s) = stored f b s := rfl

/-- Settles O31: the word read and the word written differ in the pin's field alone, and FSEL stores what is written. -/
theorem writeFunctionReadsThenWrites : Obligations.WriteFunctionReadsThenWrites := by
  intro s pin m hs hp
  have hbank := fsel_bank _ hp
  have ⟨_, _, ht⟩ := hs
  have hrun := (exec_writeFunction_eq_issueWord s hp m).trans (issueWord_readModify _ _ _ hs hbank)
  refine ⟨_, _, hrun, by simp [AnsweredOk, Responded, ht], insertField_replaced _ _ _, by simp, exec_fixedKept hrun,
    by simp, by simp, ?_, fun hreach => ?_⟩
  · exact regWrite_bytes .fsel _ _ (regRead .fsel _ (accept _ s))
  · rw [regWrite_reachable .fsel _ _ (regRead .fsel _ (accept _ s)) hbank hreach]
    simp [ctrlWrite]

/-- Where the bytes outside one register are kept, so is every other register. -/
theorem stored_of_bytesKeptExcept {f g : Family} {b c : Nat} {s t : State} (hkept : BytesKeptExcept f b s t)
    (hmapped : t.mapped = s.mapped) (hreach : Reachable s) (hb : b < nbanks f) (hc : c < nbanks g)
    (hne : (g, c) ≠ (f, b)) : stored g c t = stored g c s := by
  have hbyte : ∀ j, j < 4 → Memory.read (Memory.key (addr s.mapped g c) j) t.mem =
      Memory.read (Memory.key (addr s.mapped g c) j) s.mem := fun j hj =>
    hkept _ fun k hk => hreach ▸ keys_apart s.mapped g f c b j k hc hb hne hj hk
  rw [stored, stored, hmapped, Memory.readWord, Memory.readWord, hbyte 0 (by omega), hbyte 1 (by omega),
    hbyte 2 (by omega), hbyte 3 (by omega)]

/-- Settles O32: FSEL holds the written word, which differs from the word read in the pin's field alone, and every other
FSEL register keeps its bytes. -/
theorem writeFunctionCorruptsNoOtherPin : Obligations.WriteFunctionCorruptsNoOtherPin := by
  intro s pin m hs hreach hnone hp
  have hbank := fsel_bank _ hp
  obtain ⟨t, new, hexec, ⟨⟨-, -, -, hbusy, -, hturn⟩, hfault, -⟩, hreplaced, -, ⟨hbase, hmapped, -, -⟩, hanswers, -, hkept,
    hwrote⟩ := writeFunctionReadsThenWrites s pin m hs hp
  obtain ⟨hnew, -⟩ := hwrote hreach
  have ⟨_, hf, _⟩ := hs
  have hready : Ready t := ⟨hbusy, hfault.trans hf, hturn⟩
  have hreach' : Reachable t := hbase.trans (hreach.trans hmapped.symm)
  have hold : answer .fsel (pin.toNat / 10) s = stored .fsel (pin.toNat / 10) s :=
    answer_reachable .fsel _ s hbank hreach hnone
  have hread : answer .fsel (pin.toNat / 10) t = new :=
    (answer_reachable .fsel _ t hbank hreach' (by rw [hanswers, hnone]; rfl)).trans hnew
  have hfield : fieldAt new (pin.toNat % 10 * 3) = encodeFunction m := by
    rw [fieldAt_replaced hreplaced, if_pos rfl]
  refine ⟨t, _, hexec, hread ▸ hreplaced, ?_, fun q hq hne => ?_,
    exec_readFunction_of_field hready hp (hread.symm ▸ hfield), rfl⟩
  · rw [pinField3, hnew, hfield]
  · by_cases hsame : q / 10 = pin.toNat / 10
    · rw [pinField3, pinField3, hsame, hnew, fieldAt_replaced hreplaced, if_neg (by omega), hold]
    · have hother : (Family.fsel, q / 10) ≠ (Family.fsel, pin.toNat / 10) := fun h => hsame (congrArg Prod.snd h)
      rw [pinField3, pinField3, stored_of_bytesKeptExcept hkept hmapped hreach hbank (fsel_bank q hq) hother]

end Sys2Proof.Machine

/-! The pull protocol family: the events of a command whose work reads nothing, applied one after the other
(43_pull_protocol R120, R121), where CONFIGURE_PULL stands between them (R122), what it leaves in the pull registers
(R125), and what it does to a pin whose clock is asserted when it starts (R127). -/

namespace Sys2Proof.Machine

open Sys2Proof.Safety

/-! ### The events of blind work -/

/-- What the event of a piece of work does to the state, the work it leaves aside. -/
def Work.effect (w : Work) (s : State) : State :=
  match w with
  | .readModify b _ _ | .readField b _ => regRead .fsel b s
  | .readBit b _ => regRead .lev b s
  | .write f b v after => setPhase after (regWrite f b v (meetClocks after s))
  | .delay => delaySettle s
  | .respond st r => Machine.respond st r s
  | .raise k => raiseFault k s

/-- The effects of a list of work, first entry first. -/
def runWork (ws : List Work) (s : State) : State := ws.foldl (fun u w => w.effect u) s

@[simp] theorem runWork_nil (s : State) : runWork [] s = s := rfl

@[simp] theorem runWork_cons (w : Work) (ws : List Work) (s : State) :
    runWork (w :: ws) s = runWork ws (w.effect s) := rfl

theorem setPhase_setPending (p : Option Phase) (ws : List Work) (s : State) :
    setPhase p (setPending ws s) = setPending ws (setPhase p s) := by cases p <;> rfl

theorem meetClocks_setPending (p : Option Phase) (ws : List Work) (s : State) :
    meetClocks p (setPending ws s) = setPending ws (meetClocks p s) := by
  unfold meetClocks
  split
  · exact (apply_ite (setPending ws) (s.base = s.mapped) (staleClocks s) s).symm
  · rfl

theorem delaySettle_setPending (ws : List Work) (s : State) :
    delaySettle (setPending ws s) = setPending ws (delaySettle s) := by
  unfold delaySettle
  rw [setPending_delays]
  split <;> rfl

/-- Work that reads nothing has its effect and leaves the other work as it is. -/
theorem perform_blind {w : Work} (hw : w.Blind) (ws : List Work) (s : State) :
    perform w (setPending ws s) = .next (setPending ws (w.effect s)) := by
  obtain ⟨hbank, hreads⟩ := hw
  cases w with
  | readModify | readField | readBit => cases hreads
  | write f b v after =>
    have hdone : perform (.write f b v after) (setPending ws s) =
        .next (setPhase after (regWrite f b v (meetClocks after (setPending ws s)))) := if_pos hbank
    rw [hdone, meetClocks_setPending, regWrite_setPending, setPhase_setPending]
    rfl
  | delay => exact congrArg Host.Outcome.next (delaySettle_setPending ws s)
  | respond st r => rfl
  | raise k => rfl

/-- The first k events of blind work: the effects of the first k entries, and the others left. -/
theorem runEvents_blind_eq (k : Nat) {ws : List Work} (hws : ∀ w ∈ ws, w.Blind) (s : State) :
    runEvents k (setPending ws s) = .next (setPending (ws.drop k) (runWork (ws.take k) s)) := by
  induction k generalizing ws s with
  | zero => rfl
  | succ k ih =>
    cases ws with
    | nil => exact runEvents_done (k + 1) _ rfl
    | cons w ws =>
      obtain ⟨hw, hrest⟩ := List.forall_mem_cons.mp hws
      exact (runEvents_step k (setPending (w :: ws) s) _ w ws rfl (perform_blind hw ws s)).trans (ih hrest (w.effect s))

theorem effect_trace {w : Work} (hw : w.Blind) (v : Word) (s : State) :
    (w.effect s).trace = s.trace ++ [w.event v] := by
  obtain ⟨-, hreads⟩ := hw
  cases w with
  | readModify | readField | readBit => cases hreads
  | write | delay | respond | raise => simp [Work.effect, Work.event]

/-- Blind work logs the events of its entries, in order. -/
theorem runWork_trace {ws : List Work} (hws : ∀ w ∈ ws, w.Blind) (v : Word) (s : State) :
    (runWork ws s).trace = s.trace ++ ws.map (Work.event v) := by
  induction ws generalizing s with
  | nil => simp
  | cons w ws ih =>
    obtain ⟨hw, hrest⟩ := List.forall_mem_cons.mp hws
    simp [ih hrest, effect_trace hw v]

/-! ### The sequence of CONFIGURE_PULL (43_pull_protocol R120, R122) -/

section
variable {pin : Octet} {s : State} (st : PullState) (hp : pin.toNat ≤ 53)
include hp

theorem exec_configurePull_eq_issueWord (s : State) :
    exec (.configurePull pin st) s =
      issueWord (encode (.configurePull pin st)) (pullSequence st (pinBit pin.toNat)) s := by
  rw [exec, execConfigurePull, resolvePudclk_valid pin hp]
  rfl

/-- A ready block runs the whole sequence. -/
theorem exec_configurePull_ready (hs : Ready s) :
    exec (.configurePull pin st) s = .next (setPending []
      (runWork (pullSequence st (pinBit pin.toNat)) (accept (encode (.configurePull pin st)) s))) := by
  obtain ⟨hb, hf, ht⟩ := hs
  rw [exec_configurePull_eq_issueWord st hp, issueWord_ready _ _ s hb hf ht]
  exact runEvents_blind_eq 7 (pullSequence_blind st hp) _

/-- The sequence stopped after k events. -/
theorem exec_configurePull_stopped (k : Nat) (hb : s.busy = false) (hf : s.fault = none) :
    exec (.configurePull pin st) (setTurn (some k) s) =
      .next (setPending ((pullSequence st (pinBit pin.toNat)).drop k)
        (runWork ((pullSequence st (pinBit pin.toNat)).take k)
          (setTurn none (accept (encode (.configurePull pin st)) s)))) := by
  rw [exec_configurePull_eq_issueWord st hp, issueWord_turn _ _ (setTurn (some k) s) k hb hf rfl]
  exact runEvents_blind_eq k (pullSequence_blind st hp) (setTurn none (accept _ s))

end

/-- The number of events made of a sequence of seven. -/
theorem eventCount_cases {k : Nat} (hk : k ≤ 7) :
    k = 0 ∨ k = 1 ∨ k = 2 ∨ k = 3 ∨ k = 4 ∨ k = 5 ∨ k = 6 ∨ k = 7 := by omega

/-- PHASE after each number of events of the sequence, begun in Idle (43_pull_protocol R122). -/
theorem runWork_pullSequence_take_phase (st : PullState) (l : Location) {k : Nat} {s : State} (hk : k ≤ 7)
    (hphase : s.phase = .idle) :
    (runWork ((pullSequence st l).take k) s).phase =
      [.idle, .pudWritten, .pudWritten, .clockAsserted, .clockAsserted, .clockAsserted, .idle, .idle].getD k
        Phase.idle := by
  obtain rfl | rfl | rfl | rfl | rfl | rfl | rfl | rfl := eventCount_cases hk <;>
    simp [pullSequence, Work.effect, hphase]

/-- Only the seventh event, the response, ends the command. -/
theorem runWork_pullSequence_take_busy (st : PullState) (l : Location) {k : Nat} {s : State} (hk : k ≤ 7)
    (hbusy : s.busy = true) : (runWork ((pullSequence st l).take k) s).busy = decide (k < 7) := by
  obtain rfl | rfl | rfl | rfl | rfl | rfl | rfl | rfl := eventCount_cases hk <;>
    simp [pullSequence, Work.effect, hbusy]

/-- Settles O40: PHASE moves at the first, third and sixth event, and BUSY falls with the seventh. -/
theorem configurePullPhases : Obligations.ConfigurePullPhases := by
  intro s pin st k hb hf hphase hp hk
  have hblind : ∀ w ∈ (pullSequence st (pinBit pin.toNat)).take k, w.Blind := fun w hw =>
    pullSequence_blind st hp w (List.mem_of_mem_take hw)
  exact ⟨_, exec_configurePull_stopped st hp k hb hf, runWork_pullSequence_take_phase st _ hk hphase,
    runWork_pullSequence_take_busy st _ hk rfl, _, runWork_trace hblind 0#32 _, by simp [pullSequence, hk]⟩

/-! ### What the sequence leaves alone (43_pull_protocol R121) -/

/-- Where BASE reaches the register block, only SET and CLR drive output values (20_memory R41). -/
theorem regWrite_outl {f : Family} {b : Nat} (v : Word) {s : State} (hb : b < nbanks f) (hreach : s.base = s.mapped)
    (hset : f ≠ .set) (hclr : f ≠ .clr) : (regWrite f b v s).outl = s.outl := by
  rw [regWrite_reachable f b v s hb hreach]
  cases f <;> first | contradiction | rfl

theorem pullSequence_outl (st : PullState) {p : Nat} {s : State} (hp : p ≤ 53) (hreach : s.base = s.mapped) :
    (runWork (pullSequence st (pinBit p)) s).outl = s.outl := by
  have hbank : p / 32 < nbanks .pudclk := two_banks .pudclk p hp rfl
  have hpud : 0 < nbanks .pud := by decide
  simp [pullSequence, pinBit, Work.effect, regWrite_outl, hreach, hbank, hpud]

/-- The sequence writes at the addresses of PUD[0] and of the pin's PUDCLK bank only. -/
theorem pullSequence_bytes (st : PullState) (l : Location) (s : State) {a : Nat}
    (hpud : ∀ k, k < 4 → a ≠ Memory.key (addr s.base .pud 0) k)
    (hclk : ∀ k, k < 4 → a ≠ Memory.key (addr s.base .pudclk l.bank) k) :
    Memory.read a (runWork (pullSequence st l) s).mem = Memory.read a s.mem := by
  have hpudWrite : ∀ v u, u.base = s.base → Memory.read a (regWrite .pud 0 v u).mem = Memory.read a u.mem :=
    fun v u hu => regWrite_bytes .pud 0 v u a (hu ▸ hpud)
  have hclkWrite : ∀ v u, u.base = s.base → Memory.read a (regWrite .pudclk l.bank v u).mem = Memory.read a u.mem :=
    fun v u hu => regWrite_bytes .pudclk l.bank v u a (hu ▸ hclk)
  simp [pullSequence, Work.effect, hpudWrite, hclkWrite]

/-- The events of the sequence, by the state's ordinal and the pin (43_pull_protocol R121). -/
theorem pullSequence_events (st : PullState) (p : Nat) :
    (pullSequence st (pinBit p)).map (Work.event 0#32) =
      [.wr .pud 0 (BitVec.ofNat 32 (stateOrdinal st)), .dly .settle,
        .wr .pudclk (p / 32) (BitVec.ofNat 32 (2 ^ (p % 32))), .dly .settle, .wr .pud 0 0#32, .wr .pudclk (p / 32) 0#32,
        .rsp .ok 0#32] := by
  rw [← pullWord_eq, ← oneBit_eq _ (Nat.mod_lt p (by omega))]
  rfl

/-- Settles O39: the sequence is blind, so it logs its own seven events; each of its writes is at PUD[0] or at the pin's
PUDCLK bank. -/
theorem configurePullEvents : Obligations.ConfigurePullEvents := by
  intro s pin st hs hp
  have hrun := exec_configurePull_ready st hp hs
  have ⟨_, _, ht⟩ := hs
  refine ⟨_, hrun, ⟨⟨?_, ?_⟩, ?_⟩, ?_, exec_fixedKept hrun, ?_, ?_,
    fun hreach => ?_, fun a hpud hclk => ?_⟩
  · rw [setPending_trace, runWork_trace (pullSequence_blind st hp) 0#32, pullSequence_events]
    simp
  · simp [pullSequence, Work.effect, ht]
  · simp [pullSequence, Work.effect]
  · simp [pullSequence, Work.effect]
  · simp [pullSequence, Work.effect]
  · simp [pullSequence, Work.effect, ← List.drop_one]
  · rw [setPending_outl]
    exact pullSequence_outl st hp (s := accept _ s) hreach
  · rw [setPending_mem]
    exact pullSequence_bytes st _ (accept _ s) hpud hclk

/-! ### The pull registers after the sequence (43_pull_protocol R125) -/

@[simp] theorem stored_delaySettle (f : Family) (b : Nat) (s : State) : stored f b (delaySettle s) = stored f b s := by
  simp [stored]

@[simp] theorem stored_setPhase (f : Family) (b : Nat) (p : Option Phase) (s : State) :
    stored f b (setPhase p s) = stored f b s := by simp [stored]

@[simp] theorem stored_meetClocks (f : Family) (b : Nat) (p : Option Phase) (s : State) :
    stored f b (meetClocks p s) = stored f b s := by simp [stored]

@[simp] theorem stored_accept (f : Family) (b : Nat) (w : Word) (s : State) :
    stored f b (accept w s) = stored f b s := rfl

/-- A pull register holds the word written to it, where BASE reaches it. -/
theorem stored_regWrite_same {f : Family} {b : Nat} (v : Word) {s : State} (hf : f = .pud ∨ f = .pudclk)
    (hb : b < nbanks f) (hreach : s.base = s.mapped) : stored f b (regWrite f b v s) = v := by
  rw [regWrite_reachable f b v s hb hreach]
  rcases hf with rfl | rfl <;> exact stored_store_same _ _ _ _

theorem stored_regWrite_other {f g : Family} {b c : Nat} (v : Word) {s : State} (hreach : s.base = s.mapped)
    (hb : b < nbanks f) (hc : c < nbanks g) (hne : (g, c) ≠ (f, b)) :
    stored g c (regWrite f b v s) = stored g c s :=
  stored_of_bytesKeptExcept (regWrite_bytes f b v s) (regWrite_mapped f b v s) hreach hb hc hne

/-- Settles O41: the last two writes put 0 in PUD[0] and in the pin's PUDCLK bank, and no write names the other bank. -/
theorem configurePullLeavesThePullRegistersClear : Obligations.ConfigurePullLeavesThePullRegistersClear := by
  intro s pin st hs hreach hp
  have hbank : pin.toNat / 32 < nbanks .pudclk := two_banks .pudclk _ hp rfl
  have hother : 1 - pin.toNat / 32 < nbanks .pudclk := Nat.lt_succ_of_le (Nat.sub_le 1 _)
  have hne : 1 - pin.toNat / 32 ≠ pin.toNat / 32 := by omega
  have hpud : 0 < nbanks .pud := by decide
  refine ⟨_, exec_configurePull_ready st hp hs, ?_, ?_, ?_⟩ <;>
    simp [pullSequence, pinBit, Work.effect, stored_regWrite_same, stored_regWrite_other, hreach, hbank, hother, hne,
      hpud]

/-! ### One pin in the sequence (70_reset R172) -/

/-- Where BASE reaches the register block: valid pin q's latch, its clock bit, and the next index of the free values. -/
structure PinAt (q : Nat) (l : PinLatch) (clk : Bool) (n : Nat) (s : State) : Prop where
  valid : q ≤ 53
  reach : s.base = s.mapped
  latch : s.pins[q]? = some l
  clock : clockBit q s = clk
  fresh : s.fresh = n

theorem clockBit_regWrite_pud {q : Nat} (v : Word) {s : State} (hq : q ≤ 53) (hreach : s.base = s.mapped) :
    clockBit q (regWrite .pud 0 v s) = clockBit q s := by
  rw [clockBit, stored_regWrite_other v hreach (by decide) (two_banks .pudclk q hq rfl) (by simp), clockBit]

theorem clockBit_regWrite_pudclk {b q : Nat} (v : Word) {s : State} (hb : b < nbanks .pudclk) (hq : q ≤ 53)
    (hreach : s.base = s.mapped) :
    clockBit q (regWrite .pudclk b v s) = if q / 32 = b then v.getLsbD (q % 32) else clockBit q s := by
  split
  · next h => rw [clockBit, h, stored_regWrite_same v (.inr rfl) hb hreach]
  · next h => rw [clockBit, stored_regWrite_other v hreach hb (two_banks .pudclk q hq rfl) (by simp [h]), clockBit]

theorem delaySettle_pins (s : State) : (delaySettle s).pins =
    if s.delays.head? = some .short then s.pins else mapPins (fun _ l => latchOnSettle l) 0 s.pins := by
  unfold delaySettle
  split
  · next h => simp [h]
  · next h =>
    rw [if_neg fun hshort => ?_]
    · rfl
    · obtain ⟨later, hdelays⟩ := List.head?_eq_some_iff.mp hshort
      exact h later hdelays

theorem latchOnClock_spoiled (bit : Bool) (pattern : Option PullState) (free pull : PinPull) :
    latchOnClock bit pattern free ⟨pull, .spoiled⟩ = ⟨free, if bit then .spoiled else .touched⟩ := by
  cases bit <;> rfl

/-- Clearing a clock does not look at PUD's pattern. -/
theorem latchOnClock_false (pattern : Option PullState) (free : PinPull) (l : PinLatch) :
    latchOnClock false pattern free l = latchOnClock false none free l := by
  obtain ⟨pull, stage⟩ := l
  cases stage <;> rfl

namespace PinAt
variable {q n : Nat} {l : PinLatch} {clk : Bool} {s : State}

/-- A write of PUD. -/
theorem pudWrite (v : Word) (h : PinAt q l clk n s) :
    PinAt q (latchOnPud v clk (Config.freePull (n + q)) l) clk (n + 54) (regWrite .pud 0 v s) := by
  obtain ⟨hq, hreach, hlatch, rfl, rfl⟩ := h
  refine ⟨hq, by simpa using hreach, ?_, clockBit_regWrite_pud v hq hreach, ?_⟩ <;>
    rw [regWrite_reachable .pud 0 v s (by decide) hreach, ctrlWrite]
  · rw [store_pins, pudWritten_pins, mapPins_getElem?, logEvent_pins, hlatch, Nat.zero_add]
    rfl
  · rfl

/-- A write of a PUDCLK bank. -/
theorem clockWrite {b : Nat} (v : Word) (hb : b < nbanks .pudclk) (h : PinAt q l clk n s) :
    PinAt q
      (if q / 32 = b then latchOnClock (v.getLsbD (q % 32)) (settledPattern s) (Config.freePull (n + q)) l else l)
      (if q / 32 = b then v.getLsbD (q % 32) else clk) (n + 54) (regWrite .pudclk b v s) := by
  obtain ⟨hq, hreach, hlatch, rfl, rfl⟩ := h
  refine ⟨hq, by simpa using hreach, ?_, clockBit_regWrite_pudclk v hb hq hreach, ?_⟩ <;>
    rw [regWrite_reachable .pudclk b v s hb hreach, ctrlWrite]
  · rw [store_pins, clockWritten, mapPins_getElem?, logEvent_pins, hlatch, Nat.zero_add]
    rfl
  · rfl

/-- The first write of a CONFIGURE_PULL meets an asserted clock outside its sequence (43_pull_protocol R127). -/
theorem firstPudWrite (v : Word) (h : PinAt q l clk n s) :
    PinAt q (if clk then ⟨Config.freePull (n + q), .spoiled⟩ else { l with stage := .ready }) clk (n + 54)
      (regWrite .pud 0 v (meetClocks (some .pudWritten) s)) := by
  rw [meetClocks_reachable s h.reach, ← latchOnPud_stale v]
  obtain ⟨hq, hreach, hlatch, rfl, rfl⟩ := h
  refine pudWrite v ⟨hq, hreach, ?_, rfl, rfl⟩
  rw [staleClocks, mapPins_getElem?, hlatch, Nat.zero_add]
  rfl

/-- A delay, full or short. -/
theorem delay (h : PinAt q l clk n s) :
    PinAt q (if s.delays.head? = some .short then l else latchOnSettle l) clk n (delaySettle s) := by
  obtain ⟨hq, hreach, hlatch, rfl, rfl⟩ := h
  refine ⟨hq, by simpa using hreach, ?_, by simp [clockBit], by simp⟩
  rw [delaySettle_pins]
  split
  · exact hlatch
  · rw [mapPins_getElem?, hlatch]
    rfl

theorem setPhase (p : Option Phase) (h : PinAt q l clk n s) : PinAt q l clk n (setPhase p s) := by
  cases p <;> exact ⟨h.valid, h.reach, h.latch, h.clock, h.fresh⟩

/-- The two events up to PudWritten's settle time, where the pin's clock is asserted: the pull is the free value of the
first write. -/
theorem pudPhase (st : PullState) (k : Location) (h : PinAt q l true n s) :
    PinAt q ⟨Config.freePull (n + q), .spoiled⟩ true (n + 54) (runWork ((pullSequence st k).take 2) s) := by
  have hdelay := ((h.firstPudWrite (pullWord st)).setPhase (some .pudWritten)).delay
  simpa [latchOnSettle, pullSequence, Work.effect] using hdelay

/-- The third event, where the pin's sequence is spoiled: it draws a free value for every pin of its bank, and clears the
clock of all of them but the command's. -/
theorem assertClock {pull : PinPull} {p : Nat} (hp : p ≤ 53) (h : PinAt q ⟨pull, .spoiled⟩ true n s) :
    PinAt q
      (if q / 32 = p / 32 then ⟨Config.freePull (n + q), if q = p then .spoiled else .touched⟩ else ⟨pull, .spoiled⟩)
      (decide (q / 32 = p / 32 → q = p)) (n + 54)
      (Work.effect (.write .pudclk (p / 32) (oneBit (p % 32)) (some .clockAsserted)) s) := by
  have hwrite := (h.clockWrite (oneBit (p % 32)) (two_banks .pudclk p hp rfl)).setPhase (some .clockAsserted)
  rw [oneBit_getLsbD _ _ (Nat.mod_lt _ (by omega)), latchOnClock_spoiled] at hwrite
  by_cases hbank : q / 32 = p / 32
  · have hpin : q % 32 = p % 32 ↔ q = p := by omega
    simpa [hbank, hpin, Work.effect] using hwrite
  · simpa [hbank, Work.effect] using hwrite

/-- The last four events: the second settle time, PUD back to 0, the bank's clocks back to 0, the response. -/
theorem clears (st : PullState) {p : Nat} (hp : p ≤ 53) (hsettle : latchOnSettle l = l) (h : PinAt q l clk n s) :
    PinAt q
      (if q / 32 = p / 32 then
        latchOnClock false none (Config.freePull (n + 54 + q)) (latchOnPud 0#32 clk (Config.freePull (n + q)) l)
       else latchOnPud 0#32 clk (Config.freePull (n + q)) l)
      (if q / 32 = p / 32 then false else clk) (n + 108) (runWork ((pullSequence st (pinBit p)).drop 3) s) := by
  have hdelay := h.delay
  rw [hsettle, ite_self] at hdelay
  obtain ⟨hq, hreach, hlatch, hclock, hfresh⟩ := (hdelay.pudWrite 0#32).clockWrite 0#32 (two_banks .pudclk p hp rfl)
  rw [BitVec.getLsbD_zero] at hlatch hclock
  rw [latchOnClock_false] at hlatch
  exact ⟨hq, hreach, hlatch, hclock, hfresh⟩

end PinAt

/-- A pin whose clock is asserted when the sequence starts ends with the free value of the last write that broke its
latch: for the command's pin the end of its clock, for another of the bank the command's clock, else the end of PUD. -/
theorem pullSequence_assertedClock (st : PullState) {p q n : Nat} {l : PinLatch} {s : State} (hp : p ≤ 53)
    (h : PinAt q l true n s) :
    ((runWork (pullSequence st (pinBit p)) s).pins[q]?).map PinLatch.pull = some (Config.freePull
      (n + (if q = p then 162 else if q / 32 = p / 32 then 54 else 108) + q)) := by
  have hclock := (h.pudPhase st (pinBit p)).assertClock hp
  have hrun : runWork (pullSequence st (pinBit p)) s = runWork ((pullSequence st (pinBit p)).drop 3) (Work.effect
      (.write .pudclk (p / 32) (oneBit (p % 32)) (some .clockAsserted))
      (runWork ((pullSequence st (pinBit p)).take 2) s)) := rfl
  have hlatch := (hclock.clears st hp (by (repeat' split) <;> rfl)).latch
  rw [hrun, hlatch]
  by_cases hpin : q = p
  · simp [hpin, latchOnPud, latchOnClock]
  · by_cases hbank : q / 32 = p / 32 <;> simp [hpin, hbank, latchOnPud, latchOnClock]

/-- Settles O46: the clock spoils the pin's latch at the first write of PUD, and no event of the sequence mends it. -/
theorem assertedClocksTakeAFreePull : Obligations.AssertedClocksTakeAFreePull := by
  intro s pin st q hs hreach hp hq hclock hlength
  have hpins : s.pins[q]? = some s.pins[q] := List.getElem?_eq_getElem (by omega)
  have hstart : PinAt q s.pins[q] true s.fresh (accept (encode (.configurePull pin st)) s) :=
    ⟨hq, hreach, hpins, hclock, rfl⟩
  refine ⟨_, exec_configurePull_ready st hp hs, ?_, ?_⟩
  · simp [pullSequence, Work.effect]
  · rw [setPending_pins]
    exact pullSequence_assertedClock st hp hstart

end Sys2Proof.Machine

/-! The exceptions family: fault entry (60_exceptions R146, R147) by an ill-formed word (R144), an invalid pin (R142) and
an undefined pattern (R143), the refusal after a fault (R148), and the order of the checks (R145). -/

namespace Sys2Proof.Machine

open Sys2Proof.Safety

/-! ### Fault entry and refusal -/

/-- A ready block that raises a fault at once enters it and changes nothing else (60_exceptions R146, R147). -/
theorem issueWord_raise_faulted (w : Word) (k : FaultKind) {s : State} (hs : Ready s) :
    ∃ t, issueWord w [.raise k] s = .next t ∧ Faulted s t w k := by
  obtain ⟨hb, hf, ht⟩ := hs
  refine ⟨_, issueWord_raises w k s hb hf ht, ?_⟩
  simp [Faulted, Responded, FixedKept, RegistersKept, AnswersKept, ht]

/-- An ill-formed word is issued with the fault as its work (30_encoding R55). -/
theorem takeCommand_of_decode_error {w : Word} {e : DecodeError} {s : State} (hc : configOk s.base = true)
    (hd : decode w = .error e) : takeCommand w s = issueWord w [.raise .illegalCommand] s := by
  simp [takeCommand, hc, hd, issueIllegal]

/-- Every word is issued with some work, well formed or not. -/
theorem takeCommand_issues (w : Word) {s : State} (hc : configOk s.base = true) :
    ∃ ws, takeCommand w s = issueWord w ws s := by
  cases hd : decode w with
  | ok i =>
    obtain ⟨ws, -, hexec⟩ := exec_issues i
    exact ⟨ws, by rw [takeCommand_of_decode hc hd, hexec, encode_of_decode hd]⟩
  | error e => exact ⟨_, takeCommand_of_decode_error hc hd⟩

/-- Settles O49: whatever the word's work is, the block does the refusal in its place. -/
theorem faultedBlockRefusesEveryWord : Obligations.FaultedBlockRefusesEveryWord := by
  intro s w k rest hin hb hf hc
  obtain ⟨ws, hissue⟩ := takeCommand_issues w (s := setTurn none (setInputs rest s)) hc
  refine ⟨_, (step_command_idle hin hb).trans (hissue.trans (issueWord_faulted w ws _ k hb hf rfl)), ?_⟩
  simp [Responded, FixedKept, RegistersKept, AnswersKept, hf]

/-! ### A block with a fault only refuses (60_exceptions R148) -/

/-- From `s` to `t` the fault record is kept, and only refusals have been logged. -/
structure OnlyRefused (s t : State) : Prop where
  fault : t.fault = s.fault
  finfo : t.finfo = s.finfo
  trace : ∃ es, t.trace = s.trace ++ es ∧ ∀ e ∈ es, e = .rsp .faulted 0#32

theorem OnlyRefused.refl (s : State) : OnlyRefused s s := ⟨rfl, rfl, [], by simp, by simp⟩

theorem OnlyRefused.trans {s t u : State} (hst : OnlyRefused s t) (htu : OnlyRefused t u) : OnlyRefused s u := by
  obtain ⟨hfault, hfinfo, es, htrace, hes⟩ := hst
  obtain ⟨hufault, hufinfo, fs, hutrace, hfs⟩ := htu
  exact ⟨hufault.trans hfault, hufinfo.trans hfinfo, es ++ fs, by simp [hutrace, htrace],
    fun e he => (List.mem_append.mp he).elim (hes e) (hfs e)⟩

/-- The only event of a command that fits a standing fault is the refusal. -/
theorem EventDone.onlyRefused {s t : State} (h : EventDone s t) (hf : s.fault ≠ none) : OnlyRefused s t := by
  obtain ⟨-, e, htrace, -, hfits⟩ := h
  cases e with
  | rsp st r =>
    obtain ⟨-, hfaulted, -⟩ := hfits
    obtain ⟨hfault, hfinfo, he⟩ := hfaulted hf
    exact ⟨hfault, hfinfo, _, htrace, List.forall_mem_singleton.mpr he⟩
  | rd | wr | dly =>
    obtain ⟨-, hnone, -⟩ := hfits
    exact absurd hnone hf

theorem runEvents_onlyRefused {n : Nat} {s t : State} (hs : MachineInv s) (hf : s.fault ≠ none)
    (h : runEvents n s = .next t) : OnlyRefused s t := by
  refine (runEvents_keeps (fun u => MachineInv u ∧ OnlyRefused s u) ?_ n s t ⟨hs, .refl s⟩ h).2
  rintro u v w ws ⟨hu, hsu⟩ hpending hperform
  obtain ⟨v', hv', hdone⟩ := perform_done u hu w ws hpending
  cases hperform.symm.trans hv'
  exact ⟨hdone.1, hsu.trans (hdone.onlyRefused (hsu.fault ▸ hf))⟩

/-- Settles O50: no step but a reset begins its events with another fault record, and each event is a refusal. -/
theorem onlyResetEndsAFault : Obligations.OnlyResetEndsAFault := by
  intro s t k hs hf hreset hstep
  obtain hrefused | ⟨n, u, hturn, hinv, htrace, ⟨hfault, hfinfo⟩ | ⟨-, base, rest, hin⟩⟩ := step_turnOf s hs
  · cases hstep.symm.trans hrefused
  · have huf : u.fault = some k := hfault.trans hf
    obtain ⟨htfault, htfinfo, hlogged⟩ := runEvents_onlyRefused hinv (by simp [huf]) (hturn.symm.trans hstep)
    exact ⟨htfault.trans huf, htfinfo.trans hfinfo, htrace ▸ hlogged⟩
  · exact absurd hin (hreset base rest)

/-! ### The fault of an ill-formed word -/

theorem exists_decode_error {w : Word} (h : WellFormed.wordOk w = false) : ∃ e, decode w = .error e := by
  cases hd : decode w with
  | error e => exact ⟨e, rfl⟩
  | ok i =>
    rw [← encode_of_decode hd, wordOk_encode] at h
    cases h

/-- Settles O7: the decoder has no command for the word, so all the block does is raise the fault. -/
theorem illFormedWordIsIllegalCommand : Obligations.IllFormedWordIsIllegalCommand := by
  intro s w rest hin hb hf hc hw
  obtain ⟨e, he⟩ := exists_decode_error hw
  have hready : Ready (setTurn none (setInputs rest s)) := ⟨hb, hf, rfl⟩
  obtain ⟨t, ht, hfaulted⟩ := issueWord_raise_faulted w .illegalCommand hready
  have htake := takeCommand_of_decode_error (s := setTurn none (setInputs rest s)) hc he
  exact ⟨t, (step_command_idle hin hb).trans (htake.trans ht), hfaulted⟩

/-! ### The fault of a command's operands -/

/-- The fault a command's operands raise, if any: an undefined pattern (60_exceptions R143) or a pin above 53 (R142). -/
def operandFault (i : Instr) : Option FaultKind :=
  match i with
  | .decodeFunction p => if 7 < p.toNat then some .unknownEncoding else none
  | .decodePull p => if 2 < p.toNat then some .unknownEncoding else none
  | i => (pinOperand i).bind fun pin => if 53 < pin.toNat then some .invalidPin else none

theorem operandFault_eq_invalidPin_iff {i : Instr} :
    operandFault i = some .invalidPin ↔ ∃ pin, pinOperand i = some pin ∧ 53 < pin.toNat := by
  cases i <;> simp [operandFault, pinOperand]

theorem operandFault_eq_unknownEncoding_iff {i : Instr} : operandFault i = some .unknownEncoding ↔
    (∃ p, i = .decodeFunction p ∧ 7 < p.toNat) ∨ ∃ p, i = .decodePull p ∧ 2 < p.toNat := by
  cases i <;> simp [operandFault, pinOperand]

theorem operandFault_ne_illegalCommand (i : Instr) : operandFault i ≠ some .illegalCommand := by
  cases i <;> simp [operandFault, pinOperand]

/-- The locator function comes first in every command with a pin operand (60_exceptions R142). -/
theorem exec_of_invalidPin {i : Instr} {pin : Octet} (hi : pinOperand i = some pin) (hp : 53 < pin.toNat) (s : State) :
    exec i s = issueWord (encode i) [.raise .invalidPin] s := by
  have raised : ∀ {r : Except FaultKind Location} {work : Location → List Work}, r = .error .invalidPin →
      exec i s = issueWord (encode i) (atLocation r work) s →
      exec i s = issueWord (encode i) [.raise .invalidPin] s := by
    rintro r work rfl hexec
    exact hexec
  cases i with
  | resolveFsel | writeFunction | readFunction =>
    cases hi
    exact raised (resolveFunctionSelect_invalid pin hp) rfl
  | resolveBit | setPin | clearPin | readLevel =>
    cases hi
    exact raised (resolveBitRegister_invalid pin hp) rfl
  | resolvePudclk | configurePull =>
    cases hi
    exact raised (resolvePudclk_invalid pin hp) rfl
  | encodeFunction | decodeFunction | encodePull | decodePull => cases hi

/-- A command whose operands raise a fault has nothing else to do. -/
theorem exec_of_operandFault {i : Instr} {k : FaultKind} (h : operandFault i = some k) (s : State) :
    exec i s = issueWord (encode i) [.raise k] s := by
  cases k with
  | invalidPin =>
    obtain ⟨pin, hi, hp⟩ := operandFault_eq_invalidPin_iff.mp h
    exact exec_of_invalidPin hi hp s
  | unknownEncoding =>
    obtain ⟨p, rfl, hp⟩ | ⟨p, rfl, hp⟩ := operandFault_eq_unknownEncoding_iff.mp h
    · rw [exec, execDecodeFunction, decodeFunction_undefined _ hp]
      rfl
    · rw [exec, execDecodePull, decodePull_undefined _ hp]
      rfl
  | illegalCommand => exact absurd h (operandFault_ne_illegalCommand i)

theorem exec_faulted {i : Instr} {k : FaultKind} {s : State} (hs : Ready s) (h : operandFault i = some k) :
    ∃ t, exec i s = .next t ∧ Faulted s t (encode i) k := by
  rw [exec_of_operandFault h]
  exact issueWord_raise_faulted (encode i) k hs

/-- The command ends with an OK response, whatever its events and its result are. -/
def EndsOk (i : Instr) (s : State) : Prop := ∃ t es r, exec i s = .next t ∧ AnsweredOk s t i es r

theorem EndsOk.of_result {i : Instr} {s : State} {es : List Event} {r : Word} {P : State → Prop}
    (h : ∃ t, exec i s = .next t ∧ AnsweredOk s t i es r ∧ P t) : EndsOk i s := by
  obtain ⟨t, hexec, hok, -⟩ := h
  exact ⟨t, es, r, hexec, hok⟩

/-- A ready block answers OK where the operands raise no fault: each command's own result says so. -/
theorem exec_endsOk {i : Instr} {s : State} (hs : Ready s) (h : operandFault i = none) : EndsOk i s := by
  have valid : ∀ pin, pinOperand i = some pin → pin.toNat ≤ 53 := fun pin hi =>
    Nat.le_of_not_lt fun hp => by simpa [h] using operandFault_eq_invalidPin_iff.mpr ⟨pin, hi, hp⟩
  cases i with
  | resolveFsel pin => exact .of_result (resolveFselResult s pin hs (valid pin rfl))
  | resolveBit pin => exact .of_result (singleBitLocatorResults s pin _ hs (valid pin rfl) (.inl rfl))
  | resolvePudclk pin => exact .of_result (singleBitLocatorResults s pin _ hs (valid pin rfl) (.inr rfl))
  | encodeFunction m => exact .of_result (encodeFunctionResult s m hs)
  | decodeFunction p => exact .of_result (decodeFunctionResult s p hs (by simpa [operandFault] using h))
  | writeFunction pin m =>
    obtain ⟨t, new, hexec, hok, -⟩ := writeFunctionReadsThenWrites s pin m hs (valid pin rfl)
    exact ⟨t, _, _, hexec, hok⟩
  | setPin pin => exact .of_result (setPinWritesOneBit s pin hs (valid pin rfl))
  | clearPin pin => exact .of_result (clearPinWritesOneBit s pin hs (valid pin rfl))
  | readLevel pin => exact .of_result (readLevelResult s pin hs (valid pin rfl))
  | configurePull pin st => exact .of_result (configurePullEvents s pin st hs (valid pin rfl))
  | encodePull st => exact .of_result (encodePullResult s st hs)
  | decodePull p => exact .of_result (decodePullResult s p hs (by simpa [operandFault] using h))
  | readFunction pin => exact .of_result (readFunctionResult s pin hs (valid pin rfl))

/-- The fault a command leaves in a ready block is the one its operands raise. -/
theorem operandFault_of_exec {i : Instr} {s t : State} (hs : Ready s) (h : exec i s = .next t) :
    operandFault i = t.fault := by
  have ⟨_, hf, _⟩ := hs
  cases hk : operandFault i with
  | none =>
    obtain ⟨u, es, r, hu, -, hkept, -⟩ := exec_endsOk hs hk
    cases h.symm.trans hu
    exact (hkept.trans hf).symm
  | some k =>
    obtain ⟨u, hu, -, hfault, -⟩ := exec_faulted hs hk
    cases h.symm.trans hu
    exact hfault.symm

/-- Settles O47: the pin is the operand that raises the fault. -/
theorem invalidPinFaults : Obligations.InvalidPinFaults := by
  intro s i pin hs hi hp
  exact exec_faulted hs (operandFault_eq_invalidPin_iff.mpr ⟨pin, hi, hp⟩)

/-- Settles O48: either pattern raises the fault, and the fault a command leaves is the one its operands raise. -/
theorem undefinedPatternFaults : Obligations.UndefinedPatternFaults := by
  refine ⟨fun s p hs hp => ?_, fun s p hs hp => ?_, fun s t i hs h ht => ?_⟩
  · exact exec_faulted hs (operandFault_eq_unknownEncoding_iff.mpr (.inl ⟨p, rfl, hp⟩))
  · exact exec_faulted hs (operandFault_eq_unknownEncoding_iff.mpr (.inr ⟨p, rfl, hp⟩))
  · exact operandFault_eq_unknownEncoding_iff.mp ((operandFault_of_exec hs h).trans ht)

/-! ### The order of the checks (60_exceptions R145) -/

theorem faultStatus_injective {j k : FaultKind} (h : faultStatus j = faultStatus k) : j = k := by
  revert h
  cases j <;> cases k <;> decide

/-- OK and Faulted are no fault's status (60_exceptions R140). -/
theorem faultStatus_not_ok_or_faulted (k : FaultKind) : ¬(faultStatus k = .ok ∨ faultStatus k = .faulted) := by
  cases k <;> decide

theorem expectedStatus_of_fault (k : FaultKind) (w : Word) : expectedStatus (some k) w = .faulted := rfl

theorem expectedStatus_of_illFormed {w : Word} (h : WellFormed.wordOk w = false) :
    expectedStatus none w = faultStatus .illegalCommand := by
  simp [expectedStatus, h, faultStatus]

/-- Past the word's form, the fields are the operands. -/
theorem expectedStatus_encode (i : Instr) :
    expectedStatus none (encode i) = (operandFault i).elim .ok faultStatus := by
  simp only [expectedStatus, wordOk_encode]
  cases i <;> simp [encode, operandFault, pinOperand] <;> split <;> rfl

/-- The word is answered with this status, and FAULT is what the status says: the fault it names, or else as before. -/
def AnsweredWith (before : Option FaultKind) (st : Status) (o : Host.Outcome State Fault Refusal) : Prop :=
  ∃ t r, o = .next t ∧ t.response = some ⟨st, r⟩ ∧ (st = .ok ∨ st = .faulted → t.fault = before) ∧
    ∀ k, st = faultStatus k → t.fault = some k

section
variable {before : Option FaultKind} {o : Host.Outcome State Fault Refusal} {t : State}

theorem answeredWith_of_fault_kept {st : Status} {r : Word} (ho : o = .next t) (hr : t.response = some ⟨st, r⟩)
    (hst : st = .ok ∨ st = .faulted) (hf : t.fault = before) : AnsweredWith before st o := by
  refine ⟨t, r, ho, hr, fun _ => hf, fun k hk => ?_⟩
  exact absurd (hk ▸ hst) (faultStatus_not_ok_or_faulted k)

theorem answeredWith_of_faulted {s : State} {w : Word} {k : FaultKind} (ho : o = .next t) (h : Faulted s t w k) :
    AnsweredWith before (faultStatus k) o := by
  obtain ⟨⟨-, hresponse, -⟩, hfault, -⟩ := h
  exact ⟨t, _, ho, hresponse, fun hst => absurd hst (faultStatus_not_ok_or_faulted k),
    fun j hj => faultStatus_injective hj ▸ hfault⟩

end

/-- A ready block's answer to a command is decided by the operands. -/
theorem exec_answeredWith (i : Instr) {s : State} (hs : Ready s) :
    AnsweredWith none ((operandFault i).elim .ok faultStatus) (exec i s) := by
  have ⟨_, hf, _⟩ := hs
  cases hk : operandFault i with
  | none =>
    obtain ⟨t, es, r, hexec, ⟨-, hresponse, -⟩, hfault, -⟩ := exec_endsOk hs hk
    exact answeredWith_of_fault_kept hexec hresponse (.inl rfl) (hfault.trans hf)
  | some k =>
    obtain ⟨t, hexec, hfaulted⟩ := exec_faulted hs hk
    exact answeredWith_of_faulted hexec hfaulted

/-- Settles O8, check by check: the fault that stands, the word's form, the operands. -/
theorem statusFollowsTheOrderOfChecks : Obligations.StatusFollowsTheOrderOfChecks := by
  intro s w rest hin hb hc
  have answered : AnsweredWith s.fault (expectedStatus s.fault w) (step s) := by
    cases hf : s.fault with
    | some k =>
      obtain ⟨t, hstep, ⟨-, hresponse, -⟩, hfault, -⟩ := faultedBlockRefusesEveryWord s w k rest hin hb hf hc
      exact answeredWith_of_fault_kept hstep hresponse (.inr (expectedStatus_of_fault k w)) hfault
    | none =>
      cases hd : decode w with
      | error e =>
        have hw : WellFormed.wordOk w = false := wordOk_of_decode_error hd
        obtain ⟨t, hstep, hfaulted⟩ := illFormedWordIsIllegalCommand s w rest hin hb hf hc hw
        rw [expectedStatus_of_illFormed hw]
        exact answeredWith_of_faulted hstep hfaulted
      | ok i =>
        rw [stepRunsTheDecodedCommand s w none rest i hin hb hc hd, ← encode_of_decode hd, expectedStatus_encode]
        exact exec_answeredWith i ⟨hb, hf, rfl⟩
  exact answered

end Sys2Proof.Machine

/-! The reset and hazards family: host reset and the pull sequence it cuts (70_reset R160 to R162), a command cut into
turns (R166, R170), the hazards of another master's write (R171, R172) and of a short wait (R164), and the responses of
a good run (R178). -/

namespace Sys2Proof.Machine

open Sys2Proof.Safety

/-! ### Host reset (70_reset R160 to R162) -/

/-- A block that is not busy has no command to go on with. -/
theorem advance_idle (events : Option Nat) {s : State} (hb : s.busy = false) : advance events s = .next s := by
  simp [advance, hb]

/-- Settles O10: with no input the step is left to the command in progress, and there is none. -/
theorem idleBlockWaits : Obligations.IdleBlockWaits := by
  intro s hin hb
  exact (step_no_input s hin).trans (advance_idle none hb)

/-- Settles O1: what reset leaves of the register block is what the cut of a pull sequence leaves, which is all of it
when PHASE is Idle. -/
theorem hostResetSetsTheBlock : Obligations.HostResetSetsTheBlock := by
  intro s b rest hin
  refine ⟨_, step_reset s b rest hin, rfl, rfl, rfl, rfl, rfl, rfl, by simp [hostReset], by simp [hostReset],
    by simp [hostReset], by simp [hostReset], by simp [hostReset], by simp [hostReset], fun hidle => ?_⟩
  have huncut : sequenceCut (setInputs rest s) = setInputs rest s := sequenceCut_idle _ hidle
  rw [hostReset, huncut]
  exact ⟨rfl, rfl⟩

/-- A pin's entry after a reset that cuts the pull sequence: only the command's pin loses its pull. -/
theorem hostReset_latch (base : Word) {s : State} (hphase : s.phase ≠ .idle) (q : Nat) :
    (hostReset base s).pins[q]? =
      (s.pins[q]?).map fun l => if q = commandPin s.cmd then ⟨freePull s q, cutStage l.stage⟩ else l := by
  simp [hostReset, sequenceCut_eq s hphase, spoilPins, mapPins_getElem?]

theorem hostReset_pudStage (base : Word) {s : State} (hphase : s.phase ≠ .idle) :
    (hostReset base s).pudStage = if commandPattern s.cmd = some (stored .pud 0 s) then .stale else s.pudStage := by
  simp [hostReset, sequenceCut_eq s hphase, ← pudHoldsPattern_iff]

/-- Settles O2: the cut looks at the command's pin and at the word in PUD. -/
theorem hostResetCutsTheSequence : Obligations.HostResetCutsTheSequence := by
  intro s b rest hin hphase hpin
  have hcut : (setInputs rest s).phase ≠ .idle := hphase
  refine ⟨_, step_reset s b rest hin, by simp [hostReset], fun hheld => ?_, fun hheld => ?_, ?_, fun q hq => ?_⟩
  · exact (hostReset_pudStage b hcut).trans (if_pos hheld)
  · exact (hostReset_pudStage b hcut).trans (if_neg hheld)
  · rw [hostReset_latch b hcut]
    simp [freePull]
  · rw [hostReset_latch b hcut]
    simp [hq]

/-! ### A pull sequence by another master, outside the block's own (70_reset R172) -/

/-- Outside the pull sequence of a command another master's write is the register block's alone. -/
theorem masterAct_write_outside {f : Family} {b : Nat} (v : Word) {s : State} (hb : b < nbanks f)
    (hphase : s.phase = .idle) (hbusy : s.busy = false) : masterAct (.write f b v) s = ctrlWrite f b v s := by
  have houtside : ¬ inPullSequence (ctrlWrite f b v s) = true := by simp [inPullSequence, hphase, hbusy]
  rw [masterAct, if_pos hb, sequenceBroken, if_neg fun h => houtside h.1]

/-- A pin's entry after a write of PUD. -/
theorem ctrlWrite_pud_latch (v : Word) (s : State) (q : Nat) :
    (ctrlWrite .pud 0 v s).pins[q]? = (s.pins[q]?).map (latchOnPud v (clockBit q s) (freePull s q)) := by
  simp [ctrlWrite, mapPins_getElem?]

/-- A pin's entry after a write of its PUDCLK bank. -/
theorem ctrlWrite_pudclk_latch (v : Word) (s : State) (q : Nat) :
    (ctrlWrite .pudclk (q / 32) v s).pins[q]? =
      (s.pins[q]?).map (latchOnClock (v.getLsbD (q % 32)) (settledPattern s) (freePull s q)) := by
  simp [ctrlWrite, clockWritten, mapPins_getElem?]

/-- Valid pin q's latch and clock bit, while the block is in no command. -/
structure IdlePin (q : Nat) (l : PinLatch) (clk : Bool) (s : State) : Prop where
  valid : q ≤ 53
  phase : s.phase = .idle
  idle : s.busy = false
  latch : s.pins[q]? = some l
  clock : clockBit q s = clk

namespace IdlePin
variable {q : Nat} {l : PinLatch} {clk : Bool} {s : State}

theorem settle (h : IdlePin q l clk s) : IdlePin q (latchOnSettle l) clk (masterAct .settle s) := by
  obtain ⟨hq, hphase, hidle, hlatch, rfl⟩ := h
  exact ⟨hq, hphase, hidle, by simp [masterAct, mapPins_getElem?, hlatch], rfl⟩

theorem pudWrite (v : Word) (h : IdlePin q l clk s) :
    IdlePin q (latchOnPud v clk (freePull s q) l) clk (masterAct (.write .pud 0 v) s) := by
  obtain ⟨hq, hphase, hidle, hlatch, rfl⟩ := h
  rw [masterAct_write_outside v (by decide) hphase hidle]
  refine ⟨hq, by simpa using hphase, by simpa using hidle, by simp [ctrlWrite_pud_latch, hlatch], ?_⟩
  rw [clockBit, ctrlWrite, stored_store_other _ _ _ _ _ _ (by decide) (two_banks .pudclk q hq rfl) (by simp)]
  rfl

theorem clockWrite (v : Word) (h : IdlePin q l clk s) :
    IdlePin q (latchOnClock (v.getLsbD (q % 32)) (settledPattern s) (freePull s q) l) (v.getLsbD (q % 32))
      (masterAct (.write .pudclk (q / 32) v) s) := by
  obtain ⟨hq, hphase, hidle, hlatch, -⟩ := h
  rw [masterAct_write_outside v (two_banks .pudclk q hq rfl) hphase hidle]
  refine ⟨hq, by simpa using hphase, by simpa using hidle, by simp [ctrlWrite_pudclk_latch, hlatch], ?_⟩
  rw [clockBit, ctrlWrite, stored_store_same]

end IdlePin

/-- Once the settle time has passed, PUD is good for the state whose pattern it holds, if its write was good at all. -/
theorem settledPattern_settlePasses {s : State} {st : PullState} (hpud : stored .pud 0 s = pullWord st)
    (hstage : s.pudStage ≠ .stale) : settledPattern (settlePasses s) = some st := by
  have hstored : stored .pud 0 (settlePasses s) = pullWord st := hpud
  rw [settledPattern, hstored, settlePasses]
  cases h : s.pudStage with
  | stale => exact absurd h hstage
  | written | settled => exact pudPattern_pullWord st

/-- Where PUD is good for a state, the rest of a pull sequence on a pin not clocked since makes it take that state. -/
theorem latchByMaster_takes {q : Nat} {l : PinLatch} {clk : Bool} {s : State} {st : PullState}
    (h : IdlePin q l clk s) (hready : l.stage = .ready) (hpud : stored .pud 0 s = pullWord st)
    (hstage : s.pudStage ≠ .stale) :
    (((latchByMaster q).foldl (fun u a => masterAct a u) s).pins[q]?).map PinLatch.pull = some (takenPull st) := by
  have hclocked := h.settle.clockWrite (oneBit (q % 32))
  have hpattern : settledPattern (masterAct .settle s) = some st := settledPattern_settlePasses hpud hstage
  rw [oneBit_getLsbD _ _ (Nat.mod_lt _ (by omega)), hpattern, decide_eq_true rfl] at hclocked
  have hended := (hclocked.settle.pudWrite 0#32).clockWrite 0#32
  rw [BitVec.getLsbD_zero] at hended
  have hlatch := hended.latch
  rw [latchByMaster]
  simp only [List.foldl_cons, List.foldl_nil]
  rw [hlatch]
  simp [latchOnSettle, latchOnClock, latchOnPud, hready]

/-- Settles O4: reset leaves the block in no command, what PUD is good for as it was, and the pin not clocked since PUD
was written. -/
theorem clockAfterACutTakesTheState : Obligations.ClockAfterACutTakesTheState := by
  intro s base q st l hphase hpud hother hstage hq hlatch hpin
  have hkept : (hostReset base s).pudStage = s.pudStage :=
    (hostReset_pudStage base hphase).trans (if_neg (hpud ▸ hother))
  have hcut : (hostReset base s).pins[q]? =
      some (if q = commandPin s.cmd then ⟨freePull s q, cutStage l.stage⟩ else l) := by
    rw [hostReset_latch base hphase, hlatch]
    rfl
  refine latchByMaster_takes ⟨hq, rfl, rfl, hcut, rfl⟩ ?_ ?_ (hkept ▸ hstage)
  · rcases hpin with hready | ⟨hcommand, hdisturbed⟩
    · split <;> simp [hready, cutStage]
    · simp [hcommand, hdisturbed, cutStage]
  · simpa [stored, hostReset] using hpud

/-! ### A command cut into turns (70_reset R166, R170) -/

/-- Work that other work of the command may follow: every other piece is a command's last. -/
def Work.goesOn : Work → Bool
  | .write _ _ _ _ | .delay => true
  | .readModify _ _ _ | .readField _ _ | .readBit _ _ | .respond _ _ | .raise _ => false

/-- Only the last piece of the work answers or reads. -/
def Orderly (ws : List Work) : Prop := ws.Pairwise fun w _ => w.goesOn = true

theorem orderly_singleton (w : Work) : Orderly [w] := List.pairwise_singleton _ w

theorem freshWork_orderly {w : Word} {ws : List Work} (h : FreshWork w ws) : Orderly ws := by
  rcases h with ⟨r, rfl⟩ | ⟨k, rfl, -⟩ | ⟨p, m, -, rfl⟩ | ⟨p, v, -, rfl⟩ | ⟨p, -, rfl⟩ | ⟨p, -, rfl⟩ |
    ⟨p, f, -, -, rfl⟩ | ⟨pin, st, -, -, rfl⟩ <;> simp [Orderly, pullSequence, Work.goesOn]

theorem Work.left_orderly (w : Work) (v : Word) : Orderly (w.left v) := by
  cases w <;> simp [Orderly, Work.left, Work.goesOn]

/-- The block answers with the last piece of its work. -/
def EndsInOrder (s : State) : Prop := Orderly s.pending ∧ (s.busy = false → s.pending = [])

/-- What one event leaves of the command, and that only a last piece with nothing left ends it. -/
theorem perform_left {w : Work} {ws : List Work} {s t : State} (h : perform w (setPending ws s) = .next t) :
    ∃ v, t.pending = w.left v ++ ws ∧ (t.busy = s.busy ∨ w.goesOn = false ∧ w.left v = []) := by
  cases w with
  | readModify b shift pattern | readField b shift =>
    simp only [perform] at h
    split at h
    · cases h
      exact ⟨answer .fsel b (setPending ws s), rfl, .inl rfl⟩
    · cases h
  | readBit b shift =>
    simp only [perform] at h
    split at h
    · cases h
      exact ⟨answer .lev b (setPending ws s), rfl, .inl rfl⟩
    · cases h
  | write f b v after =>
    simp only [perform] at h
    split at h
    · cases h
      exact ⟨0#32, by simp [Work.left], .inl (by simp)⟩
    · cases h
  | delay =>
    cases h
    exact ⟨0#32, by simp [Work.left], .inl (by simp)⟩
  | respond | raise =>
    cases h
    exact ⟨0#32, rfl, .inr ⟨rfl, rfl⟩⟩

theorem Work.left_of_goesOn {w : Work} (h : w.goesOn = true) (v : Word) : w.left v = [] := by
  cases w with
  | write | delay => rfl
  | readModify | readField | readBit | respond | raise => cases h

/-- One event ends the command in order or leaves it to end in order. -/
theorem perform_endsInOrder {w : Work} {ws : List Work} {s t : State} (hs : EndsInOrder s) (hp : s.pending = w :: ws)
    (h : perform w (setPending ws s) = .next t) : EndsInOrder t := by
  obtain ⟨horderly, hdone⟩ := hs
  rw [hp] at horderly hdone
  obtain ⟨hfollowed, hrest⟩ := List.pairwise_cons.mp horderly
  have hbusy : s.busy = true := by simpa using hdone
  obtain ⟨v, hpending, hends⟩ := perform_left h
  cases hw : w.goesOn with
  | true =>
    rw [Work.left_of_goesOn hw, List.nil_append] at hpending
    have hstill : t.busy = true := hends.elim (·.trans hbusy) fun hlast => by simp [hw] at hlast
    exact ⟨hpending ▸ hrest, by simp [hstill]⟩
  | false =>
    have hlast : ws = [] := List.eq_nil_iff_forall_not_mem.mpr fun x hx => by simpa [hw] using hfollowed x hx
    rw [hlast, List.append_nil] at hpending
    refine ⟨hpending ▸ w.left_orderly v, fun hidle => ?_⟩
    rcases hends with hsame | ⟨-, hleft⟩
    · simp [hsame, hbusy] at hidle
    · rw [hpending, hleft]

theorem cost_eq_left (w : Work) (v : Word) : cost w = ((w.left v).map cost).sum + 1 := by
  have hmode : ∀ r, cost (answerMode r) = 1 := fun r => by cases r <;> rfl
  cases w with
  | readField => exact congrArg (· + 1) (hmode _).symm
  | readModify | readBit | write | delay | respond | raise => rfl

/-- How many events the command in progress still stands for. -/
def eventsLeft (s : State) : Nat := (s.pending.map cost).sum

theorem perform_eventsLeft {w : Work} {ws : List Work} {s t : State} (hp : s.pending = w :: ws)
    (h : perform w (setPending ws s) = .next t) : eventsLeft s = eventsLeft t + 1 := by
  obtain ⟨v, hpending, -⟩ := perform_left h
  simp only [eventsLeft, hp, hpending, List.map_cons, List.map_append, List.sum_cons, List.sum_append, cost_eq_left w v]
  omega

/-- Events beyond those the command has left do nothing. -/
theorem runEvents_of_eventsLeft_le {n : Nat} {s : State} (h : eventsLeft s ≤ n) :
    runEvents n s = runEvents (eventsLeft s) s := by
  induction n generalizing s with
  | zero => rw [Nat.le_zero.mp h]
  | succ n ih =>
    cases hp : s.pending with
    | nil => rw [runEvents_done _ s hp, runEvents_done _ s hp]
    | cons w ws =>
      obtain ⟨m, hm⟩ : ∃ m, eventsLeft s = m + 1 :=
        Nat.exists_eq_succ_of_ne_zero (by have := cost_pos w; rw [eventsLeft, hp, List.map_cons, List.sum_cons]; omega)
      rw [hm, runEvents, runEvents, hp]
      simp only
      cases hq : perform w (setPending ws s) with
      | fault r | refused r => rfl
      | next t =>
        have hleft := perform_eventsLeft hp hq
        obtain rfl : m = eventsLeft t := by omega
        exact ih (by omega)

/-- A turn stopped after k events and then taken up to the end is the whole turn. -/
theorem runEvents_resumed {k : Nat} {s u : State} (h : runEvents k s = .next u) :
    runEvents (eventsLeft u) u = runEvents (eventsLeft s) s := by
  have hcut : ∀ j, runEvents (k + j) s = runEvents j u := fun j => by rw [runEvents_add, h]
  calc runEvents (eventsLeft u) u
      = runEvents (eventsLeft u + eventsLeft s) u := (runEvents_of_eventsLeft_le (Nat.le_add_right _ _)).symm
    _ = runEvents (k + (eventsLeft u + eventsLeft s)) s := (hcut _).symm
    _ = runEvents (eventsLeft s) s := runEvents_of_eventsLeft_le (by omega)

/-- The turn set is the turn it has. -/
theorem setTurn_eq_self {k : Option Nat} {s : State} (h : s.turn = k) : setTurn k s = s := by
  subst h
  rfl

theorem setInputs_eq_self {is : List Input} {s : State} (h : s.inputs = is) : setInputs is s = s := by
  subst h
  rfl

theorem takeTurn_setTurn_none (s : State) :
    takeTurn (setTurn none s) = runEvents (eventsLeft s) (setTurn none s) := rfl

theorem takeTurn_setTurn_some (k : Nat) (s : State) :
    takeTurn (setTurn (some k) s) = runEvents k (setTurn none s) := rfl

/-- An idle block's command is a turn of some orderly work, whatever the turn is. -/
theorem exec_takesTurn (i : Instr) {s : State} (hb : s.busy = false) :
    ∃ u, EndsInOrder u ∧ u.base = s.base ∧ u.inputs = s.inputs ∧
      ∀ k, exec i (setTurn k s) = takeTurn (setTurn k u) := by
  obtain ⟨ws, hws, hexec⟩ := exec_issues i
  refine ⟨setPending (if s.fault = none then ws else [.respond .faulted 0#32]) (accept (encode i) s), ⟨?_, by simp⟩,
    rfl, rfl, fun k => ?_⟩
  · rw [setPending_pending]
    split
    · exact freshWork_orderly hws
    · exact orderly_singleton _
  · rw [hexec, issueWord_idle _ _ (setTurn k s) hb]
    rfl

/-- A block that has stopped in order goes on as its turn says; one that has ended has no event left. -/
theorem advance_inOrder (events : Option Nat) {u : State} (hu : EndsInOrder u) (hc : configOk u.base = true)
    (ht : u.turn = none) : advance events u = takeTurn (setTurn events u) := by
  cases hb : u.busy with
  | true => simp [advance, hb, hc]
  | false =>
    have hdone : u.pending = [] := hu.2 hb
    rw [advance_idle events hb]
    cases events with
    | none =>
      rw [takeTurn_setTurn_none, setTurn_eq_self ht, runEvents_done _ u hdone]
    | some k => rw [takeTurn_setTurn_some, setTurn_eq_self ht, runEvents_done _ u hdone]

/-- Settles O14: the steps after the cut go on with the turn that was cut. -/
theorem commandIsOneAtomicStep : Obligations.CommandIsOneAtomicStep := by
  intro i s u k hb hc hcut
  obtain ⟨v, hv, hbase, hinputs, hexec⟩ := exec_takesTurn i hb
  rw [hexec, takeTurn_setTurn_some] at hcut
  obtain ⟨hubase, -, -, -, huinputs, huturn⟩ := runEvents_frame k _ u hcut
  have hu : EndsInOrder u :=
    runEvents_keeps EndsInOrder (fun _ _ _ _ hs hp h => perform_endsInOrder hs hp h) k (setTurn none v) u hv hcut
  have hresumed : ∀ events, advance events u = takeTurn (setTurn events u) := fun events =>
    advance_inOrder events hu (by rw [hubase, setTurn_base, hbase]; exact hc) huturn
  have hself : setTurn none u = u := setTurn_eq_self huturn
  have hsame : u.inputs = s.inputs := huinputs.trans hinputs
  have hwhole : advance none u = exec i (setTurn none s) := by
    rw [hresumed, hexec, takeTurn_setTurn_none, takeTurn_setTurn_none, hself]
    exact runEvents_resumed hcut
  have hstep : ∀ events, step (setInputs (.resume events :: s.inputs) u) = advance events u := fun events => by
    rw [step_resume _ events s.inputs rfl]
    exact congrArg (advance events) (setInputs_eq_self hsame)
  refine ⟨fun hin => ?_, ?_, fun j => ?_⟩
  · exact (step_no_input u (hsame.trans hin)).trans hwhole
  · exact (hstep none).trans hwhole
  · rw [hstep, hresumed, hexec, takeTurn_setTurn_some, takeTurn_setTurn_some, hself, runEvents_add, hcut]

/-! ### A write lost in a read-modify-write (70_reset R171) -/

theorem cost_of_blind {w : Work} (h : w.Blind) : cost w = 1 := by
  rw [cost_eq_left w 0#32, Work.left_of_blind h]
  rfl

theorem sum_cost_of_blind {ws : List Work} (hws : ∀ w ∈ ws, w.Blind) : (ws.map cost).sum = ws.length := by
  induction ws with
  | nil => rfl
  | cons w ws ih =>
    obtain ⟨hw, hrest⟩ := List.forall_mem_cons.mp hws
    rw [List.map_cons, List.sum_cons, List.length_cons, cost_of_blind hw, ih hrest, Nat.add_comm]

/-- A turn with exclusive access performs all of the blind work left. -/
theorem takeTurn_blind {ws : List Work} (hws : ∀ w ∈ ws, w.Blind) (s : State) :
    takeTurn (setTurn none (setPending ws s)) = .next (setPending [] (runWork ws (setTurn none s))) := by
  have hrun := runEvents_blind_eq ws.length hws (setTurn none s)
  rw [List.drop_length, List.take_length] at hrun
  rw [takeTurn_setTurn_none, eventsLeft, setPending_pending, sum_cost_of_blind hws]
  exact hrun

/-- With no input, a busy block with blind work left performs it all. -/
theorem step_blind {ws : List Work} {s : State} (hws : ∀ w ∈ ws, w.Blind) (hp : s.pending = ws) (hin : s.inputs = [])
    (hb : s.busy = true) (hc : configOk s.base = true) :
    step s = .next (setPending [] (runWork ws (setTurn none s))) := by
  subst hp
  rw [step_no_input s hin, advance, if_pos hb, if_pos hc]
  exact takeTurn_blind hws s

/-- Where BASE reaches the register block, FSEL stores what the block writes to it. -/
theorem stored_fsel_regWrite {b : Nat} (v : Word) {s : State} (hb : b < nbanks .fsel) (hreach : s.base = s.mapped) :
    stored .fsel b (regWrite .fsel b v s) = v := by
  rw [regWrite_reachable .fsel b v s hb hreach]
  exact stored_store_same _ _ _ _

/-- The first event of a read-modify-write. -/
theorem runEvents_readModify {b : Nat} (shift : Nat) (p : BitVec 3) (s : State) (hb : b < nbanks .fsel) :
    runEvents 1 (setPending [.readModify b shift p] s) = .next (setPending
      [.write .fsel b (insertField (answer .fsel b s) shift p) none, .respond .ok 0#32] (regRead .fsel b s)) := by
  have hread : perform (.readModify b shift p) (setPending [] s) = .next (setPending
      [.write .fsel b (insertField (answer .fsel b s) shift p) none, .respond .ok 0#32] (regRead .fsel b s)) := by
    simp [perform, hb, goOn, regRead_setPending]
  exact runEvents_step 0 (setPending _ s) _ _ [] rfl hread

/-- A WRITE_FUNCTION stopped after its read has made the word it will write from the word read. -/
theorem exec_writeFunction_afterRead {pin : Octet} (m : FunctionMode) {s : State} (hb : s.busy = false)
    (hf : s.fault = none) (hp : pin.toNat ≤ 53) :
    ∃ t new, exec (.writeFunction pin m) (setTurn (some 1) s) = .next t ∧
      FieldReplaced (answer .fsel (pin.toNat / 10) s) new pin.toNat (encodeFunction m) ∧
      t.pending = [.write .fsel (pin.toNat / 10) new none, .respond .ok 0#32] ∧ t.busy = true ∧ FixedKept s t := by
  have hread := runEvents_readModify (pin.toNat % 10 * 3) (encodeFunction m)
    (setTurn none (accept (encode (.writeFunction pin m)) s)) (fsel_bank _ hp)
  have hexec := issueWord_turn (encode (.writeFunction pin m))
    [.readModify (pin.toNat / 10) (pin.toNat % 10 * 3) (encodeFunction m)] (setTurn (some 1) s) 1 hb hf rfl
  rw [answer_setTurn, answer_accept] at hread
  exact ⟨_, _, ((exec_writeFunction_eq_issueWord _ hp m).trans hexec).trans hread, insertField_replaced _ _ _, rfl, rfl,
    rfl, rfl, rfl, rfl⟩

/-- Another master's write of FSEL is stored, whatever the block is doing. -/
theorem masterAct_write_fsel {b : Nat} (v : Word) (s : State) (hb : b < nbanks .fsel) :
    masterAct (.write .fsel b v) s = store .fsel b v s := by
  rw [masterAct, if_pos hb, sequenceBroken, if_neg (by simp)]
  rfl

/-- Settles O38: the command writes the word it made before the other master's write. -/
theorem writeBetweenReadAndWriteIsLost : Obligations.WriteBetweenReadAndWriteIsLost := by
  intro s pin m v hb hf hreach hc hanswers hp hin
  have hbank := fsel_bank _ hp
  obtain ⟨t, new, hexec, hnew, hpending, hbusy, hbase, hmapped, -, hinputs⟩ :=
    exec_writeFunction_afterRead (s := setInputs [.master (.write .fsel (pin.toNat / 10) v)] s) m hb hf hp
  have hread : step s = .next t := (stepRunsTheDecodedCommand s _ _ _ _ hin hb hc (decodeOfEncode _)).trans hexec
  have hmaster : step t = .next (store .fsel (pin.toNat / 10) v (setInputs [] t)) := by
    rw [step_master t _ [] hinputs, masterAct_write_fsel v _ hbank]
  have hblind : ∀ w ∈ [Work.write .fsel (pin.toNat / 10) new none, .respond .ok 0#32], w.Blind :=
    List.forall_mem_cons.mpr ⟨⟨hbank, rfl⟩, List.forall_mem_singleton.mpr ⟨trivial, rfl⟩⟩
  have hwrite := step_blind (s := store .fsel (pin.toNat / 10) v (setInputs [] t)) hblind hpending rfl hbusy
    (hbase ▸ hc)
  rw [answer_reachable .fsel _ (setInputs [_] s) hbank hreach hanswers] at hnew
  refine ⟨t, _, _, hread, hmaster, hwrite, stored_store_same _ _ _ _, rfl, ?_⟩
  have hstored : stored .fsel (pin.toNat / 10) (runWork [.write .fsel (pin.toNat / 10) new none, .respond .ok 0#32]
      (setTurn none (store .fsel (pin.toNat / 10) v (setInputs [] t)))) = new := by
    simp [Work.effect, stored_fsel_regWrite, hbank, hbase, hmapped, hreach]
  rw [stored_setPending, hstored]
  exact hnew

/-! ### The responses of a good run (70_reset R178) -/

theorem statuses_append (es fs : List Event) : statuses (es ++ fs) = statuses es ++ statuses fs :=
  List.filterMap_append

theorem goodTrace_append (es fs : List Event) : GoodTrace (es ++ fs) ↔ GoodTrace es ∧ GoodTrace fs := by
  rw [GoodTrace, statuses_append]
  exact List.forall_mem_append

theorem goodTrace_rsp (st : Status) (r : Word) : GoodTrace [.rsp st r] ↔ st = .ok := by
  simp [GoodTrace, statuses]

/-- From `s` to `t` the events logged are good just where no fault stands at the end. -/
def GoodUntilFault (s t : State) : Prop := ∃ es, t.trace = s.trace ++ es ∧ (GoodTrace es ↔ t.fault = none)

/-- One event keeps the responses and FAULT in step: a response is OK just where no fault stands, and no event but a
response happens while one does. -/
theorem GoodUntilFault.next {s t u : State} (hst : GoodUntilFault s t) (htu : EventDone t u) : GoodUntilFault s u := by
  obtain ⟨es, htrace, hgood⟩ := hst
  obtain ⟨-, e, hutrace, -, hfits⟩ := htu
  refine ⟨es ++ [e], by simp [hutrace, htrace], ?_⟩
  rw [goodTrace_append, hgood]
  cases e with
  | rsp st r =>
    obtain ⟨-, hfaulted, hready⟩ := hfits
    rw [goodTrace_rsp]
    by_cases hf : t.fault = none
    · simp [hf, hready hf]
    · obtain ⟨hkept, -⟩ := hfaulted hf
      simp [hf, hkept]
  | rd | wr | dly =>
    obtain ⟨-, hf, huf⟩ := hfits
    simp [hf, huf, GoodTrace, statuses]

theorem runEvents_goodUntilFault {n : Nat} {s t : State} (hs : MachineInv s) (hf : s.fault = none)
    (h : runEvents n s = .next t) : GoodUntilFault s t := by
  refine (runEvents_keeps (fun u => MachineInv u ∧ GoodUntilFault s u) ?_ n s t
    ⟨hs, [], by simp, by simp [hf, GoodTrace, statuses]⟩ h).2
  rintro u v w ws ⟨hu, hsu⟩ hpending hperform
  obtain ⟨v', hv', hdone⟩ := perform_done u hu w ws hpending
  cases hperform.symm.trans hv'
  exact ⟨hdone.1, hsu.next hdone⟩

/-- Settles O55: a step begins its events with no fault standing, and every event keeps the responses and FAULT in
step. -/
theorem goodResponsesMeanNoFault : Obligations.GoodResponsesMeanNoFault := by
  intro s t es hs hf hstep htrace
  obtain hrefused | ⟨n, u, hturn, hinv, hbegin, hrecord⟩ := step_turnOf s hs
  · cases hstep.symm.trans hrefused
  · have huf : u.fault = none := hrecord.elim (fun hkept => hkept.1.trans hf) (·.1)
    obtain ⟨fs, hlogged, hgood⟩ := runEvents_goodUntilFault hinv huf (hturn.symm.trans hstep)
    rw [hbegin, htrace] at hlogged
    exact List.append_cancel_left hlogged ▸ hgood

/-! ### The command's pin in its own sequence (70_reset R164, R172) -/

theorem runWork_append (ws vs : List Work) (s : State) : runWork (ws ++ vs) s = runWork vs (runWork ws s) :=
  List.foldl_append

theorem runWork_cut (n : Nat) (ws : List Work) (s : State) :
    runWork ws s = runWork (ws.drop n) (runWork (ws.take n) s) := by
  rw [← runWork_append, List.take_append_drop]

theorem delaySettle_pudStage (s : State) : (delaySettle s).pudStage =
    if s.delays.head? = some .short then s.pudStage else if s.pudStage = .stale then .stale else .settled := by
  unfold delaySettle
  split
  · next h => simp [h]
  · next h =>
    rw [if_neg fun hshort => ?_]
    · cases hs : s.pudStage <;> simp [settlePasses, hs]
    · obtain ⟨later, hdelays⟩ := List.head?_eq_some_iff.mp hshort
      exact h later hdelays

/-- PUD is good for the state after the first two events, if the wait was full. -/
theorem settledPattern_afterWait (st : PullState) (k : Location) {s : State} (hreach : s.base = s.mapped) :
    settledPattern (runWork ((pullSequence st k).take 2) s) =
      if s.delays.head? = some .short then none else some st := by
  have hstored : stored .pud 0 (runWork ((pullSequence st k).take 2) s) = pullWord st := by
    simp [pullSequence, Work.effect, stored_regWrite_same, hreach, show 0 < nbanks .pud by decide]
  have hstage : (runWork ((pullSequence st k).take 2) s).pudStage =
      if s.delays.head? = some .short then .written else .settled := by
    simp [pullSequence, Work.effect, delaySettle_pudStage, regWrite_reachable, hreach, show 0 < nbanks .pud by decide,
      ctrlWrite]
  rw [settledPattern, hstored, hstage]
  by_cases hshort : s.delays.head? = some .short <;> simp [hshort]

namespace PinAt
variable {q n : Nat} {l : PinLatch} {clk : Bool} {s : State}

/-- The first two events, where the pin's clock is not asserted: its pull stays. -/
theorem pudPhase_unclocked (st : PullState) (k : Location) (h : PinAt q l false n s) :
    PinAt q ⟨l.pull, .ready⟩ false (n + 54) (runWork ((pullSequence st k).take 2) s) := by
  have hdelay := ((h.firstPudWrite (pullWord st)).setPhase (some .pudWritten)).delay
  simpa [latchOnSettle, pullSequence, Work.effect] using hdelay

/-- The command's pin after the first three events, where its clock was not asserted before: it is clocked under the
state's pattern if the wait was full. -/
theorem clockPhase (st : PullState) (h : PinAt q l false n s) :
    PinAt q ⟨Config.freePull (n + 54 + q), if s.delays.head? = some .short then .spoiled else .clocked st false⟩ true
      (n + 108) (runWork ((pullSequence st (pinBit q)).take 3) s) := by
  have hwrite := ((h.pudPhase_unclocked st (pinBit q)).clockWrite (oneBit (q % 32))
    (two_banks .pudclk q h.valid rfl)).setPhase (some .clockAsserted)
  rw [if_pos rfl, if_pos rfl, settledPattern_afterWait st _ h.reach, oneBit_getLsbD _ _ (Nat.mod_lt _ (by omega)),
    decide_eq_true rfl] at hwrite
  by_cases hshort : s.delays.head? = some .short
  · rw [if_pos hshort] at hwrite ⊢
    exact hwrite
  · rw [if_neg hshort] at hwrite ⊢
    exact hwrite

/-- The response of the command is nothing to the register block. -/
theorem respond (st : Status) (r : Word) (h : PinAt q l clk n s) : PinAt q l clk n (respond st r s) :=
  ⟨h.valid, h.reach, h.latch, h.clock, h.fresh⟩

/-- The command's pin after the last four events: it takes the state it is clocked for if the wait is full. -/
theorem release (st : PullState) (h : PinAt q l true n s) :
    PinAt q
      (latchOnClock false none (Config.freePull (n + 54 + q)) (latchOnPud 0#32 true (Config.freePull (n + q))
        (if s.delays.head? = some .short then l else latchOnSettle l)))
      false (n + 108) (runWork ((pullSequence st (pinBit q)).drop 3) s) := by
  have hwrite := (((h.delay.pudWrite 0#32).clockWrite 0#32 (two_banks .pudclk q h.valid rfl)).setPhase
    (some .idle)).respond .ok 0#32
  rw [if_pos rfl, if_pos rfl, BitVec.getLsbD_zero, latchOnClock_false] at hwrite
  simpa only [pullSequence, pinBit, List.drop_succ_cons, List.drop_zero, runWork_cons, runWork_nil, Work.effect,
    meetClocks_none, meetClocks_idle, setPhase_none] using hwrite

end PinAt

/-- The command's pin at the end, where its clock was not asserted at the start: the state if both waits were full, else
the free value of the end of its clock. -/
theorem pullSequence_commandPin (st : PullState) {p n : Nat} {l : PinLatch} {s : State} (h : PinAt p l false n s) :
    ((runWork (pullSequence st (pinBit p)) s).pins[p]?).map PinLatch.pull =
      some (if s.delays.head? = some .short ∨ s.delays.tail.head? = some .short then Config.freePull (n + 162 + p)
        else takenPull st) := by
  have hdelays : (runWork ((pullSequence st (pinBit p)).take 3) s).delays = s.delays.tail := by
    simp [pullSequence, Work.effect]
  have hlatch := ((h.clockPhase st).release st).latch
  rw [runWork_cut 3, hlatch, hdelays]
  by_cases hfirst : s.delays.head? = some .short <;> by_cases hsecond : s.delays.tail.head? = some .short <;>
    simp only [hfirst, hsecond, if_true, if_false, or_self, or_true, true_or] <;> rfl

/-- A pin when the command's word has been accepted, where BASE reaches the register block. -/
theorem pinAt_accept {q : Nat} (w : Word) {s : State} (hq : q ≤ 53) (hreach : s.base = s.mapped)
    (hlength : s.pins.length = 54) :
    PinAt q (s.pins[q]'(by omega)) (clockBit q s) s.fresh (accept w s) :=
  have hlatch : s.pins[q]? = some (s.pins[q]'(by omega)) := List.getElem?_eq_getElem (by omega)
  ⟨hq, hreach, hlatch, rfl, rfl⟩

/-- Settles O43: a pin clocked at the start is free whatever the waits are, and any other takes no state after a short
one. -/
theorem shortWaitLeavesThePullFree : Obligations.ShortWaitLeavesThePullFree := by
  intro s pin st later hs hreach hp hdelays hlength
  have hshort : s.delays.head? = some .short ∨ s.delays.tail.head? = some .short := by
    rcases hdelays with h | h <;> simp [h]
  have hstart := pinAt_accept (encode (.configurePull pin st)) hp hreach hlength
  refine ⟨_, exec_configurePull_ready st hp hs, by simp [pullSequence, Work.effect], ?_⟩
  rw [setPending_pins]
  cases hclock : clockBit pin.toNat s with
  | true =>
    rw [hclock] at hstart
    have hfree := pullSequence_assertedClock st hp hstart
    rwa [if_pos rfl] at hfree
  | false =>
    rw [hclock] at hstart
    have hfree := pullSequence_commandPin st hstart
    rwa [accept_delays, if_pos hshort] at hfree

/-! ### The other pins (70_reset R165) -/

/-- A property the effect of each piece of work keeps holds after all of them. -/
theorem runWork_keeps (P : State → Prop) {ws : List Work} (hkeeps : ∀ w ∈ ws, ∀ s, P s → P (w.effect s)) {s : State}
    (hs : P s) : P (runWork ws s) := by
  induction ws generalizing s with
  | nil => exact hs
  | cons w ws ih =>
    obtain ⟨hfirst, hrest⟩ := List.forall_mem_cons.mp hkeeps
    exact ih hrest (hfirst s hs)

theorem effect_pins_length (w : Work) (s : State) : (w.effect s).pins.length = s.pins.length := by
  cases w <;> simp [Work.effect]

theorem runWork_pins_length (ws : List Work) (s : State) : (runWork ws s).pins.length = s.pins.length :=
  runWork_keeps (fun t => t.pins.length = s.pins.length) (fun w _ t ht => (effect_pins_length w t).trans ht) rfl

/-- Valid pin q has this pull, and neither its clock nor its latch sequence is under way. -/
def Unclocked (q : Nat) (pull : PinPull) (s : State) : Prop :=
  ∃ stage n, PinAt q ⟨pull, stage⟩ false n s ∧ (stage = .ready ∨ stage = .touched)

namespace Unclocked
variable {q : Nat} {pull : PinPull} {s : State}

theorem delay (h : Unclocked q pull s) : Unclocked q pull (delaySettle s) := by
  obtain ⟨stage, n, hpin, hstage⟩ := h
  have hdelay := hpin.delay
  rw [show latchOnSettle ⟨pull, stage⟩ = ⟨pull, stage⟩ by rcases hstage with rfl | rfl <;> rfl, ite_self] at hdelay
  exact ⟨stage, n, hdelay, hstage⟩

theorem pudWrite (v : Word) (h : Unclocked q pull s) : Unclocked q pull (regWrite .pud 0 v s) := by
  obtain ⟨stage, n, hpin, -⟩ := h
  exact ⟨.ready, n + 54, hpin.pudWrite v, .inl rfl⟩

/-- A write of PUDCLK that does not assert the pin's clock. -/
theorem clockWrite {b : Nat} {v : Word} (hb : b < nbanks .pudclk) (hv : q / 32 = b → v.getLsbD (q % 32) = false)
    (h : Unclocked q pull s) : Unclocked q pull (regWrite .pudclk b v s) := by
  obtain ⟨stage, n, hpin, hstage⟩ := h
  have hwrite := hpin.clockWrite v hb
  by_cases hbank : q / 32 = b
  · rw [if_pos hbank, if_pos hbank, hv hbank, latchOnClock_false] at hwrite
    exact ⟨.touched, n + 54, by rcases hstage with rfl | rfl <;> exact hwrite, .inr rfl⟩
  · rw [if_neg hbank, if_neg hbank] at hwrite
    exact ⟨stage, n + 54, hwrite, hstage⟩

theorem setPhase (p : Option Phase) (h : Unclocked q pull s) : Unclocked q pull (setPhase p s) := by
  obtain ⟨stage, n, hpin, hstage⟩ := h
  exact ⟨stage, n, hpin.setPhase p, hstage⟩

theorem respond (st : Status) (r : Word) (h : Unclocked q pull s) : Unclocked q pull (respond st r s) := by
  obtain ⟨stage, n, hpin, hstage⟩ := h
  exact ⟨stage, n, hpin.respond st r, hstage⟩

end Unclocked

/-- The one bit asserted for the command's pin is no other pin's. -/
theorem oneBit_otherPin {p q : Nat} (hne : q ≠ p) (hbank : q / 32 = p / 32) :
    (oneBit (p % 32)).getLsbD (q % 32) = false := by
  rw [oneBit_getLsbD _ _ (Nat.mod_lt _ (by omega))]
  simp
  omega

/-- A pin other than the command's, not clocked at the start, has its pull at the end. -/
theorem pullSequence_otherPin (st : PullState) {p q n : Nat} {l : PinLatch} {s : State} (hp : p ≤ 53) (hne : q ≠ p)
    (h : PinAt q l false n s) :
    ((runWork (pullSequence st (pinBit p)) s).pins[q]?).map PinLatch.pull = some l.pull := by
  have hbank : p / 32 < nbanks .pudclk := two_banks .pudclk p hp rfl
  have hfirst : Unclocked q l.pull (runWork ((pullSequence st (pinBit p)).take 2) s) :=
    ⟨.ready, n + 54, h.pudPhase_unclocked st (pinBit p), .inl rfl⟩
  have hrest : ∀ w ∈ (pullSequence st (pinBit p)).drop 2, ∀ u, Unclocked q l.pull u →
      Unclocked q l.pull (w.effect u) := by
    simp only [pullSequence, List.drop_succ_cons, List.drop_zero, List.forall_mem_cons]
    refine ⟨fun u hu => ?_, fun u hu => hu.delay, fun u hu => hu.pudWrite 0#32, fun u hu => ?_,
      fun u hu => hu.respond .ok 0#32, List.forall_mem_nil _⟩
    · exact (hu.clockWrite hbank (oneBit_otherPin hne)).setPhase (some .clockAsserted)
    · exact (hu.clockWrite hbank fun _ => BitVec.getLsbD_zero).setPhase (some .idle)
  obtain ⟨stage, m, hpin, -⟩ := runWork_keeps _ hrest hfirst
  rw [runWork_cut 2, hpin.latch]
  rfl

theorem clockBit_of_stored_zero {q : Nat} {s : State} (hq : q ≤ 53) (h0 : stored .pudclk 0 s = 0#32)
    (h1 : stored .pudclk 1 s = 0#32) : clockBit q s = false := by
  obtain h | h : q / 32 = 0 ∨ q / 32 = 1 := by omega
  · simp [clockBit, h, h0]
  · simp [clockBit, h, h1]

/-- Settles O42: both waits are full, so the command's pin takes the state; no other pin is ever clocked. -/
theorem configurePullTakesTheState : Obligations.ConfigurePullTakesTheState := by
  intro s pin st hs hreach hp hdelays h0 h1 hlength
  have hfull : ¬(s.delays.head? = some .short ∨ s.delays.tail.head? = some .short) := by
    rcases hd : s.delays with _ | ⟨a, _ | ⟨b, ds⟩⟩ <;> simp_all [eq_comm]
  have hstart : ∀ q (hq : q ≤ 53),
      PinAt q (s.pins[q]'(by omega)) false s.fresh (accept (encode (.configurePull pin st)) s) := fun q hq =>
    clockBit_of_stored_zero hq h0 h1 ▸ pinAt_accept _ hq hreach hlength
  refine ⟨_, exec_configurePull_ready st hp hs, ?_, fun q hne => ?_⟩
  · rw [setPending_pins, pullSequence_commandPin st (hstart pin.toNat hp), accept_delays, if_neg hfull]
  · rw [setPending_pins]
    by_cases hq : q ≤ 53
    · rw [pullSequence_otherPin st hp hne (hstart q hq), List.getElem?_eq_getElem (by omega)]
      rfl
    · rw [List.getElem?_eq_none (by rw [runWork_pins_length, accept_pins]; omega), List.getElem?_eq_none (by omega)]

/-! ### Another master's write inside the sequence (70_reset R172) -/

/-- A pull register's write inside the sequence breaks it. -/
theorem masterAct_write_inside {f : Family} {b : Nat} (v : Word) {s : State} (hf : f = .pud ∨ f = .pudclk)
    (hb : b < nbanks f) (hin : inPullSequence s = true) :
    masterAct (.write f b v) s = spoilPins (brokenPins f b v s.cmd) disturbedStage (ctrlWrite f b v s) := by
  have hstill : inPullSequence (ctrlWrite f b v s) = true := by simpa [inPullSequence] using hin
  rw [masterAct, if_pos hb, sequenceBroken, if_pos ⟨hstill, hf⟩, ctrlWrite_cmd]

theorem ctrlWrite_pull_fresh {f : Family} (b : Nat) (v : Word) (s : State) (hf : f = .pud ∨ f = .pudclk) :
    (ctrlWrite f b v s).fresh = s.fresh + 54 := by rcases hf with rfl | rfl <;> rfl

/-- A pull register holds the word another master writes to it. -/
theorem stored_masterAct_write {f : Family} {b : Nat} (v : Word) {s : State} (hf : f = .pud ∨ f = .pudclk)
    (hb : b < nbanks f) : stored f b (masterAct (.write f b v) s) = v := by
  have hwritten : stored f b (ctrlWrite f b v s) = v := by
    rcases hf with rfl | rfl <;> exact stored_store_same _ _ _ _
  rw [masterAct, if_pos hb, stored, sequenceBroken_mem, sequenceBroken_mapped]
  exact hwritten

theorem brokenPins_iff {f : Family} {b : Nat} {v cmd : Word} {q : Nat} : brokenPins f b v cmd q = true ↔
    q = commandPin cmd ∨ (f = .pudclk ∧ q / 32 = b ∧ v.getLsbD (q % 32) = true) := by
  simp [brokenPins, and_assoc]

/-- What the write leaves of a pin it breaks. -/
theorem masterAct_write_latch {f : Family} {b q : Nat} {v : Word} {s : State} (hf : f = .pud ∨ f = .pudclk)
    (hb : b < nbanks f) (hin : inPullSequence s = true) (hq : q < s.pins.length)
    (hbroken : q = commandPin s.cmd ∨ (f = .pudclk ∧ q / 32 = b ∧ v.getLsbD (q % 32) = true)) :
    ∃ stage, (masterAct (.write f b v) s).pins[q]? = some ⟨Config.freePull (s.fresh + 54 + q), stage⟩ ∧
      (stage = .disturbed ∨ stage = .spoiled) := by
  have hlatch : (ctrlWrite f b v s).pins[q]? = some ((ctrlWrite f b v s).pins[q]'(by simpa using hq)) :=
    List.getElem?_eq_getElem _
  refine ⟨_, ?_, disturbedStage_cases ((ctrlWrite f b v s).pins[q]'(by simpa using hq)).stage⟩
  rw [masterAct_write_inside v hf hb hin, spoilPins, mapPins_getElem?, hlatch, Option.map_some, Nat.zero_add,
    if_pos (brokenPins_iff.mpr hbroken), freePull, ctrlWrite_pull_fresh b v s hf]

/-- The stages of a latch sequence that clearing the pin's clock, or PUD before it, may bring to an end. -/
def LatchStage.underway : LatchStage → Bool
  | .clocked _ _ | .released _ => true
  | .ready | .touched | .disturbed | .spoiled => false

/-- The stages from which no end of the command's sequence brings a state, its clock still to come or not. -/
def LatchStage.Barred (g : LatchStage) : Prop := g.underway = false ∧ g ≠ .ready

theorem latchOnPud_of_not_underway (v : Word) (clk : Bool) (free : PinPull) {l : PinLatch}
    (h : l.stage.underway = false) :
    latchOnPud v clk free l = if clk then ⟨free, .spoiled⟩ else { l with stage := .ready } := by
  obtain ⟨pull, stage⟩ := l
  cases stage with
  | clocked | released => cases h
  | ready | touched | disturbed | spoiled => cases clk <;> rfl

theorem latchOnSettle_of_not_underway {l : PinLatch} (h : l.stage.underway = false) : latchOnSettle l = l := by
  obtain ⟨pull, stage⟩ := l
  cases stage with
  | clocked | released => cases h
  | ready | touched | disturbed | spoiled => rfl

/-- Where no sequence is under way and no clock asserted on a ready pin, a write of the clock takes no state. -/
theorem latchOnClock_of_not_underway {bit : Bool} (pattern : Option PullState) (free : PinPull) {l : PinLatch}
    (h : l.stage.underway = false) (hready : bit = true → l.stage ≠ .ready) :
    ((latchOnClock bit pattern free l).pull = free ∨ (latchOnClock bit pattern free l).pull = l.pull) ∧
      (latchOnClock bit pattern free l).stage.Barred := by
  obtain ⟨pull, stage⟩ := l
  cases stage with
  | clocked | released => cases h
  | ready =>
    cases bit with
    | true => exact absurd rfl (hready rfl)
    | false => exact ⟨.inr rfl, rfl, by simp [latchOnClock]⟩
  | touched | disturbed | spoiled =>
    cases bit <;> simp [latchOnClock, LatchStage.Barred, LatchStage.underway]

/-- Valid pin q's pull is one of the free values from `first` on, as every free value to come is, and its stage meets
`P`. -/
def Freed (P : LatchStage → Prop) (first q : Nat) (s : State) : Prop :=
  ∃ l clk n, PinAt q l clk n s ∧ first ≤ n ∧ (∃ m, first ≤ m ∧ l.pull = Config.freePull m) ∧ P l.stage

namespace Freed
variable {P : LatchStage → Prop} {first q : Nat} {s : State}

theorem freelyPulled (h : Freed P first q s) : FreelyPulled first q s := by
  obtain ⟨l, clk, n, hpin, -, ⟨m, hm, hpull⟩, -⟩ := h
  exact ⟨m, hm, by rw [hpin.latch, ← hpull]; rfl⟩

/-- What a pin is does not depend on the block's own state. -/
theorem congr {t : State} (h : Freed P first q s) (hbase : t.base = s.base) (hmapped : t.mapped = s.mapped)
    (hmem : t.mem = s.mem) (hpins : t.pins = s.pins) (hfresh : t.fresh = s.fresh) : Freed P first q t := by
  obtain ⟨l, clk, n, ⟨hq, hreach, hlatch, hclock, hn⟩, hfreed⟩ := h
  refine ⟨l, clk, n, ⟨hq, by rw [hbase, hmapped, hreach], hpins ▸ hlatch, ?_, hfresh.trans hn⟩, hfreed⟩
  rw [← hclock, clockBit, clockBit, stored, stored, hmem, hmapped]

theorem setPhase (p : Option Phase) (h : Freed P first q s) : Freed P first q (setPhase p s) :=
  h.congr (setPhase_base p s) (setPhase_mapped p s) (setPhase_mem p s) (setPhase_pins p s) (setPhase_fresh p s)

theorem notUnderway (h : Freed LatchStage.Barred first q s) : Freed (·.underway = false) first q s := by
  obtain ⟨l, clk, n, hpin, hn, hpull, hstage, -⟩ := h
  exact ⟨l, clk, n, hpin, hn, hpull, hstage⟩

theorem delay (hP : ∀ g, P g → g.underway = false) (h : Freed P first q s) : Freed P first q (delaySettle s) := by
  obtain ⟨l, clk, n, hpin, hn, hpull, hstage⟩ := h
  have hdelay := hpin.delay
  rw [latchOnSettle_of_not_underway (hP _ hstage), ite_self] at hdelay
  exact ⟨l, clk, n, hdelay, hn, hpull, hstage⟩

theorem pudWrite (v : Word) (h : Freed (·.underway = false) first q s) :
    Freed (·.underway = false) first q (regWrite .pud 0 v s) := by
  obtain ⟨l, clk, n, hpin, hn, hpull, hstage⟩ := h
  have hwrite := hpin.pudWrite v
  rw [latchOnPud_of_not_underway _ _ _ hstage] at hwrite
  refine ⟨_, clk, n + 54, hwrite, by omega, ?_⟩
  cases clk with
  | true => exact ⟨⟨n + q, by omega, rfl⟩, rfl⟩
  | false => exact ⟨hpull, rfl⟩

/-- A write of PUDCLK that asserts the clock of no ready pin. -/
theorem clockWrite {b : Nat} {v : Word} (hb : b < nbanks .pudclk) (hP : ∀ g, P g → g.underway = false)
    (hbar : ∀ g, LatchStage.Barred g → P g) (hready : v.getLsbD (q % 32) = true → ¬ P .ready) (h : Freed P first q s) :
    Freed P first q (regWrite .pudclk b v s) := by
  obtain ⟨l, clk, n, hpin, hn, ⟨m, hm, hpull⟩, hstage⟩ := h
  have hwrite := hpin.clockWrite v hb
  by_cases hbank : q / 32 = b
  · rw [if_pos hbank, if_pos hbank] at hwrite
    obtain ⟨hdrawn, hbarred⟩ := latchOnClock_of_not_underway (settledPattern s) (Config.freePull (n + q)) (hP _ hstage)
      fun hbit he => hready hbit (he ▸ hstage)
    refine ⟨_, _, n + 54, hwrite, by omega, ?_, hbar _ hbarred⟩
    rcases hdrawn with hfree | hkept
    · exact ⟨n + q, by omega, hfree⟩
    · exact ⟨m, hm, hkept.trans hpull⟩
  · rw [if_neg hbank, if_neg hbank] at hwrite
    exact ⟨l, clk, n + 54, hwrite, by omega, ⟨m, hm, hpull⟩, hstage⟩

/-- The last four events keep a pin free that no sequence is under way on. -/
theorem lastFour (st : PullState) {p : Nat} (hp : p ≤ 53) :
    ∀ w ∈ (pullSequence st (pinBit p)).drop 3, ∀ s, Freed (·.underway = false) first q s →
      Freed (·.underway = false) first q (w.effect s) := by
  have hbank : p / 32 < nbanks .pudclk := two_banks .pudclk p hp rfl
  simp only [pullSequence, List.drop_succ_cons, List.drop_zero, List.forall_mem_cons]
  refine ⟨fun s h => h.delay fun _ => id, fun s h => h.pudWrite 0#32, fun s h => ?_,
    fun s h => h.congr rfl rfl rfl rfl rfl, List.forall_mem_nil _⟩
  exact (h.clockWrite hbank (fun _ => id) (fun _ => And.left) (by simp)).setPhase (some .idle)

theorem fourthOn (st : PullState) {p k : Nat} (hp : p ≤ 53) (hk : 3 ≤ k) (h : Freed (·.underway = false) first q s) :
    Freed (·.underway = false) first q (runWork ((pullSequence st (pinBit p)).drop k) s) :=
  runWork_keeps _ (fun w hw => lastFour st hp w (List.drop_subset_drop_left _ hk hw)) h

/-- The third event takes no state on a pin that is not ready. -/
theorem assertClock {p : Nat} (hp : p ≤ 53) (h : Freed LatchStage.Barred first q s) :
    Freed LatchStage.Barred first q
      (Work.effect (.write .pudclk (p / 32) (oneBit (p % 32)) (some .clockAsserted)) s) :=
  (h.clockWrite (two_banks .pudclk p hp rfl) (fun _ => And.left) (fun _ => id) fun _ hready => hready.2 rfl).setPhase
    (some .clockAsserted)

end Freed

/-- From the third event on. -/
theorem runWork_pullSequence_drop_two (st : PullState) (p : Nat) (s : State) :
    runWork ((pullSequence st (pinBit p)).drop 2) s = runWork ((pullSequence st (pinBit p)).drop 3)
      (Work.effect (.write .pudclk (p / 32) (oneBit (p % 32)) (some .clockAsserted)) s) := by
  rw [← runWork_cons]
  congr 1

/-- From the second event on. -/
theorem runWork_pullSequence_drop_one (st : PullState) (p : Nat) (s : State) :
    runWork ((pullSequence st (pinBit p)).drop 1) s = runWork ((pullSequence st (pinBit p)).drop 2)
      (Work.effect .delay s) := by
  rw [← runWork_cons]
  congr 1

/-- A pin freed after the first event or later is free at the end of the sequence. -/
theorem pullSequence_freed (st : PullState) {p q k first : Nat} {s : State} (hp : p ≤ 53) (hk : 1 ≤ k)
    (h : Freed LatchStage.Barred first q s) :
    FreelyPulled first q (runWork ((pullSequence st (pinBit p)).drop k) s) := by
  obtain rfl | rfl | hk : k = 1 ∨ k = 2 ∨ 3 ≤ k := by omega
  · rw [runWork_pullSequence_drop_one, runWork_pullSequence_drop_two]
    exact (((h.delay fun _ => And.left).assertClock hp).notUnderway.fourthOn st hp (Nat.le_refl 3)).freelyPulled
  · rw [runWork_pullSequence_drop_two]
    exact ((h.assertClock hp).notUnderway.fourthOn st hp (Nat.le_refl 3)).freelyPulled
  · exact (h.notUnderway.fourthOn st hp hk).freelyPulled

/-- The write frees the pins it breaks, from a value that nothing had drawn before it. -/
theorem masterAct_write_freed {f : Family} {b q : Nat} {v : Word} {s : State} (hf : f = .pud ∨ f = .pudclk)
    (hb : b < nbanks f) (hin : inPullSequence s = true) (hq : q ≤ 53) (hlength : s.pins.length = 54)
    (hreach : s.base = s.mapped)
    (hbroken : q = commandPin s.cmd ∨ (f = .pudclk ∧ q / 32 = b ∧ v.getLsbD (q % 32) = true)) :
    Freed LatchStage.Barred s.fresh q (masterAct (.write f b v) s) := by
  obtain ⟨stage, hlatch, hstage⟩ := masterAct_write_latch hf hb hin (by omega) hbroken
  have hdrawn : (masterAct (.write f b v) s).fresh = s.fresh + 108 := by
    rw [masterAct_write_inside v hf hb hin, spoilPins_fresh, ctrlWrite_pull_fresh b v s hf]
  refine ⟨_, _, _, ⟨hq, by simpa using hreach, hlatch, rfl, hdrawn⟩, by omega, ⟨_, ?_, rfl⟩, ?_⟩
  · omega
  · rcases hstage with rfl | rfl <;> simp [LatchStage.Barred, LatchStage.underway]

/-! ### The rest of a sequence that has been stopped -/

section
variable (st : PullState) (k : Location) {n : Nat} {s : State} (hn : n ≤ 6)
include hn

theorem runWork_pullSequence_drop_eq :
    runWork ((pullSequence st k).drop n) s = respond .ok 0#32 (runWork (((pullSequence st k).take 6).drop n) s) := by
  have hsplit : (pullSequence st k).drop n = ((pullSequence st k).take 6).drop n ++ [.respond .ok 0#32] :=
    List.drop_append_of_le_length (l₁ := (pullSequence st k).take 6) hn
  rw [hsplit, runWork_append]
  rfl

theorem runWork_pullSequence_drop_phase (hphase : n = 6 → s.phase = .idle) :
    (runWork ((pullSequence st k).drop n) s).phase = .idle := by
  obtain rfl | rfl | rfl | rfl | rfl | rfl | rfl | rfl := eventCount_cases (Nat.le_succ_of_le hn) <;>
    simp_all [pullSequence, Work.effect]

end

/-- A CONFIGURE_PULL stopped after the first event or later, and not yet ended. -/
structure Stopped (s : State) : Prop where
  busy : s.busy = true
  left : ∃ st p k, p ≤ 53 ∧ 1 ≤ k ∧ k ≤ 6 ∧ s.pending = (pullSequence st (pinBit p)).drop k ∧ (k = 6 → s.phase = .idle)

/-- With no input the block goes on to the response, and the pins freed stay free. -/
theorem Stopped.ends {s : State} (h : Stopped s) (hin : s.inputs = []) (hc : configOk s.base = true) :
    ∃ u, step s = .next u ∧ u.response = some ⟨.ok, 0#32⟩ ∧ u.busy = false ∧ u.phase = .idle ∧
      ∀ first q, Freed LatchStage.Barred first q s → FreelyPulled first q u := by
  obtain ⟨hbusy, st, p, k, hp, hk1, hk6, hpending, hphase⟩ := h
  have hblind : ∀ w ∈ (pullSequence st (pinBit p)).drop k, w.Blind := fun w hw =>
    pullSequence_blind st hp w (List.mem_of_mem_drop hw)
  refine ⟨_, step_blind hblind hpending hin hbusy hc, ?_, ?_, ?_, fun first q hfreed => ?_⟩
  · rw [runWork_pullSequence_drop_eq st _ hk6]
    rfl
  · rw [runWork_pullSequence_drop_eq st _ hk6]
    rfl
  · exact runWork_pullSequence_drop_phase st _ hk6 hphase
  · exact pullSequence_freed st hp hk1 (s := setTurn none s) (hfreed.congr rfl rfl rfl rfl rfl)

/-- A block that meets the invariant and in whose sequence a write falls has stopped in it. -/
theorem stopped_of_inPullSequence {s : State} (hs : BlockInv s) (hin : inPullSequence s = true) : Stopped s := by
  by_cases hphase : s.phase = .idle
  · obtain hne | ⟨hbusy, -, hpending⟩ := (inPullSequence_iff s).mp hin
    · exact absurd hphase hne
    · exact ⟨hbusy, .off, 0, 6, by omega, by omega, by omega, hpending, fun _ => hphase⟩
  · rcases hs with ⟨-, h, -⟩ | ⟨-, -, h, -⟩ | ⟨-, -, h, -⟩ | ⟨hbusy, -, pin, st, hp, -, hleft⟩
    · exact absurd h hphase
    · exact absurd h hphase
    · exact absurd h hphase
    · obtain ⟨n, h1, h5, hpending⟩ : ∃ n, 1 ≤ n ∧ n ≤ 5 ∧ s.pending = (pullSequence st (pinBit pin.toNat)).drop n := by
        rcases hleft with ⟨-, n, hn, hpending⟩ | ⟨-, n, hn, hpending⟩ <;> exact ⟨n, by omega, by omega, hpending⟩
      exact ⟨hbusy, st, pin.toNat, n, hp, h1, by omega, hpending, by omega⟩

/-- Another master's write leaves the command where it stands. -/
theorem Stopped.masterAct {s : State} (a : MasterAccess) (h : Stopped s) : Stopped (masterAct a s) := by
  obtain ⟨hbusy, hleft⟩ := h
  exact ⟨by simpa using hbusy, by simpa using hleft⟩

/-- Settles O44: the write spoils what the sequence has done for the pins it breaks, and no event left brings a state on
them. -/
theorem masterWriteBreaksTheSequence : Obligations.MasterWriteBreaksTheSequence := by
  intro s f b v rest hinput hinside hf hb
  have hin : inPullSequence (setInputs rest s) = true := (inPullSequence_iff _).mpr hinside
  refine ⟨_, step_master s _ rest hinput, stored_masterAct_write v hf hb, by simp, by simp, by simp,
    fun q hq hbroken => masterAct_write_latch hf hb hin hq hbroken, fun hs hreach hc hrest => ?_⟩
  obtain ⟨hblock, -, -, hlength⟩ := hs
  have hstopped : Stopped (setInputs rest s) := stopped_of_inPullSequence (s := setInputs rest s) hblock hin
  obtain ⟨u, hstep, hresponse, hbusy, hphase, hfreed⟩ :=
    (hstopped.masterAct (.write f b v)).ends (by simpa using hrest) (by simpa using hc)
  exact ⟨u, hstep, hresponse, hbusy, hphase, fun q hq hbroken =>
    hfreed _ q (masterAct_write_freed hf hb hin hq hlength hreach hbroken)⟩

@[simp] theorem commandPin_encode_configurePull (pin : Octet) (st : PullState) :
    commandPin (encode (.configurePull pin st)) = pin.toNat := by simp [commandPin, encode]

theorem effect_frame (w : Work) (s : State) :
    (w.effect s).base = s.base ∧ (w.effect s).mapped = s.mapped ∧ (w.effect s).cmd = s.cmd := by
  cases w <;> simp [Work.effect]

theorem runWork_frame (ws : List Work) (s : State) :
    (runWork ws s).base = s.base ∧ (runWork ws s).mapped = s.mapped ∧ (runWork ws s).cmd = s.cmd := by
  refine runWork_keeps (fun t => t.base = s.base ∧ t.mapped = s.mapped ∧ t.cmd = s.cmd) ?_ ⟨rfl, rfl, rfl⟩
  rintro w - t ⟨hbase, hmapped, hcmd⟩
  obtain ⟨hwbase, hwmapped, hwcmd⟩ := effect_frame w t
  exact ⟨hwbase.trans hbase, hwmapped.trans hmapped, hwcmd.trans hcmd⟩

/-- A CONFIGURE_PULL stopped after one to six events is inside its sequence. -/
theorem exec_configurePull_inside {pin : Octet} (st : PullState) {k : Nat} {s : State} (hb : s.busy = false)
    (hf : s.fault = none) (hphase : s.phase = .idle) (hp : pin.toNat ≤ 53) (hk1 : 1 ≤ k) (hk6 : k ≤ 6) :
    ∃ t, exec (.configurePull pin st) (setTurn (some k) s) = .next t ∧ inPullSequence t = true ∧ Stopped t ∧
      commandPin t.cmd = pin.toNat ∧ t.base = s.base ∧ t.mapped = s.mapped ∧ t.pins.length = s.pins.length := by
  have hrun := exec_configurePull_stopped st hp k hb hf
  generalize hu : setTurn none (accept (encode (.configurePull pin st)) s) = u at hrun
  have hidle : u.phase = .idle := hu ▸ hphase
  have hmoved := runWork_pullSequence_take_phase st (pinBit pin.toNat) (k := k) (by omega) hidle
  have hrunning := runWork_pullSequence_take_busy st (pinBit pin.toNat) (k := k) (s := u) (by omega) (hu ▸ rfl)
  rw [decide_eq_true (by omega)] at hrunning
  obtain ⟨hbase, hmapped, hcmd⟩ := runWork_frame ((pullSequence st (pinBit pin.toNat)).take k) u
  have hword : u.cmd = encode (.configurePull pin st) := hu ▸ rfl
  rw [hword] at hcmd
  refine ⟨_, hrun, (inPullSequence_iff _).mpr ?_, ⟨hrunning, st, pin.toNat, k, hp, hk1, hk6, rfl, ?_⟩, ?_, ?_, ?_, ?_⟩
  · obtain hk5 | rfl : k ≤ 5 ∨ k = 6 := by omega
    · left
      rw [setPending_phase, hmoved]
      obtain rfl | rfl | rfl | rfl | rfl : k = 1 ∨ k = 2 ∨ k = 3 ∨ k = 4 ∨ k = 5 := by omega
      all_goals decide
    · exact .inr ⟨hrunning, by rw [setPending_cmd, hcmd]; simp [encode], rfl⟩
  · rintro rfl
    exact hmoved
  · rw [setPending_cmd, hcmd, commandPin_encode_configurePull]
  · rw [setPending_base, hbase, ← hu]
    rfl
  · rw [setPending_mapped, hmapped, ← hu]
    rfl
  · rw [setPending_pins, runWork_pins_length, ← hu]
    rfl

/-- Settles O45: after one to six events the command is inside its sequence, and the write there breaks it. -/
theorem writeBeforeTheResponseBreaksTheSequence : Obligations.WriteBeforeTheResponseBreaksTheSequence := by
  intro s pin st k f b v hb hf hphase hp hk1 hk6 hpull hbank hlength
  obtain ⟨t, hexec, hin, hstopped, hpin, hbase, hmapped, htlength⟩ :=
    exec_configurePull_inside st hb hf hphase hp hk1 hk6
  rw [hlength] at htlength
  rw [← hpin]
  refine ⟨t, hexec, fun q hq hbroken => masterAct_write_latch hpull hbank hin (by omega) hbroken, fun hreach hc => ?_⟩
  have hafter : Stopped (setInputs [] (masterAct (.write f b v) t)) := by
    obtain ⟨hbusy, hleft⟩ := hstopped.masterAct (.write f b v)
    exact ⟨hbusy, hleft⟩
  obtain ⟨u, hstep, hresponse, hbusy, hphase, hfreed⟩ := hafter.ends rfl (by simpa [hbase] using hc)
  have htreach : t.base = t.mapped := by rw [hbase, hmapped, hreach]
  refine ⟨u, hstep, hresponse, hbusy, hphase, fun q hq hbroken => hfreed _ q ?_⟩
  exact (masterAct_write_freed hpull hbank hin hq htlength htreach hbroken).congr rfl rfl rfl rfl rfl

end Sys2Proof.Machine
